-- ==== Sys2Proof/Word.lean ====
section
/-! DEFINITION. The word types of lib8089 CORE: bytes, 16-bit words, 20-bit addresses. -/

namespace Sys2Proof

/-- The addressable unit of both spaces (R4, R27). -/
abbrev Byte := BitVec 8

/-- A 16-bit word: an instruction word (R70), a 16-bit register (R12), the largest data unit (R51). -/
abbrev Half := BitVec 16

/-- A 20-bit value: a memory-space address (R41) or the value of a 20-bit register (R12). -/
abbrev Addr := BitVec 20

end Sys2Proof
end

