-- ==== Sys2Proof/Config.lean ====
section
/-! DEFINITION. The constants of lib8089 CORE. The parameters the spec leaves OPEN to the host
(`BUS16_MEM`, `BUS16_IO`, `HAS_SINTR_SINK`, `VALIDATE`, `EXECUTE`) are data in the state
(`Machine.Params`), because a machine must be evaluable for each of their values.
No rule of the spec leaves the value of a register, flag or byte open after an instruction, so
there is no free value here. -/

namespace Sys2Proof.Config

/-- `BOOT_SYSBUS_ADDR` (R4, R54, R292 step 1). -/
def bootSysbusAddr : Addr := 0xFFFF6#20

/-- `BOOT_SCP_ADDR` (R4, R54, R292 step 2). -/
def bootScpAddr : Addr := 0xFFFF8#20

/-- What a byte of memory or I/O that is not listed reads as when the host answers from its plain
contents. The contents at reset are the host's (R30). DESIGN CHOICE, unsafe: log entry 3. -/
def unlistedByte : Byte := 0#8

/-- How many units one evaluation of the DMA loop may move before the run is carried over to the
next model step (R252, D38). Every run with `cc.TBC != 0` needs at most 65535 units (R252).
DESIGN CHOICE, safe: log entry 8. -/
def dmaFuel : Nat := 65536

/-- The longest instruction, `mov M,M` or `lpdi`, in bytes (R74). -/
def maxLength : Nat := 6

end Sys2Proof.Config
end

