-- ==== Sys2Proof/Syntax.lean ====
section
/-! DEFINITION. The instructions of lib8089 CORE as data: one constructor per row of
spec/opcode_table.json. Register numbers and mode codes are constructors here; the bits they are
encoded by stand in Sys2Proof/Decode.lean. -/

namespace Sys2Proof

/-- The two address spaces (R27). A clear tag bit is `mem`, a set one `io` (R21). -/
inductive Space where
  | mem
  | io
  deriving DecidableEq, Repr

/-- An 8- or 16-bit width: the `w` bit of an instruction (R99) and each half of the transfer-width
mode (R23). -/
inductive Width where
  | byte
  | word
  deriving DecidableEq, Repr

/-- The nine registers of a channel (R11). -/
inductive RegName where
  | ga | gb | gc | bc | tp | ix | cc | mc | pp
  deriving DecidableEq, Repr

/-- A register operand `RRR` (R93): any register but `pp`. -/
inductive Reg where
  | ga | gb | gc | bc | tp | ix | cc | mc
  deriving DecidableEq, Repr

/-- A pointer-register operand `PPP` (R94). -/
inductive PReg where
  | ga | gb | gc | tp
  deriving DecidableEq, Repr

/-- A base register, selected by `mm` (R96). -/
inductive Base where
  | ga | gb | gc | pp
  deriving DecidableEq, Repr

/-- The addressing modes, selected by `aa` (R97). -/
inductive AddrMode where
  | base
  | offset (off : Byte)
  | index
  | indexInc
  deriving DecidableEq, Repr

/-- An addressed location `M` (R128). -/
structure MemOp where
  base : Base
  mode : AddrMode
  deriving DecidableEq, Repr

/-- An immediate or a displacement: one byte (`wb = 1`) or two (`wb = 2`) (R76, R77). -/
inductive Imm where
  | byte (b : Byte)
  | word (v : Half)
  deriving DecidableEq, Repr

/-- Why the validator rejects a word (R263, reasons 1 to 7). -/
inductive Reason where
  /-- 1: the opcode has the invalid descriptor (R84). -/
  | unknownOpcode
  /-- 2: no addressing mode and `mm` not 0 (R85). -/
  | selectorWithoutMode
  /-- 3: a reserved `PPP` value (R86). -/
  | illegalRegister
  /-- 4: `wb` is 0 or 3 where 1 or 2 is required (R87). -/
  | illegalWidth
  /-- 5: a field no flag covers differs from its constant (R88). -/
  | reservedBits
  /-- 6: `opc = 0x33` with no store obligation (R90). -/
  | storeHalfAtTop
  /-- 7: a store obligation and `opc` not 0x33 (R90). -/
  | storeHalfMissing
  deriving DecidableEq, Repr

/-- The instructions, one constructor per row of the opcode table (R81, R82, R102). A name that
ends in `R` has a register destination and no memory operand, `M` a memory destination, `RM` a
register destination and a memory source, `MR` the converse. -/
inductive Instr where
  /-- `nop` (R140) -/
  | nop
  /-- `sintr` (R141) -/
  | sintr
  /-- `xfer` (R142) -/
  | xfer
  /-- `wid S,D` (R143) -/
  | wid (src dst : Width)
  /-- `lpdi P,I` (R157) -/
  | lpdi (p : PReg) (off seg : Half)
  /-- `addi R,I` (R171) -/
  | addiR (r : Reg) (i : Imm) (w : Width)
  /-- `jmp d` (R102, R206) -/
  | jmp (d : Byte)
  /-- `ljmp d` (R102, R206) -/
  | ljmp (d : Half)
  /-- `ori R,I` (R172) -/
  | oriR (r : Reg) (i : Imm) (w : Width)
  /-- `andi R,I` (R173) -/
  | andiR (r : Reg) (i : Imm) (w : Width)
  /-- `not R` (R174) -/
  | notR (r : Reg)
  /-- `movi R,I` (R152) -/
  | moviR (r : Reg) (i : Imm) (w : Width)
  /-- `inc R` (R175) -/
  | incR (r : Reg)
  /-- `dec R` (R176) -/
  | decR (r : Reg)
  /-- `jnz R,d` (R208) -/
  | jnzR (r : Reg) (d : Imm)
  /-- `jz R,d` (R207) -/
  | jzR (r : Reg) (d : Imm)
  /-- `hlt` (R144) -/
  | hlt
  /-- `movi M,I` (R153) -/
  | moviM (m : MemOp) (i : Imm) (w : Width)
  /-- `mov R,M` (R150) -/
  | movRM (r : Reg) (m : MemOp) (w : Width)
  /-- `mov M,R` (R151) -/
  | movMR (m : MemOp) (r : Reg) (w : Width)
  /-- `lpd P,M` (R156) -/
  | lpd (p : PReg) (m : MemOp)
  /-- `movp P,M` (R158) -/
  | movpPM (p : PReg) (m : MemOp)
  /-- `mov M,M`, load half (R154) -/
  | movMMLoad (m : MemOp) (w : Width)
  /-- `tsl M,I,d` (R217) -/
  | tsl (m : MemOp) (i d : Byte)
  /-- `movp M,P` (R159) -/
  | movpMP (m : MemOp) (p : PReg)
  /-- `call M,d` (R215) -/
  | call (m : MemOp) (d : Imm)
  /-- `add R,M` (R177) -/
  | addRM (r : Reg) (m : MemOp) (w : Width)
  /-- `or R,M` (R178) -/
  | orRM (r : Reg) (m : MemOp) (w : Width)
  /-- `and R,M` (R179) -/
  | andRM (r : Reg) (m : MemOp) (w : Width)
  /-- `not R,M` (R180) -/
  | notRM (r : Reg) (m : MemOp) (w : Width)
  /-- `jmce M,d` (R211) -/
  | jmce (m : MemOp) (d : Imm)
  /-- `jmcne M,d` (R212) -/
  | jmcne (m : MemOp) (d : Imm)
  /-- `jnbt M,b,d` (R214) -/
  | jnbt (m : MemOp) (b : BitVec 3) (d : Imm)
  /-- `jbt M,b,d` (R213) -/
  | jbt (m : MemOp) (b : BitVec 3) (d : Imm)
  /-- `addi M,I` (R181) -/
  | addiM (m : MemOp) (i : Imm) (w : Width)
  /-- `ori M,I` (R182) -/
  | oriM (m : MemOp) (i : Imm) (w : Width)
  /-- `andi M,I` (R183) -/
  | andiM (m : MemOp) (i : Imm) (w : Width)
  /-- `mov M,M`, store half (R155) -/
  | movMMStore (m : MemOp) (w : Width)
  /-- `add M,R` (R184) -/
  | addMR (m : MemOp) (r : Reg) (w : Width)
  /-- `or M,R` (R185) -/
  | orMR (m : MemOp) (r : Reg) (w : Width)
  /-- `and M,R` (R186) -/
  | andMR (m : MemOp) (r : Reg) (w : Width)
  /-- `not M` (R187) -/
  | notM (m : MemOp) (w : Width)
  /-- `jnz M,d` (R210) -/
  | jnzM (m : MemOp) (d : Imm) (w : Width)
  /-- `jz M,d` (R209) -/
  | jzM (m : MemOp) (d : Imm) (w : Width)
  /-- `inc M` (R188) -/
  | incM (m : MemOp) (w : Width)
  /-- `dec M` (R189) -/
  | decM (m : MemOp) (w : Width)
  /-- `setb M,b` (R200) -/
  | setb (m : MemOp) (b : BitVec 3)
  /-- `clr M,b` (R201) -/
  | clr (m : MemOp) (b : BitVec 3)
  deriving DecidableEq, Repr

end Sys2Proof
end

