-- ==== Sys2Proof/Machine/State.lean ====
section
/-! DEFINITION. The state of lib8089 CORE as plain data: two channels (R10), what the engine carries
inside a step (R28), and the host's side of the interface (R31, R40, R272, R277) as lists the step
reads and extends. -/

namespace Sys2Proof.Machine

/-! ## A channel -/

/-- The two channels, numbered 0 and 1 (R4 `NCHAN`, R277). -/
inductive ChanId where
  | ch0
  | ch1
  deriving DecidableEq, Repr

/-- The failures of a step (R260, R261): every stop but `NormalHalt`. -/
inductive Failure where
  /-- Code 2: the validator rejected the word (R263). -/
  | invalidEncoding (r : Reason)
  /-- Code 3: the word has no execution handler (R264). -/
  | unknownOpcode
  /-- Code 4: a transfer was started in translate mode (R265). -/
  | unsupportedFeature
  deriving DecidableEq, Repr

/-- The stop conditions (R260): `NormalHalt` and the failures. -/
inductive Stop where
  | normalHalt
  | failed (f : Failure)
  deriving DecidableEq, Repr

/-- The run status of a channel (R29). -/
inductive Status where
  | idle
  | running
  | halted
  | faulted (f : Failure)
  deriving DecidableEq, Repr

/-- The tag vector: one bit per register, `mem` for a clear bit and `io` for a set one (R21). -/
structure Tags where
  ga : Space
  gb : Space
  gc : Space
  bc : Space
  tp : Space
  ix : Space
  cc : Space
  mc : Space
  pp : Space
  deriving DecidableEq, Repr

/-- One channel (R10): nine registers at their widths (R11, R12), the tag vector (R21), the
transfer-width mode (R23), the transfer-pending flag (R24) and the run status (R29). -/
structure Channel where
  ga : Addr
  gb : Addr
  gc : Addr
  bc : Half
  tp : Addr
  ix : Half
  cc : Half
  mc : Half
  pp : Addr
  tags : Tags
  wsrc : Width
  wdst : Width
  xp : Bool
  status : Status
  deriving DecidableEq, Repr

/-! ## The host's side -/

/-- Memory or I/O contents: (address, byte) pairs in canonical form (`Memory.wf` of
Sys2Proof/Machine/Mem.lean). -/
abbrev Memory := List Host.Cell

/-- The parameters the spec leaves OPEN to the host (R4). Nothing writes them. Log entries 4, 11. -/
structure Params where
  /-- `BUS16_MEM` (R40). -/
  bus16Mem : Bool
  /-- `BUS16_IO` (R40). -/
  bus16Io : Bool
  /-- `HAS_SINTR_SINK` (R141). -/
  sintrSink : Bool
  /-- `VALIDATE` (R125). -/
  validate : Bool
  /-- `EXECUTE` (R125). -/
  execute : Bool
  deriving DecidableEq, Repr

/-- The external condition of one channel (R272): the level now, and the levels the host will drive
at the samples to come (the level stays when the list is used up). Log entry 5. -/
structure ExtPin where
  level : Bool
  later : List Bool
  deriving DecidableEq, Repr

/-- What the host can do between steps. Log entries 6, 14, 17. -/
inductive HostAction where
  /-- Call the engine once for a channel (R5, R277). -/
  | step (c : ChanId)
  /-- Activate a channel (R291). -/
  | activate (c : ChanId)
  /-- Set a faulted channel running again; off unless the host asks for it (R268, D26). -/
  | resume (c : ChanId)
  /-- Reset the core (R290). -/
  | reset
  /-- Store a byte of memory or I/O contents, as the host or another bus master may (R303). -/
  | store (sp : Space) (a : Addr) (b : Byte)
  /-- Drive `EXT` of a channel to a level (R272). -/
  | drive (c : ChanId) (level : Bool)
  deriving DecidableEq, Repr

/-- What the core does that the host sees (R40, R52, R141, R261, R272). Log entry 12. -/
inductive Event where
  | read8 (sp : Space) (a : Addr) (v : Byte)
  | read16 (sp : Space) (a : Addr) (v : Half)
  | write8 (sp : Space) (a : Addr) (v : Byte)
  | write16 (sp : Space) (a : Addr) (v : Half)
  | extSample (c : ChanId) (level : Bool)
  | sintr (c : ChanId)
  | stop (c : ChanId) (x : Stop)
  deriving DecidableEq, Repr

/-- The host's side of the interface. -/
structure Env where
  /-- Contents of the memory space (R27). -/
  mem : Memory
  /-- Contents of the I/O space (R27). -/
  io : Memory
  /-- The answers to the next read primitives, one entry per call: `some v` is the value the host
  gives, `none` (or the end of the list) the plain contents (R53, D36). Log entry 2. -/
  answers : List (Option Half)
  ext0 : ExtPin
  ext1 : ExtPin
  /-- The host actions to come (R277). When it is empty the host keeps stepping the channel `cur`, the
  one it last stepped or activated: DESIGN CHOICE, log entry 6. -/
  schedule : List HostAction
  /-- Everything the host has seen, newest first. Log entry 12. -/
  events : List Event
  params : Params
  deriving DecidableEq, Repr

/-! ## The machine -/

/-- Whether a DMA run is under way whose step has not returned (R252). Log entry 8. -/
inductive DmaPhase where
  /-- No run is under way ("idle is `xp = 0`" or the run has not begun, R235). -/
  | idle
  /-- A run of the current channel is between two units, with its latch (R28, R240). -/
  | suspended (latch : Option Bool)
  deriving DecidableEq, Repr

/-- The machine. -/
structure State where
  ch0 : Channel
  ch1 : Channel
  /-- The channel whose step is taken (R5, R277). Only a step or an activation of a channel sets it;
  a resume, a reset, a store and a change of `EXT` leave it: DESIGN CHOICE, log entry 6. -/
  cur : ChanId
  /-- The store obligation and its carried value (R28, R154); none between steps. Log entry 9. -/
  obligation : Option Half
  dma : DmaPhase
  env : Env
  deriving DecidableEq, Repr

/-- The reasons the machine could have no next state. There are none: the access layer cannot fail
(R280), no arithmetic condition is an error (R282), and each of the spec's four stop conditions is a
next state with the channel's status written (R29, R262). Safe: nothing is stopped by it. -/
inductive Fault where
  deriving DecidableEq, Repr

/-- The reasons an instruction gets no meaning. -/
inductive Refusal where
  /-- Raised by an arm of `exec` whose instruction has no meaning yet; no arm raises it now. Safe. -/
  | notModelled (mnemonic : String)
  /-- Raised by the engine, and only when the host has switched validation off and left execution on,
  for a word the validator would reject with this reason and whose opcode has an execution rule: "the
  behaviour of any other failing word is not defined by the source" (R125), treatment `refuse` (U1 of
  93_implementation_defined.md). Never raised by the hardware, which always validates. Safe. -/
  | unvalidatedWord (r : Reason)
  deriving DecidableEq, Repr

/-- What an instruction answers. -/
abbrev Result := Host.Outcome State Fault Refusal

/-! ## Reset -/

/-- The tag vector after reset: all `MEM` (R30). -/
def Tags.reset : Tags :=
  ⟨.mem, .mem, .mem, .mem, .mem, .mem, .mem, .mem, .mem⟩

/-- A channel after reset (R30). -/
def Channel.reset : Channel where
  ga := 0#20
  gb := 0#20
  gc := 0#20
  bc := 0#16
  tp := 0#20
  ix := 0#16
  cc := 0#16
  mc := 0#16
  pp := 0#20
  tags := Tags.reset
  wsrc := .byte
  wdst := .byte
  xp := false
  status := .idle

/-- The host's side at reset: nothing listed, nothing scheduled. The parameters and the EXT levels
are the host's; these are the values of the spec's own vectors (95_test_vectors.md section 0).
DESIGN CHOICE, unsafe: log entries 3, 4, 5, 6. -/
def Env.reset : Env where
  mem := []
  io := []
  answers := []
  ext0 := ⟨true, []⟩
  ext1 := ⟨true, []⟩
  schedule := []
  events := []
  params := ⟨true, true, true, true, true⟩

/-- The machine right after reset (R30, R290). -/
def State.reset : State where
  ch0 := Channel.reset
  ch1 := Channel.reset
  cur := .ch0
  obligation := none
  dma := .idle
  env := Env.reset

end Sys2Proof.Machine
end

