-- ==== Sys2Proof/Machine/Mem.lean ====
section
/-! DEFINITION. Contents of a space as a canonical list: addresses strictly rising, no entry equal to
what an unlisted address reads as. -/

namespace Sys2Proof.Machine

/-- The byte at an address; an unlisted one reads `Config.unlistedByte` (log entry 3). -/
def Memory.get : Memory → Nat → Byte
  | [], _ => Config.unlistedByte
  | (k, v) :: rest, a => if k = a then v else Memory.get rest a

/-- Put an entry before the rest, unless it is what an unlisted address reads as. -/
def Memory.entry (a : Nat) (b : Byte) (rest : Memory) : Memory :=
  if b = Config.unlistedByte then rest else (a, b) :: rest

/-- Store a byte, keeping the canonical form. -/
def Memory.set : Memory → Nat → Byte → Memory
  | [], a, b => Memory.entry a b []
  | (k, v) :: rest, a, b =>
    if a < k then Memory.entry a b ((k, v) :: rest)
    else if a = k then Memory.entry a b rest
    else (k, v) :: Memory.set rest a b

/-- Canonical, with every address at least `lo`. -/
def Memory.wfFrom (lo : Nat) : Memory → Bool
  | [] => true
  | (k, v) :: rest =>
    decide (lo ≤ k) && decide (v ≠ Config.unlistedByte) && Memory.wfFrom (k + 1) rest

/-- Every listed address is below `n`, the size of the space (R27). -/
def Memory.below (n : Nat) (m : Memory) : Bool :=
  m.all fun c => decide (c.1 < n)

/-- The contents of a space of `n` bytes are in canonical form. -/
def Memory.wf (n : Nat) (m : Memory) : Bool :=
  Memory.wfFrom 0 m && Memory.below n m

/-- The size of a space (R27). -/
def spaceSize : Space → Nat
  | .mem => 2 ^ 20
  | .io => 2 ^ 16

end Sys2Proof.Machine
end

