-- ==== Sys2Proof/Machine/Ops.lean ====
section
/-! DEFINITION. The named operations over channels, registers, memory and the host: the accessors,
the dual-space access layer (spec/20_memory.md), the pointer formats (R22), and taking a stop
(R262). Every function that talks to the host returns a value and the state after. -/

namespace Sys2Proof.Machine

/-! ## Channels -/

/-- A channel of the machine (R10). -/
def State.chan (s : State) : ChanId → Channel
  | .ch0 => s.ch0
  | .ch1 => s.ch1

/-- Replace a channel. -/
def State.setChan (s : State) (c : ChanId) (x : Channel) : State :=
  { s with
    ch0 := match c with
      | .ch0 => x
      | .ch1 => s.ch0
    ch1 := match c with
      | .ch0 => s.ch1
      | .ch1 => x }

/-- The channel that is executing. -/
def State.me (s : State) : Channel := s.chan s.cur

/-- Replace the channel that is executing. -/
def State.setMe (s : State) (x : Channel) : State := s.setChan s.cur x

/-! ## Registers and tags -/

/-- The register an `RRR` operand names (R93). -/
def rrrName : Reg → RegName
  | .ga => .ga
  | .gb => .gb
  | .gc => .gc
  | .bc => .bc
  | .tp => .tp
  | .ix => .ix
  | .cc => .cc
  | .mc => .mc

/-- The register a `PPP` operand names (R94). -/
def pppName : PReg → RegName
  | .ga => .ga
  | .gb => .gb
  | .gc => .gc
  | .tp => .tp

/-- The register `mm` selects (R96). -/
def baseName : Base → RegName
  | .ga => .ga
  | .gb => .gb
  | .gc => .gc
  | .pp => .pp

/-- `regw(i)`, the width of a register (R12). -/
def regWidth : RegName → Nat
  | .ga | .gb | .gc | .tp | .pp => 20
  | .bc | .ix | .cc | .mc => 16

/-- `v mod 2^regw(i)`: what a register keeps of a value written to it (R12). -/
def cutReg (r : RegName) (v : Addr) : Addr :=
  match r with
  | .ga | .gb | .gc | .tp | .pp => v
  | .bc | .ix | .cc | .mc => (v.setWidth 16).setWidth 20

/-- The value of a register, unsigned; a 16-bit register below 2^16 (R12). -/
def Channel.read (x : Channel) : RegName → Addr
  | .ga => x.ga
  | .gb => x.gb
  | .gc => x.gc
  | .bc => x.bc.setWidth 20
  | .tp => x.tp
  | .ix => x.ix.setWidth 20
  | .cc => x.cc.setWidth 20
  | .mc => x.mc.setWidth 20
  | .pp => x.pp

/-- Write a register; the value is truncated to the register's width (R12). It never changes a tag
(00_scope section 6). Computing at 20 bits and truncating to 16 is computing at 16 bits for every
operation the machine has: log entry 13. -/
def Channel.write (x : Channel) (r : RegName) (v : Addr) : Channel :=
  match r with
  | .ga => { x with ga := v }
  | .gb => { x with gb := v }
  | .gc => { x with gc := v }
  | .bc => { x with bc := v.setWidth 16 }
  | .tp => { x with tp := v }
  | .ix => { x with ix := v.setWidth 16 }
  | .cc => { x with cc := v.setWidth 16 }
  | .mc => { x with mc := v.setWidth 16 }
  | .pp => { x with pp := v }

/-- The tag of a register (R21). -/
def Tags.get (t : Tags) : RegName → Space
  | .ga => t.ga
  | .gb => t.gb
  | .gc => t.gc
  | .bc => t.bc
  | .tp => t.tp
  | .ix => t.ix
  | .cc => t.cc
  | .mc => t.mc
  | .pp => t.pp

/-- Write the tag of a register (R21). -/
def Tags.set (t : Tags) (r : RegName) (sp : Space) : Tags :=
  match r with
  | .ga => { t with ga := sp }
  | .gb => { t with gb := sp }
  | .gc => { t with gc := sp }
  | .bc => { t with bc := sp }
  | .tp => { t with tp := sp }
  | .ix => { t with ix := sp }
  | .cc => { t with cc := sp }
  | .mc => { t with mc := sp }
  | .pp => { t with pp := sp }

/-- `reg[r]` of the executing channel. -/
def State.reg (s : State) (r : RegName) : Addr := s.me.read r

/-- `reg[r] <- v` in the executing channel. -/
def State.setReg (s : State) (r : RegName) (v : Addr) : State := s.setMe (s.me.write r v)

/-- `tag[r]` of the executing channel. -/
def State.tag (s : State) (r : RegName) : Space := s.me.tags.get r

/-- `tag[r] <- sp` in the executing channel. -/
def State.setTag (s : State) (r : RegName) (sp : Space) : State :=
  s.setMe { s.me with tags := s.me.tags.set r sp }

/-- `xp <- b` in the executing channel (R24). -/
def State.setXp (s : State) (b : Bool) : State := s.setMe { s.me with xp := b }

/-- `wsrc <- a; wdst <- b` in the executing channel (R23). -/
def State.setWid (s : State) (a b : Width) : State := s.setMe { s.me with wsrc := a, wdst := b }

/-- Write the run status of the executing channel (R29). -/
def State.setStatus (s : State) (x : Status) : State := s.setMe { s.me with status := x }

/-! ## The host -/

/-- The plain contents of a space. -/
def State.contents (s : State) : Space → Memory
  | .mem => s.env.mem
  | .io => s.env.io

/-- Replace the plain contents of a space. -/
def State.setContents (s : State) (sp : Space) (m : Memory) : State :=
  { s with
    env := { s.env with
      mem := match sp with
        | .mem => m
        | .io => s.env.mem
      io := match sp with
        | .mem => s.env.io
        | .io => m } }

/-- Show the host an event. -/
def State.emit (s : State) (e : Event) : State :=
  { s with env := { s.env with events := e :: s.env.events } }

/-- Whether the 16-bit primitive of a space exists (R40). -/
def State.bus16 (s : State) : Space → Bool
  | .mem => s.env.params.bus16Mem
  | .io => s.env.params.bus16Io

/-- The host's answer to the next read primitive, if it is not the plain contents (R53). -/
def State.answer (s : State) : Option Half := s.env.answers.head?.join

/-- One answer is used up. -/
def State.nextAnswer (s : State) : State :=
  { s with env := { s.env with answers := s.env.answers.tail } }

/-- The `EXT` pin of a channel (R272). -/
def State.pin (s : State) : ChanId → ExtPin
  | .ch0 => s.env.ext0
  | .ch1 => s.env.ext1

/-- Replace the `EXT` pin of a channel. -/
def State.setPin (s : State) (c : ChanId) (p : ExtPin) : State :=
  { s with
    env := { s.env with
      ext0 := match c with
        | .ch0 => p
        | .ch1 => s.env.ext0
      ext1 := match c with
        | .ch0 => s.env.ext1
        | .ch1 => p } }

/-! ## The access layer -/

/-- Address masking: 20 bits for memory, 16 for I/O (R41, R133). -/
def mask (sp : Space) (a : Addr) : Addr :=
  match sp with
  | .mem => a
  | .io => a &&& 0x0FFFF#20

/-- The byte of the plain contents at an address, masked (R41, R44). -/
def State.byteAt (s : State) (sp : Space) (a : Addr) : Byte :=
  (s.contents sp).get (mask sp a).toNat

/-- Store a byte of the plain contents at an address, masked (R41, R44). -/
def State.setByte (s : State) (sp : Space) (a : Addr) (b : Byte) : State :=
  s.setContents sp ((s.contents sp).set (mask sp a).toNat b)

/-- `P_read8` (R40): one call, answered by the host (R53). -/
def primRead8 (sp : Space) (a : Addr) (s : State) : Byte × State :=
  let v : Byte := match s.answer with
    | some x => x.setWidth 8
    | none => s.byteAt sp a
  (v, s.nextAnswer.emit (.read8 sp a v))

/-- `P_read16` (R40, R44): one call, answered by the host (R53). -/
def primRead16 (sp : Space) (a : Addr) (s : State) : Half × State :=
  let v : Half := match s.answer with
    | some x => x
    | none => s.byteAt sp (a + 1#20) ++ s.byteAt sp a
  (v, s.nextAnswer.emit (.read16 sp a v))

/-- `P_write8` (R40). -/
def primWrite8 (sp : Space) (a : Addr) (v : Byte) (s : State) : State :=
  (s.setByte sp a v).emit (.write8 sp a v)

/-- `P_write16` (R40, R44). -/
def primWrite16 (sp : Space) (a : Addr) (v : Half) (s : State) : State :=
  ((s.setByte sp a (v.extractLsb' 0 8)).setByte sp (a + 1#20) (v.extractLsb' 8 8)).emit
    (.write16 sp a v)

/-- Whether a 2-byte access at an address is one primitive call: the masked address is even and the
space has a 16-bit primitive (R43, R46). -/
def wideAccess (sp : Space) (a : Addr) (s : State) : Bool :=
  (!(mask sp a).getLsbD 0) && s.bus16 sp

/-- `MemRead(sp, a, 1)` (R42). -/
def memRead8 (sp : Space) (a : Addr) (s : State) : Byte × State :=
  primRead8 sp (mask sp a) s

/-- `MemRead(sp, a, 2)` (R43): the second address of a split access is masked again. -/
def memRead16 (sp : Space) (a : Addr) (s : State) : Half × State :=
  if wideAccess sp a s then primRead16 sp (mask sp a) s
  else
    let lo := memRead8 sp (mask sp a) s
    let hi := memRead8 sp (mask sp a + 1#20) lo.2
    (hi.1 ++ lo.1, hi.2)

/-- `MemRead(sp, a, 4)` (R45): the low half first. -/
def memRead32 (sp : Space) (a : Addr) (s : State) : BitVec 32 × State :=
  let lo := memRead16 sp a s
  let hi := memRead16 sp (a + 2#20) lo.2
  (hi.1 ++ lo.1, hi.2)

/-- `MemWrite(sp, a, 1, v)` (R46). -/
def memWrite8 (sp : Space) (a : Addr) (v : Byte) (s : State) : State :=
  primWrite8 sp (mask sp a) v s

/-- `MemWrite(sp, a, 2, v)` (R46): the low byte first when split. -/
def memWrite16 (sp : Space) (a : Addr) (v : Half) (s : State) : State :=
  if wideAccess sp a s then primWrite16 sp (mask sp a) v s
  else
    memWrite8 sp (mask sp a + 1#20) (v.extractLsb' 8 8)
      (memWrite8 sp (mask sp a) (v.extractLsb' 0 8) s)

/-- `MemWrite(sp, a, 4, v)` (R46): the low half first. No instruction writes 4 bytes. -/
def memWrite32 (sp : Space) (a : Addr) (v : BitVec 32) (s : State) : State :=
  memWrite16 sp (a + 2#20) (v.extractLsb' 16 16) (memWrite16 sp a (v.extractLsb' 0 16) s)

/-- An access of the width an instruction's `w` gives, as an unsigned 16-bit value
(R135(a), R51). -/
def memRead (w : Width) (sp : Space) (a : Addr) (s : State) : Half × State :=
  match w with
  | .byte =>
    let r := memRead8 sp a s
    (r.1.setWidth 16, r.2)
  | .word => memRead16 sp a s

/-- A store of the width an instruction's `w` gives; the value is truncated (R135(d)). -/
def memWrite (w : Width) (sp : Space) (a : Addr) (v : Half) (s : State) : State :=
  match w with
  | .byte => memWrite8 sp a (v.setWidth 8) s
  | .word => memWrite16 sp a v s

/-! ## Pointer formats -/

/-- `flat(seg, off)` of a segmented pointer, the offset in the low half (R22(a)). -/
def flat (p : BitVec 32) : Addr :=
  ((p.extractLsb' 16 16).setWidth 20 <<< 4) + (p.extractLsb' 0 16).setWidth 20

/-- The tag bit of a space: set for I/O (R21). -/
def tagBit : Space → BitVec 1
  | .mem => 0#1
  | .io => 1#1

/-- The space of a tag bit (R21). -/
def tagOfBit (b : Bool) : Space := if b then .io else .mem

/-- The third byte of a stored pointer: bits 19:16, the tag, three zeros (R22(b)). -/
def pointerTail (v : Addr) (t : Space) : Byte :=
  v.extractLsb' 16 4 ++ tagBit t ++ 0#3

/-- Store a pointer and its tag: a 2-byte access, then a 1-byte access (R22(b), R47). -/
def storePointer (sp : Space) (a : Addr) (v : Addr) (t : Space) (s : State) : State :=
  memWrite8 sp (a + 2#20) (pointerTail v t) (memWrite16 sp a (v.extractLsb' 0 16) s)

/-- The value of a stored pointer, from its first two bytes and its third (R22(b), R158). -/
def pointerValue (lo : Half) (b2 : Byte) : Addr := b2.extractLsb' 4 4 ++ lo

/-- The tag of a stored pointer, bit 3 of its third byte; bits 2:0 are ignored (R158). -/
def pointerTag (b2 : Byte) : Space := tagOfBit (b2.getLsbD 3)

/-- Load a pointer and its tag: a 2-byte access, then a 1-byte access (R47, R158). -/
def loadPointer (sp : Space) (a : Addr) (s : State) : (Addr × Space) × State :=
  let lo := memRead16 sp a s
  let b2 := memRead8 sp (a + 2#20) lo.2
  ((pointerValue lo.1 b2.1, pointerTag b2.1), b2.2)

/-! ## Stops -/

/-- The status a stop leaves (R29, R262). -/
def Stop.status : Stop → Status
  | .normalHalt => .halted
  | .failed f => .faulted f

/-- `raise X` (R262): the step ends at once, the channel's status is written and the host is told
(R261). Nothing is rolled back and nothing else is written. An obligation does not survive the step
(R28). This is the one place where a stop is taken. Log entry 1. -/
def raise (x : Stop) (s : State) : State :=
  ({ s with obligation := none }.setStatus x.status).emit (.stop s.cur x)

/-- The reason numbers (R263). -/
def reasonCode : Reason → Nat
  | .unknownOpcode => 1
  | .selectorWithoutMode => 2
  | .illegalRegister => 3
  | .illegalWidth => 4
  | .reservedBits => 5
  | .storeHalfAtTop => 6
  | .storeHalfMissing => 7

/-- The outcome codes (R261); `Ok` is 0. -/
def Stop.code : Stop → Nat
  | .normalHalt => 1
  | .failed (.invalidEncoding _) => 2
  | .failed .unknownOpcode => 3
  | .failed .unsupportedFeature => 4

/-- The outcome code that a status shows (R29, R261): what the step that left it returned. -/
def Status.outcomeCode : Status → Nat
  | .idle => 0
  | .running => 0
  | .halted => Stop.normalHalt.code
  | .faulted f => (Stop.failed f).code

end Sys2Proof.Machine
end

