-- ==== Sys2Proof/Machine/Bootstrap.lean ====
section
/-! DEFINITION. Activation of a channel: the bootstrap sequence (spec/70_reset_and_hazards.md
R291 to R293), which is also how a stopped channel runs again (R268). -/

namespace Sys2Proof.Machine

/-- `8 * ch` (R292 step 4). -/
def chanOffset : ChanId → Addr
  | .ch0 => 0#20
  | .ch1 => 8#20

/-- Steps 1 to 4 of the bootstrap: the address of the channel's control block, and the state after
the reads (R292). -/
def bootControlBlock (c : ChanId) (s : State) : Addr × State :=
  let b1 := memRead8 .mem Config.bootSysbusAddr s
  let p2 := memRead32 .mem Config.bootScpAddr b1.2
  let scb := flat p2.1
  let b3 := memRead8 .mem scb p2.2
  let p4 := memRead32 .mem (scb + 2#20) b3.2
  (flat p4.1 + chanOffset c, p4.2)

/-- Steps 5 to 9 of the bootstrap: the control word and the busy flag are read and discarded, `pp`
and `tp` are loaded, and the channel runs (R292). -/
def bootLoad (ccb : Addr) (s : State) : State :=
  let b5 := memRead8 .mem ccb s
  let b6 := memRead8 .mem (ccb + 1#20) b5.2
  let p7 := memRead32 .mem (ccb + 2#20) b6.2
  let t7 := (p7.2.setReg .pp (flat p7.1)).setTag .pp .mem
  let p8 := memRead32 .mem (t7.reg .pp) t7
  ((p8.2.setReg .tp (flat p8.1)).setTag .tp .mem).setStatus .running

/-- `Bootstrap(ch)` (R292). It writes `pp`, `tp`, their tags and the status of the channel, and
nothing else (R291). -/
def bootstrap (c : ChanId) (s : State) : State :=
  let cb := bootControlBlock c { s with cur := c }
  bootLoad cb.1 cb.2

end Sys2Proof.Machine
end

