-- ==== Sys2Proof/Machine/Operands.lean ====
section
/-! DEFINITION. Operands: effective addresses (spec/40_pipeline.md R128 to R133), widths and
extensions (R135), immediates and displacements (R76, R77). -/

namespace Sys2Proof.Machine

/-- The bytes of a width (R135). -/
def widthSize : Width → Addr
  | .byte => 1#20
  | .word => 2#20

/-! ## Effective addresses -/

/-- The space of an addressed location: the tag of its base register (R128, R133). -/
def eaSpace (m : MemOp) (s : State) : Space := s.tag (baseName m.base)

/-- The address of an addressed location before masking (R129 to R132). -/
def eaRaw (m : MemOp) (s : State) : Addr :=
  match m.mode with
  | .base => s.reg (baseName m.base)
  | .offset off => s.reg (baseName m.base) + off.setWidth 20
  | .index => s.reg (baseName m.base) + s.reg .ix
  | .indexInc => s.reg (baseName m.base) + s.reg .ix

/-- The address of an addressed location (R133). -/
def eaAddr (m : MemOp) (s : State) : Addr := mask (eaSpace m s) (eaRaw m s)

/-- The state after the address is computed: `aa = 3` increments `ix` by the width that `w` gives
(R132, R300). -/
def eaState (m : MemOp) (w : Width) (s : State) : State :=
  match m.mode with
  | .base => s
  | .offset _ => s
  | .index => s
  | .indexInc => s.setReg .ix (s.reg .ix + widthSize w)

/-- A located operand: the space, the address and the state after its address is computed. -/
structure Located where
  sp : Space
  addr : Addr
  st : State
  deriving DecidableEq, Repr

/-- `EA(mm, aa, off, w)`: computed once, at the start of stage 5 (R128, R134). -/
def ea (m : MemOp) (w : Width) (s : State) : Located :=
  ⟨eaSpace m s, eaAddr m s, eaState m w s⟩

/-! ## Widths and extensions -/

/-- `sext_W(m)`: a memory operand on its way into a register (R135(b)). -/
def sextW (w : Width) (m : Half) : Addr :=
  match w with
  | .byte => (m.setWidth 8).signExtend 20
  | .word => m.signExtend 20

/-- The low bits of a register on its way to memory; a byte store takes the low 8 (R135(c)). -/
def lowHalf (v : Addr) : Half := v.setWidth 16

/-- The signed value of an immediate or displacement, to 20 bits (R76, R77, R135(e)). -/
def immValue : Imm → Addr
  | .byte b => b.signExtend 20
  | .word v => v.signExtend 20

/-- An immediate on its way to a memory operand; a byte operand takes the low 8 bits
(R91, R135(e)). -/
def immHalf : Imm → Half
  | .byte b => b.signExtend 16
  | .word v => v

end Sys2Proof.Machine
end

