-- ==== Sys2Proof/Machine/Alu.lean ====
section
/-! DEFINITION. Arithmetic and logic (spec/43_arithmetic_logic.md). No instruction here writes a tag
(R170(b)); registers are computed at their full width from the sign-extended operand (R170(c)),
memory at the operand's width through one address (R170(d)). -/

namespace Sys2Proof.Machine

/-! ## The three shapes -/

/-- `reg[R] <- f reg[R]`. -/
def updateReg (f : Addr → Addr) (r : RegName) (s : State) : State :=
  s.setReg r (f (s.reg r))

/-- `reg[R] <- f reg[R] (sext_W m)`: the operand is read before the register is written, and the
register is read after the `ix` post-increment (R134, R177). -/
def updateRegMem (f : Addr → Addr → Addr) (r : RegName) (m : MemOp) (w : Width) (s : State) :
    State :=
  let e := ea m w s
  let d := memRead w e.sp e.addr e.st
  d.2.setReg r (f (d.2.reg r) (sextW w d.1))

/-- `M <- g m`, one read and one write through one address (R170(d), R181). -/
def updateMem (g : Half → Half) (m : MemOp) (w : Width) (s : State) : State :=
  let e := ea m w s
  let d := memRead w e.sp e.addr e.st
  memWrite w e.sp e.addr (g d.1) d.2

/-- `M <- g m x` with `x` the low bits of a register, read after the `ix` post-increment
(R134, R184). -/
def updateMemReg (g : Half → Half → Half) (m : MemOp) (r : RegName) (w : Width) (s : State) :
    State :=
  let e := ea m w s
  let d := memRead w e.sp e.addr e.st
  memWrite w e.sp e.addr (g d.1 (lowHalf (e.st.reg r))) d.2

/-! ## Register destination, immediate or no operand -/

/-- `addi R,I` (R171). -/
def execAddiR (r : Reg) (i : Imm) (_w : Width) (s : State) : Result :=
  .next (updateReg (fun x => x + immValue i) (rrrName r) s)

/-- `ori R,I` (R172). -/
def execOriR (r : Reg) (i : Imm) (_w : Width) (s : State) : Result :=
  .next (updateReg (fun x => x ||| immValue i) (rrrName r) s)

/-- `andi R,I` (R173). -/
def execAndiR (r : Reg) (i : Imm) (_w : Width) (s : State) : Result :=
  .next (updateReg (fun x => x &&& immValue i) (rrrName r) s)

/-- `not R` (R174). -/
def execNotR (r : Reg) (s : State) : Result :=
  .next (updateReg (fun x => ~~~x) (rrrName r) s)

/-- `inc R` (R175). -/
def execIncR (r : Reg) (s : State) : Result :=
  .next (updateReg (fun x => x + 1#20) (rrrName r) s)

/-- `dec R` (R176). -/
def execDecR (r : Reg) (s : State) : Result :=
  .next (updateReg (fun x => x - 1#20) (rrrName r) s)

/-! ## Register destination, memory operand -/

/-- `add R,M` (R177). -/
def execAddRM (r : Reg) (m : MemOp) (w : Width) (s : State) : Result :=
  .next (updateRegMem (fun x y => x + y) (rrrName r) m w s)

/-- `or R,M` (R178). -/
def execOrRM (r : Reg) (m : MemOp) (w : Width) (s : State) : Result :=
  .next (updateRegMem (fun x y => x ||| y) (rrrName r) m w s)

/-- `and R,M` (R179). -/
def execAndRM (r : Reg) (m : MemOp) (w : Width) (s : State) : Result :=
  .next (updateRegMem (fun x y => x &&& y) (rrrName r) m w s)

/-- `not R,M` (R180): the complement of the operand; the register's old value takes no part. -/
def execNotRM (r : Reg) (m : MemOp) (w : Width) (s : State) : Result :=
  .next (updateRegMem (fun _ y => ~~~y) (rrrName r) m w s)

/-! ## Memory destination -/

/-- `addi M,I` (R181). -/
def execAddiM (m : MemOp) (i : Imm) (w : Width) (s : State) : Result :=
  .next (updateMem (fun x => x + immHalf i) m w s)

/-- `ori M,I` (R182). -/
def execOriM (m : MemOp) (i : Imm) (w : Width) (s : State) : Result :=
  .next (updateMem (fun x => x ||| immHalf i) m w s)

/-- `andi M,I` (R183). -/
def execAndiM (m : MemOp) (i : Imm) (w : Width) (s : State) : Result :=
  .next (updateMem (fun x => x &&& immHalf i) m w s)

/-- `add M,R` (R184). -/
def execAddMR (m : MemOp) (r : Reg) (w : Width) (s : State) : Result :=
  .next (updateMemReg (fun x y => x + y) m (rrrName r) w s)

/-- `or M,R` (R185). -/
def execOrMR (m : MemOp) (r : Reg) (w : Width) (s : State) : Result :=
  .next (updateMemReg (fun x y => x ||| y) m (rrrName r) w s)

/-- `and M,R` (R186). -/
def execAndMR (m : MemOp) (r : Reg) (w : Width) (s : State) : Result :=
  .next (updateMemReg (fun x y => x &&& y) m (rrrName r) w s)

/-- `not M` (R187). -/
def execNotM (m : MemOp) (w : Width) (s : State) : Result :=
  .next (updateMem (fun x => ~~~x) m w s)

/-- `inc M` (R188). -/
def execIncM (m : MemOp) (w : Width) (s : State) : Result :=
  .next (updateMem (fun x => x + 1#16) m w s)

/-- `dec M` (R189). -/
def execDecM (m : MemOp) (w : Width) (s : State) : Result :=
  .next (updateMem (fun x => x - 1#16) m w s)

end Sys2Proof.Machine
end

