-- ==== Sys2Proof/Machine/Flags.lean ====
section
/-! DEFINITION. Predicates. There are no condition codes (R25): a conditional jump tests a register,
a memory operand or a bit directly, and the DMA engine tests the fields of `cc`. -/

namespace Sys2Proof.Machine

/-! ## Tests of operands -/

/-- The masked compare of a byte against `mc`: equal in the bits that the high byte of `mc` enables
(R19, R211, R249). -/
def maskedEq (v : Byte) (mc : Half) : Bool :=
  ((v ^^^ mc.extractLsb' 0 8) &&& mc.extractLsb' 8 8) == 0#8

/-- Bit `b` of a byte (R95, R213). -/
def bitOf (v : Byte) (b : BitVec 3) : Bool := v.getLsbD b.toNat

/-- The byte with bit `b` alone (R200). -/
def bitMask (b : BitVec 3) : Byte := 1#8 <<< b.toNat

/-! ## The fields of `cc` (R18) -/

/-- `DINC`, bit 15. -/
def ccDinc (cc : Half) : Bool := cc.getLsbD 15

/-- `SINC`, bit 14. -/
def ccSinc (cc : Half) : Bool := cc.getLsbD 14

/-- `TR`, bit 13: translate mode. -/
def ccTr (cc : Half) : Bool := cc.getLsbD 13

/-- `SYN`, bits 12:11: no effect in this core (R253). -/
def ccSyn (cc : Half) : BitVec 2 := cc.extractLsb' 11 2

/-- `S`, bit 10: 0 for `ga` as the source (R232). -/
def ccS (cc : Half) : Bool := cc.getLsbD 10

/-- `L`, bit 9: no effect in this core (R253). -/
def ccL (cc : Half) : Bool := cc.getLsbD 9

/-- `C`, bit 8: no effect in this core (R253). -/
def ccC (cc : Half) : Bool := cc.getLsbD 8

/-- `TS`, bit 7: single-transfer mode. -/
def ccTs (cc : Half) : Bool := cc.getLsbD 7

/-- `TX`, bits 6:5: external termination. -/
def ccTx (cc : Half) : BitVec 2 := cc.extractLsb' 5 2

/-- `TBC`, bits 4:3: byte-count termination. -/
def ccTbc (cc : Half) : BitVec 2 := cc.extractLsb' 3 2

/-- `TMCN`, bit 2: the sense of the masked compare. -/
def ccTmcn (cc : Half) : Bool := cc.getLsbD 2

/-- `TMC`, bits 1:0: masked-compare termination. -/
def ccTmc (cc : Half) : BitVec 2 := cc.extractLsb' 0 2

/-- `skip(f)`: 0, 4 or 8 for a field value of 1, 2 or 3 (R235, R251). The value 0 disables the class
and is never asked for. -/
def skip (f : BitVec 2) : Addr :=
  match f.toNat with
  | 2 => 4#20
  | 3 => 8#20
  | _ => 0#20

end Sys2Proof.Machine
end

