-- ==== Sys2Proof/Machine/Bits.lean ====
section
/-! DEFINITION. Bit manipulation (spec/44_bit_manipulation.md). The operand is one byte. -/

namespace Sys2Proof.Machine

/-- One byte read, changed and written through one address (R200, R201). -/
def updateByte (g : Byte → Byte) (m : MemOp) (s : State) : State :=
  let e := ea m .byte s
  let d := memRead8 e.sp e.addr e.st
  memWrite8 e.sp e.addr (g d.1) d.2

/-- `setb M,b` (R200). -/
def execSetb (m : MemOp) (b : BitVec 3) (s : State) : Result :=
  .next (updateByte (fun x => x ||| bitMask b) m s)

/-- `clr M,b` (R201). -/
def execClr (m : MemOp) (b : BitVec 3) (s : State) : Result :=
  .next (updateByte (fun x => x &&& ~~~bitMask b) m s)

end Sys2Proof.Machine
end

