-- ==== Sys2Proof/Machine/Control.lean ====
section
/-! DEFINITION. Control transfer (spec/45_control_transfer.md). `tp` already holds the address of the
next instruction when a meaning runs (R205). -/

namespace Sys2Proof.Machine

/-- A jump (R205): `reg[tp] <- reg[tp] + disp` if taken; `tag[tp]` is not changed. -/
def jumpIf (taken : Bool) (disp : Addr) (s : State) : State :=
  if taken then s.setReg .tp (s.reg .tp + disp) else s

/-- A jump on a memory operand of width `w`: the operand is read whether or not it is taken
(R205). -/
def jumpOnMem (test : Half → Bool) (m : MemOp) (w : Width) (d : Imm) (s : State) : State :=
  let e := ea m w s
  let x := memRead w e.sp e.addr e.st
  jumpIf (test x.1) (immValue d) x.2

/-- A jump on a byte operand and `mc` (R205, R211 to R214). -/
def jumpOnByte (test : Byte → Half → Bool) (m : MemOp) (d : Imm) (s : State) : State :=
  let e := ea m .byte s
  let x := memRead8 e.sp e.addr e.st
  jumpIf (test x.1 x.2.me.mc) (immValue d) x.2

/-- `jmp d` (R206): `addbi tp,d`. -/
def execJmp (d : Byte) (s : State) : Result :=
  .next (jumpIf true (immValue (.byte d)) s)

/-- `ljmp d` (R206): `addi tp,d`. -/
def execLjmp (d : Half) (s : State) : Result :=
  .next (jumpIf true (immValue (.word d)) s)

/-- `jz R,d` (R207): all bits of the register are tested. -/
def execJzR (r : Reg) (d : Imm) (s : State) : Result :=
  .next (jumpIf (s.reg (rrrName r) == 0#20) (immValue d) s)

/-- `jnz R,d` (R208). -/
def execJnzR (r : Reg) (d : Imm) (s : State) : Result :=
  .next (jumpIf (s.reg (rrrName r) != 0#20) (immValue d) s)

/-- `jz M,d` (R209). -/
def execJzM (m : MemOp) (d : Imm) (w : Width) (s : State) : Result :=
  .next (jumpOnMem (fun x => x == 0#16) m w d s)

/-- `jnz M,d` (R210). -/
def execJnzM (m : MemOp) (d : Imm) (w : Width) (s : State) : Result :=
  .next (jumpOnMem (fun x => x != 0#16) m w d s)

/-- `jmce M,d` (R211). -/
def execJmce (m : MemOp) (d : Imm) (s : State) : Result :=
  .next (jumpOnByte (fun x mc => maskedEq x mc) m d s)

/-- `jmcne M,d` (R212). -/
def execJmcne (m : MemOp) (d : Imm) (s : State) : Result :=
  .next (jumpOnByte (fun x mc => !maskedEq x mc) m d s)

/-- `jbt M,b,d` (R213). -/
def execJbt (m : MemOp) (b : BitVec 3) (d : Imm) (s : State) : Result :=
  .next (jumpOnByte (fun x _ => bitOf x b) m d s)

/-- `jnbt M,b,d` (R214). -/
def execJnbt (m : MemOp) (b : BitVec 3) (d : Imm) (s : State) : Result :=
  .next (jumpOnByte (fun x _ => !bitOf x b) m d s)

/-- `call M,d` (R215): the return pointer is stored in the 3-byte form, then the jump is made. -/
def execCall (m : MemOp) (d : Imm) (s : State) : Result :=
  let e := ea m .word s
  let t := e.st.reg .tp
  .next (jumpIf true (immValue d) (storePointer e.sp e.addr t (e.st.tag .tp) e.st))

/-- `tsl M,I,d` (R217): decodes and validates, has no execution handler, raises `UnknownOpcode`;
no operand access and no `ix` change (R264). -/
def execTsl (_m : MemOp) (_i _d : Byte) (s : State) : Result :=
  .next (raise (.failed .unknownOpcode) s)

end Sys2Proof.Machine
end

