-- ==== Sys2Proof/Machine/Special.lean ====
section
/-! DEFINITION. The special group and halt (spec/41_special_group.md). -/

namespace Sys2Proof.Machine

/-- `nop` (R140): nothing beyond the fetch. -/
def execNop (s : State) : Result := .next s

/-- `sintr` (R141): one `SINTR(ch)` event to the host, a no-op where the host has no sink for it. -/
def execSintr (s : State) : Result :=
  .next (if s.env.params.sintrSink then s.emit (.sintr s.cur) else s)

/-- `xfer` (R142): arms the transfer; the engine runs after the next instruction (R120). -/
def execXfer (s : State) : Result := .next (s.setXp true)

/-- `wid S,D` (R143). -/
def execWid (src dst : Width) (s : State) : Result := .next (s.setWid src dst)

/-- `hlt` (R144): raises `NormalHalt`. -/
def execHlt (s : State) : Result := .next (raise .normalHalt s)

end Sys2Proof.Machine
end

