-- ==== Sys2Proof/WellFormed.lean ====
section
/-! DEFINITION. Which terms of `Instr` are the decoder's reading of some bytes. The operand types
already exclude every reserved register, mode and width code (R86, R87, R93 to R98); what is left
is that one word has one constructor. -/

namespace Sys2Proof

/-- `addbi tp,d` with an 8-bit immediate is spelled `jmp` and `addi tp,d` with a 16-bit one `ljmp`
(R102): those two words are the rows `jmp` and `ljmp` of the opcode table, so the `addi` spelling of
them is not well formed. The two other forms of `addi tp,I` (words 0x2089 and 0x2090) are `addi`.
DESIGN CHOICE: log entry 10. -/
def Instr.wf : Instr → Bool
  | .addiR .tp (.byte _) .byte => false
  | .addiR .tp (.word _) .word => false
  | _ => true

end Sys2Proof
end

