-- ==== Sys2Proof/Decode.lean ====
section
/-! DEFINITION. The instruction word, the descriptor table, the validator, the decoder and the
encoder (spec/30_encoding.md). The decoder reads one unit: a word with its trailing bytes (R73);
`mov M,M` is two units back to back. -/

namespace Sys2Proof

/-! ## The fields of an instruction word -/

/-- The six fields of an instruction word (R71). -/
structure Fields where
  opc : BitVec 6
  mm : BitVec 2
  rrr : BitVec 3
  wb : BitVec 2
  aa : BitVec 2
  w : BitVec 1
  deriving DecidableEq, Repr

/-- The field extractor (R70, R71). -/
def Fields.ofWord (x : Half) : Fields where
  opc := x.extractLsb' 10 6
  mm := x.extractLsb' 8 2
  rrr := x.extractLsb' 5 3
  wb := x.extractLsb' 3 2
  aa := x.extractLsb' 1 2
  w := x.extractLsb' 0 1

/-- The word that has the given fields (R71). -/
def Fields.toWord (f : Fields) : Half :=
  f.opc ++ f.mm ++ f.rrr ++ f.wb ++ f.aa ++ f.w

/-! ## Field value maps -/

/-- `rrr` as a register operand (R93). -/
def Reg.ofBits (b : BitVec 3) : Reg :=
  match b.toNat with
  | 0 => .ga
  | 1 => .gb
  | 2 => .gc
  | 3 => .bc
  | 4 => .tp
  | 5 => .ix
  | 6 => .cc
  | _ => .mc

/-- The code of a register operand (R93). -/
def Reg.bits : Reg → BitVec 3
  | .ga => 0#3
  | .gb => 1#3
  | .gc => 2#3
  | .bc => 3#3
  | .tp => 4#3
  | .ix => 5#3
  | .cc => 6#3
  | .mc => 7#3

/-- `rrr` as a pointer-register operand: 3, 5, 6 and 7 are reserved (R94). -/
def PReg.ofBits (b : BitVec 3) : Option PReg :=
  match b.toNat with
  | 0 => some .ga
  | 1 => some .gb
  | 2 => some .gc
  | 4 => some .tp
  | _ => none

/-- The code of a pointer-register operand (R94). -/
def PReg.bits : PReg → BitVec 3
  | .ga => 0#3
  | .gb => 1#3
  | .gc => 2#3
  | .tp => 4#3

/-- `mm`, the base-register selector (R96). -/
def Base.ofBits (b : BitVec 2) : Base :=
  match b.toNat with
  | 0 => .ga
  | 1 => .gb
  | 2 => .gc
  | _ => .pp

/-- The code of a base register (R96). -/
def Base.bits : Base → BitVec 2
  | .ga => 0#2
  | .gb => 1#2
  | .gc => 2#2
  | .pp => 3#2

/-- `aa` and the offset byte (R97, R75). -/
def AddrMode.ofBits (aa : BitVec 2) (off : Byte) : AddrMode :=
  match aa.toNat with
  | 0 => .base
  | 1 => .offset off
  | 2 => .index
  | _ => .indexInc

/-- The code of an addressing mode (R97). -/
def AddrMode.bits : AddrMode → BitVec 2
  | .base => 0#2
  | .offset _ => 1#2
  | .index => 2#2
  | .indexInc => 3#2

/-- The offset byte of an addressing mode; 0 where it has none (R123). -/
def AddrMode.offByte : AddrMode → Byte
  | .offset off => off
  | _ => 0#8

/-- `w`, and each half of the code of `wid` (R99, R82). -/
def Width.ofBit (b : BitVec 1) : Width :=
  if b = 0#1 then .byte else .word

/-- The code of a width (R99). -/
def Width.bit : Width → BitVec 1
  | .byte => 0#1
  | .word => 1#1

/-! ## Trailing bytes -/

/-- What follows the word and the offset byte (R74, R78, R79, R123). -/
inductive Trail where
  | none
  /-- One immediate or displacement byte (`wb = 1`). -/
  | byte (b : Byte)
  /-- A 16-bit immediate or displacement (`wb = 2`). -/
  | word (v : Half)
  /-- The two halves of the pointer immediate (`wb = 2`, `opc = 0x02`). -/
  | pointer (off seg : Half)
  /-- An immediate byte and a displacement byte (`wb = 3`). -/
  | pair (b0 b1 : Byte)
  deriving DecidableEq, Repr

/-- Which trailing bytes a word calls for. -/
inductive TrailKind where
  | none | byte | word | pointer | pair
  deriving DecidableEq, Repr

/-- The trailing bytes a word calls for; they depend on the field values alone (R74). -/
def Fields.trailKind (f : Fields) : TrailKind :=
  match f.wb.toNat with
  | 0 => .none
  | 1 => .byte
  | 2 => if f.opc = 0x02#6 then .pointer else .word
  | _ => .pair

/-- The trailing bytes in number (R74). -/
def TrailKind.size : TrailKind → Nat
  | .none => 0
  | .byte => 1
  | .word => 2
  | .pointer => 4
  | .pair => 2

/-- The length of a unit, told from its word alone (R74). -/
def Fields.length (f : Fields) : Nat :=
  2 + (if f.aa = 1#2 then 1 else 0) + f.trailKind.size

/-- One fetched unit: the word, the offset byte (0 if there is none) and the trailing bytes
(R121 stages 1 to 3, R123). -/
structure RawUnit where
  word : Half
  off : Byte
  trail : Trail
  deriving DecidableEq, Repr

/-! ## The descriptor table -/

/-- A descriptor: the operand-shape flags and the constant of each field that no flag covers
(R80). A field that a flag covers has no constant. Without the flag `aa`, `mm` must be 0 (R85). -/
structure Descriptor where
  special : Bool := false
  ppp : Bool := false
  rrr : Bool := false
  bbb : Bool := false
  wb : Bool := false
  disp : Bool := false
  aa : Bool := false
  w : Bool := false
  rrrConst : Option (BitVec 3) := none
  wbConst : Option (BitVec 2) := none
  aaConst : Option (BitVec 2) := none
  wConst : Option (BitVec 1) := none
  deriving DecidableEq, Repr

/-- Flags `RRR WB W` (R81). -/
def Descriptor.regImm : Descriptor :=
  { rrr := true, wb := true, w := true, aaConst := some 0#2 }

/-- Flag `RRR` alone (R81). -/
def Descriptor.regOnly : Descriptor :=
  { rrr := true, wbConst := some 0#2, aaConst := some 0#2, wConst := some 0#1 }

/-- Flags `RRR DISP` (R81). -/
def Descriptor.regDisp : Descriptor :=
  { rrr := true, disp := true, aaConst := some 0#2, wConst := some 0#1 }

/-- Flags `WB AA W` (R81). -/
def Descriptor.memImm : Descriptor :=
  { wb := true, aa := true, w := true, rrrConst := some 0#3 }

/-- Flags `RRR AA W` (R81). -/
def Descriptor.regMem : Descriptor :=
  { rrr := true, aa := true, w := true, wbConst := some 0#2 }

/-- Flags `PPP AA` (R81). -/
def Descriptor.ptrMem : Descriptor :=
  { ppp := true, aa := true, wbConst := some 0#2, wConst := some 1#1 }

/-- Flags `AA W` (R81). -/
def Descriptor.memOnly : Descriptor :=
  { aa := true, w := true, rrrConst := some 0#3, wbConst := some 0#2 }

/-- Flags `DISP AA` with `rrr = 0`, `w = 0` (R81). -/
def Descriptor.memDisp : Descriptor :=
  { disp := true, aa := true, rrrConst := some 0#3, wConst := some 0#1 }

/-- Flags `BBB DISP AA` (R81). -/
def Descriptor.bitDisp : Descriptor :=
  { bbb := true, disp := true, aa := true, wConst := some 0#1 }

/-- Flags `DISP AA W` (R81). -/
def Descriptor.memDispW : Descriptor :=
  { disp := true, aa := true, w := true, rrrConst := some 0#3 }

/-- Flags `BBB AA` (R81). -/
def Descriptor.bitMem : Descriptor :=
  { bbb := true, aa := true, wbConst := some 0#2, wConst := some 0#1 }

/-- The descriptor table: `none` is the invalid descriptor (R81, R83). -/
def descriptor (opc : BitVec 6) : Option Descriptor :=
  match opc.toNat with
  | 0x00 => some { special := true, wbConst := some 0#2, aaConst := some 0#2, wConst := some 0#1 }
  | 0x02 => some { ppp := true, wbConst := some 2#2, aaConst := some 0#2, wConst := some 1#1 }
  | 0x08 => some .regImm
  | 0x09 => some .regImm
  | 0x0A => some .regImm
  | 0x0B => some .regOnly
  | 0x0C => some .regImm
  | 0x0E => some .regOnly
  | 0x0F => some .regOnly
  | 0x10 => some .regDisp
  | 0x11 => some .regDisp
  | 0x12 => some { rrrConst := some 1#3, wbConst := some 0#2, aaConst := some 0#2, wConst := some 0#1 }
  | 0x13 => some .memImm
  | 0x20 => some .regMem
  | 0x21 => some .regMem
  | 0x22 => some .ptrMem
  | 0x23 => some .ptrMem
  | 0x24 => some .memOnly
  | 0x25 => some { aa := true, rrrConst := some 0#3, wbConst := some 3#2, wConst := some 0#1 }
  | 0x26 => some .ptrMem
  | 0x27 => some { disp := true, aa := true, rrrConst := some 4#3, wConst := some 1#1 }
  | 0x28 => some .regMem
  | 0x29 => some .regMem
  | 0x2A => some .regMem
  | 0x2B => some .regMem
  | 0x2C => some .memDisp
  | 0x2D => some .memDisp
  | 0x2E => some .bitDisp
  | 0x2F => some .bitDisp
  | 0x30 => some .memImm
  | 0x31 => some .memImm
  | 0x32 => some .memImm
  | 0x33 => some .memOnly
  | 0x34 => some .regMem
  | 0x35 => some .regMem
  | 0x36 => some .regMem
  | 0x37 => some .memOnly
  | 0x38 => some .memDispW
  | 0x39 => some .memDispW
  | 0x3A => some .memOnly
  | 0x3B => some .memOnly
  | 0x3D => some .bitMem
  | 0x3E => some .bitMem
  | _ => none

/-! ## The validator -/

/-- A constant that is required and not met. -/
def misses {n : Nat} (c : Option (BitVec n)) (x : BitVec n) : Bool :=
  match c with
  | some k => x != k
  | none => false

/-- V5: a field that no flag covers differs from its constant, or the special group's `rrr` is 1
(R88, R82). -/
def Descriptor.reservedMismatch (d : Descriptor) (f : Fields) : Bool :=
  misses d.rrrConst f.rrr || misses d.wbConst f.wb || misses d.aaConst f.aa ||
    misses d.wConst f.w || (d.special && f.rrr == 1#3)

/-- V2 to V5 in the order of R89 (R85 to R88). -/
def Descriptor.firstViolation (d : Descriptor) (f : Fields) : Option Reason :=
  if !d.aa && f.mm != 0#2 then some .selectorWithoutMode
  else if d.ppp && (PReg.ofBits f.rrr).isNone then some .illegalRegister
  else if (d.wb || d.disp) && (f.wb == 0#2 || f.wb == 3#2) then some .illegalWidth
  else if d.reservedMismatch f then some .reservedBits
  else none

/-- The validator: `none` when the word is legal, else the first reason in the order of R89 (R84 to
R90). `obl` says whether a store obligation is active (R124). -/
def validate (obl : Bool) (f : Fields) : Option Reason :=
  if obl && f.opc != 0x33#6 then some .storeHalfMissing
  else if !obl && f.opc == 0x33#6 then some .storeHalfAtTop
  else
    match descriptor f.opc with
    | none => some .unknownOpcode
    | some d => d.firstViolation f

/-- A word whose opcode has no execution rule: an unassigned opcode, `tsl`, or a store half at top
level (R137, U1 of 93_implementation_defined.md). -/
def noHandler (obl : Bool) (f : Fields) : Bool :=
  (descriptor f.opc).isNone || f.opc == 0x25#6 || (!obl && f.opc == 0x33#6)

/-! ## Building the instruction of a legal word -/

/-- The addressed location of a unit (R96, R97). -/
def RawUnit.memOp (u : RawUnit) (f : Fields) : MemOp :=
  ⟨Base.ofBits f.mm, AddrMode.ofBits f.aa u.off⟩

/-- The immediate or displacement of a unit (R76, R77). After V4 (R87) it has one. -/
def RawUnit.withImm (u : RawUnit) (k : Imm → Instr) : Except Reason Instr :=
  match u.trail with
  | .byte b => .ok (k (.byte b))
  | .word v => .ok (k (.word v))
  | _ => .error .illegalWidth

/-- The pointer register of a unit (R94). After V3 (R86) it has one. -/
def Fields.withPReg (f : Fields) (k : PReg → Except Reason Instr) : Except Reason Instr :=
  match PReg.ofBits f.rrr with
  | some p => k p
  | none => .error .illegalRegister

/-- `addi R,I`, with the two words that the table spells `jmp` and `ljmp` (R102). -/
def mkAddiR (r : Reg) (i : Imm) (w : Width) : Instr :=
  match r, i, w with
  | .tp, .byte d, .byte => .jmp d
  | .tp, .word d, .word => .ljmp d
  | r, i, w => .addiR r i w

/-- The special group (R82). -/
def buildSpecial (rrr : BitVec 3) : Except Reason Instr :=
  match rrr.toNat with
  | 0 => .ok .nop
  | 1 => .error .reservedBits
  | 2 => .ok .sintr
  | 3 => .ok .xfer
  | _ => .ok (.wid (Width.ofBit (rrr.extractLsb' 1 1)) (Width.ofBit (rrr.extractLsb' 0 1)))

/-- The instruction of a word that has passed validation (R72, R81, R82). -/
def build (f : Fields) (u : RawUnit) : Except Reason Instr :=
  let r := Reg.ofBits f.rrr
  let m := u.memOp f
  let w := Width.ofBit f.w
  match f.opc.toNat with
  | 0x00 => buildSpecial f.rrr
  | 0x02 => f.withPReg fun p =>
      match u.trail with
      | .pointer off seg => .ok (.lpdi p off seg)
      | _ => .error .reservedBits
  | 0x08 => u.withImm fun i => mkAddiR r i w
  | 0x09 => u.withImm fun i => .oriR r i w
  | 0x0A => u.withImm fun i => .andiR r i w
  | 0x0B => .ok (.notR r)
  | 0x0C => u.withImm fun i => .moviR r i w
  | 0x0E => .ok (.incR r)
  | 0x0F => .ok (.decR r)
  | 0x10 => u.withImm fun d => .jnzR r d
  | 0x11 => u.withImm fun d => .jzR r d
  | 0x12 => .ok .hlt
  | 0x13 => u.withImm fun i => .moviM m i w
  | 0x20 => .ok (.movRM r m w)
  | 0x21 => .ok (.movMR m r w)
  | 0x22 => f.withPReg fun p => .ok (.lpd p m)
  | 0x23 => f.withPReg fun p => .ok (.movpPM p m)
  | 0x24 => .ok (.movMMLoad m w)
  | 0x25 =>
      match u.trail with
      | .pair i d => .ok (.tsl m i d)
      | _ => .error .reservedBits
  | 0x26 => f.withPReg fun p => .ok (.movpMP m p)
  | 0x27 => u.withImm fun d => .call m d
  | 0x28 => .ok (.addRM r m w)
  | 0x29 => .ok (.orRM r m w)
  | 0x2A => .ok (.andRM r m w)
  | 0x2B => .ok (.notRM r m w)
  | 0x2C => u.withImm fun d => .jmce m d
  | 0x2D => u.withImm fun d => .jmcne m d
  | 0x2E => u.withImm fun d => .jnbt m f.rrr d
  | 0x2F => u.withImm fun d => .jbt m f.rrr d
  | 0x30 => u.withImm fun i => .addiM m i w
  | 0x31 => u.withImm fun i => .oriM m i w
  | 0x32 => u.withImm fun i => .andiM m i w
  | 0x33 => .ok (.movMMStore m w)
  | 0x34 => .ok (.addMR m r w)
  | 0x35 => .ok (.orMR m r w)
  | 0x36 => .ok (.andMR m r w)
  | 0x37 => .ok (.notM m w)
  | 0x38 => u.withImm fun d => .jnzM m d w
  | 0x39 => u.withImm fun d => .jzM m d w
  | 0x3A => .ok (.incM m w)
  | 0x3B => .ok (.decM m w)
  | 0x3D => .ok (.setb m f.rrr)
  | 0x3E => .ok (.clr m f.rrr)
  | _ => .error .unknownOpcode

/-- Validate a fetched unit and read its instruction, or say why it is rejected (R92, R121 stage 4).
`obl` says whether a store obligation is active. -/
def decodeUnit (obl : Bool) (u : RawUnit) : Except Reason Instr :=
  let f := Fields.ofWord u.word
  match validate obl f with
  | some r => .error r
  | none => build f u

/-! ## The decoder over bytes -/

/-- Why some bytes are not an instruction: they end too early, or the validator rejects the word. -/
inductive DecodeError where
  | truncated
  | invalid (r : Reason)
  deriving DecidableEq, Repr

/-- The offset byte at the head of some bytes, where the word calls for one (R73). -/
def Fields.takeOff (f : Fields) (bs : List Byte) : Option (Byte × List Byte) :=
  if f.aa = 1#2 then
    match bs with
    | b :: rest => some (b, rest)
    | [] => none
  else some (0#8, bs)

/-- The trailing bytes at the head of some bytes, low byte first (R76 to R79). -/
def TrailKind.take (k : TrailKind) (bs : List Byte) : Option (Trail × List Byte) :=
  match k, bs with
  | .none, rest => some (.none, rest)
  | .byte, b :: rest => some (.byte b, rest)
  | .word, lo :: hi :: rest => some (.word (hi ++ lo), rest)
  | .pointer, b0 :: b1 :: b2 :: b3 :: rest => some (.pointer (b1 ++ b0) (b3 ++ b2), rest)
  | .pair, b0 :: b1 :: rest => some (.pair b0 b1, rest)
  | _, _ => Option.none

/-- The first unit of some bytes and what is left (R70, R73). -/
def parseUnit (bs : List Byte) : Option (RawUnit × List Byte) :=
  match bs with
  | lo :: hi :: rest =>
    let word : Half := hi ++ lo
    let f := Fields.ofWord word
    match f.takeOff rest with
    | some (off, rest) =>
      match f.trailKind.take rest with
      | some (trail, rest) => some (⟨word, off, trail⟩, rest)
      | none => none
    | none => none
  | _ => none

/-- The decoder: total on any bytes. -/
def decode (obl : Bool) (bs : List Byte) : Except DecodeError (Instr × List Byte) :=
  match parseUnit bs with
  | none => .error .truncated
  | some (u, rest) =>
    match decodeUnit obl u with
    | .ok i => .ok (i, rest)
    | .error r => .error (.invalid r)

/-! ## The encoder -/

/-- The first byte in memory of a 16-bit value (R44, R70). -/
def loByte (v : Half) : Byte := v.extractLsb' 0 8

/-- The second byte in memory of a 16-bit value (R44, R70). -/
def hiByte (v : Half) : Byte := v.extractLsb' 8 8

/-- `wb` for an immediate or displacement (R98). -/
def Imm.wb : Imm → BitVec 2
  | .byte _ => 1#2
  | .word _ => 2#2

/-- The trailing bytes of an immediate or displacement (R76, R77). -/
def Imm.trail : Imm → Trail
  | .byte b => .byte b
  | .word v => .word v

/-- The fields of a word with flags `RRR WB W` or `RRR DISP` or `RRR` (R81). -/
def encReg (opc : BitVec 6) (r : BitVec 3) (wb : BitVec 2) (w : BitVec 1) : Fields :=
  ⟨opc, 0#2, r, wb, 0#2, w⟩

/-- The fields of a word with an addressed location (R81). -/
def encMem (opc : BitVec 6) (m : MemOp) (r : BitVec 3) (wb : BitVec 2) (w : BitVec 1) : Fields :=
  ⟨opc, m.base.bits, r, wb, m.mode.bits, w⟩

/-- The fields of an instruction's word: the pattern column of R81 and the words of R82, R102. -/
def encodeFields : Instr → Fields
  | .nop => encReg 0x00#6 0#3 0#2 0#1
  | .sintr => encReg 0x00#6 2#3 0#2 0#1
  | .xfer => encReg 0x00#6 3#3 0#2 0#1
  | .wid s d => encReg 0x00#6 (1#1 ++ s.bit ++ d.bit) 0#2 0#1
  | .lpdi p _ _ => encReg 0x02#6 p.bits 2#2 1#1
  | .addiR r i w => encReg 0x08#6 r.bits i.wb w.bit
  | .jmp _ => encReg 0x08#6 4#3 1#2 0#1
  | .ljmp _ => encReg 0x08#6 4#3 2#2 1#1
  | .oriR r i w => encReg 0x09#6 r.bits i.wb w.bit
  | .andiR r i w => encReg 0x0A#6 r.bits i.wb w.bit
  | .notR r => encReg 0x0B#6 r.bits 0#2 0#1
  | .moviR r i w => encReg 0x0C#6 r.bits i.wb w.bit
  | .incR r => encReg 0x0E#6 r.bits 0#2 0#1
  | .decR r => encReg 0x0F#6 r.bits 0#2 0#1
  | .jnzR r d => encReg 0x10#6 r.bits d.wb 0#1
  | .jzR r d => encReg 0x11#6 r.bits d.wb 0#1
  | .hlt => encReg 0x12#6 1#3 0#2 0#1
  | .moviM m i w => encMem 0x13#6 m 0#3 i.wb w.bit
  | .movRM r m w => encMem 0x20#6 m r.bits 0#2 w.bit
  | .movMR m r w => encMem 0x21#6 m r.bits 0#2 w.bit
  | .lpd p m => encMem 0x22#6 m p.bits 0#2 1#1
  | .movpPM p m => encMem 0x23#6 m p.bits 0#2 1#1
  | .movMMLoad m w => encMem 0x24#6 m 0#3 0#2 w.bit
  | .tsl m _ _ => encMem 0x25#6 m 0#3 3#2 0#1
  | .movpMP m p => encMem 0x26#6 m p.bits 0#2 1#1
  | .call m d => encMem 0x27#6 m 4#3 d.wb 1#1
  | .addRM r m w => encMem 0x28#6 m r.bits 0#2 w.bit
  | .orRM r m w => encMem 0x29#6 m r.bits 0#2 w.bit
  | .andRM r m w => encMem 0x2A#6 m r.bits 0#2 w.bit
  | .notRM r m w => encMem 0x2B#6 m r.bits 0#2 w.bit
  | .jmce m d => encMem 0x2C#6 m 0#3 d.wb 0#1
  | .jmcne m d => encMem 0x2D#6 m 0#3 d.wb 0#1
  | .jnbt m b d => encMem 0x2E#6 m b d.wb 0#1
  | .jbt m b d => encMem 0x2F#6 m b d.wb 0#1
  | .addiM m i w => encMem 0x30#6 m 0#3 i.wb w.bit
  | .oriM m i w => encMem 0x31#6 m 0#3 i.wb w.bit
  | .andiM m i w => encMem 0x32#6 m 0#3 i.wb w.bit
  | .movMMStore m w => encMem 0x33#6 m 0#3 0#2 w.bit
  | .addMR m r w => encMem 0x34#6 m r.bits 0#2 w.bit
  | .orMR m r w => encMem 0x35#6 m r.bits 0#2 w.bit
  | .andMR m r w => encMem 0x36#6 m r.bits 0#2 w.bit
  | .notM m w => encMem 0x37#6 m 0#3 0#2 w.bit
  | .jnzM m d w => encMem 0x38#6 m 0#3 d.wb w.bit
  | .jzM m d w => encMem 0x39#6 m 0#3 d.wb w.bit
  | .incM m w => encMem 0x3A#6 m 0#3 0#2 w.bit
  | .decM m w => encMem 0x3B#6 m 0#3 0#2 w.bit
  | .setb m b => encMem 0x3D#6 m b 0#2 0#1
  | .clr m b => encMem 0x3E#6 m b 0#2 0#1

/-- The addressed location of an instruction, where it has one. -/
def Instr.memOp? : Instr → Option MemOp
  | .moviM m _ _ | .movRM _ m _ | .movMR m _ _ | .lpd _ m | .movpPM _ m | .movMMLoad m _
  | .tsl m _ _ | .movpMP m _ | .call m _ | .addRM _ m _ | .orRM _ m _ | .andRM _ m _
  | .notRM _ m _ | .jmce m _ | .jmcne m _ | .jnbt m _ _ | .jbt m _ _ | .addiM m _ _ | .oriM m _ _
  | .andiM m _ _ | .movMMStore m _ | .addMR m _ _ | .orMR m _ _ | .andMR m _ _ | .notM m _
  | .jnzM m _ _ | .jzM m _ _ | .incM m _ | .decM m _ | .setb m _ | .clr m _ => some m
  | .nop | .sintr | .xfer | .wid _ _ | .lpdi _ _ _ | .addiR _ _ _ | .jmp _ | .ljmp _
  | .oriR _ _ _ | .andiR _ _ _ | .notR _ | .moviR _ _ _ | .incR _ | .decR _ | .jnzR _ _
  | .jzR _ _ | .hlt => none

/-- The trailing bytes of an instruction (the column "trailing bytes" of R81). -/
def encodeTrail : Instr → Trail
  | .lpdi _ off seg => .pointer off seg
  | .jmp d => .byte d
  | .ljmp d => .word d
  | .tsl _ i d => .pair i d
  | .addiR _ i _ | .oriR _ i _ | .andiR _ i _ | .moviR _ i _ | .moviM _ i _ | .addiM _ i _
  | .oriM _ i _ | .andiM _ i _ => i.trail
  | .jnzR _ d | .jzR _ d | .call _ d | .jmce _ d | .jmcne _ d | .jnbt _ _ d | .jbt _ _ d
  | .jnzM _ d _ | .jzM _ d _ => d.trail
  | .nop | .sintr | .xfer | .wid _ _ | .notR _ | .incR _ | .decR _ | .hlt | .movRM _ _ _
  | .movMR _ _ _ | .lpd _ _ | .movpPM _ _ | .movMMLoad _ _ | .movpMP _ _ | .addRM _ _ _
  | .orRM _ _ _ | .andRM _ _ _ | .notRM _ _ _ | .movMMStore _ _ | .addMR _ _ _ | .orMR _ _ _
  | .andMR _ _ _ | .notM _ _ | .incM _ _ | .decM _ _ | .setb _ _ | .clr _ _ => .none

/-- The unit of an instruction. -/
def encodeUnit (i : Instr) : RawUnit where
  word := (encodeFields i).toWord
  off := match i.memOp? with
    | some m => m.mode.offByte
    | none => 0#8
  trail := encodeTrail i

/-- The trailing bytes in memory order (R76 to R79). -/
def Trail.bytes : Trail → List Byte
  | .none => []
  | .byte b => [b]
  | .word v => [loByte v, hiByte v]
  | .pointer off seg => [loByte off, hiByte off, loByte seg, hiByte seg]
  | .pair b0 b1 => [b0, b1]

/-- A unit in memory order (R73). -/
def RawUnit.bytes (u : RawUnit) : List Byte :=
  loByte u.word :: hiByte u.word ::
    ((if (Fields.ofWord u.word).aa = 1#2 then [u.off] else []) ++ u.trail.bytes)

/-- The bytes of an instruction, lowest address first. -/
def encode (i : Instr) : List Byte := (encodeUnit i).bytes

/-! ## The opcode table's words -/

/-- Byte `k` of an instruction whose `nbits` low bits are `w`, the bits above them 0. -/
def tableByte (nbits w k : Nat) : Byte :=
  BitVec.ofNat 8 ((w % 2 ^ nbits) / 2 ^ (8 * k))

/-- The bytes of an instruction whose bits are `w`, up to the longest instruction. -/
def tableBytes (nbits w : Nat) : List Byte :=
  [tableByte nbits w 0, tableByte nbits w 1, tableByte nbits w 2, tableByte nbits w 3,
    tableByte nbits w 4, tableByte nbits w 5]

/-- Whether a table word is a store half, which is legal only as the second unit of `mov M,M`
(R90). -/
def isStoreHalf (nbits w : Nat) : Bool :=
  (tableByte nbits w 1).extractLsb' 2 6 == 0x33#6

/-- The instruction the decoder reads from an instruction whose bits are `w`. A store half is read
where it is legal, with a store obligation active (R90). -/
def decodeTableWord (nbits w : Nat) : Option Instr :=
  match decode (isStoreHalf nbits w) (tableBytes nbits w) with
  | .ok (i, _) => some i
  | .error _ => none

end Sys2Proof
end

