-- ==== Sys2Proof/Machine/Fetch.lean ====
section
/-! DEFINITION. Fetching a unit's bytes (spec/40_pipeline.md R121 to R123), and what becomes of a
word the validator rejects (R124, R125). -/

namespace Sys2Proof.Machine

/-- `Fetch(1)` (R122): from memory space whatever `tag[tp]` is. -/
def fetch8 (s : State) : Byte × State :=
  let r := memRead8 .mem (s.reg .tp) s
  (r.1, r.2.setReg .tp (s.reg .tp + 1#20))

/-- `Fetch(2)` (R122). -/
def fetch16 (s : State) : Half × State :=
  let r := memRead16 .mem (s.reg .tp) s
  (r.1, r.2.setReg .tp (s.reg .tp + 2#20))

/-- Stage 2: the offset byte iff `aa = 1` (R121, R123). -/
def fetchOff (f : Fields) (s : State) : Byte × State :=
  if f.aa = 1#2 then fetch8 s else (0#8, s)

/-- Stage 3: the trailing bytes that `wb` calls for (R121, R123). -/
def fetchTrail (k : TrailKind) (s : State) : Trail × State :=
  match k with
  | .none => (.none, s)
  | .byte =>
    let b := fetch8 s
    (.byte b.1, b.2)
  | .word =>
    let v := fetch16 s
    (.word v.1, v.2)
  | .pointer =>
    let lo := fetch16 s
    let hi := fetch16 lo.2
    (.pointer lo.1 hi.1, hi.2)
  | .pair =>
    let b0 := fetch8 s
    let b1 := fetch8 b0.2
    (.pair b0.1 b1.1, b1.2)

/-- Stages 1 to 3 of `ExecOne`: fetch one unit. It depends on the field values alone, comes before
validation and is not undone (R121, R123, R127). -/
def fetchUnit (s : State) : RawUnit × State :=
  let word := fetch16 s
  let f := Fields.ofWord word.1
  let off := fetchOff f word.2
  let trail := fetchTrail f.trailKind off.2
  (⟨word.1, off.1, trail.1⟩, trail.2)

/-- What becomes of a fetched unit that the validator has a reason against, where stage 4 or stage 5
is run. The hardware raises `InvalidEncoding` in stage 4 (R124, R127). With validation switched off
the word reaches stage 5, where an opcode with no execution rule raises `UnknownOpcode` and any other
word is refused (R125, R137, U1 of 93_implementation_defined.md, whose treatment is `refuse`; log
entry 11). `obl` says whether a store obligation was active. -/
def rejectWord (obl : Bool) (r : Reason) (u : RawUnit) (s : State) : Result :=
  if s.env.params.validate then .next (raise (.failed (.invalidEncoding r)) s)
  else if noHandler obl (Fields.ofWord u.word) then .next (raise (.failed .unknownOpcode) s)
  else .refused (.unvalidatedWord r)

end Sys2Proof.Machine
end

