-- ==== Sys2Proof/Machine/Transfer.lean ====
section
/-! DEFINITION. The data transfer instructions (spec/42_data_transfer.md). -/

namespace Sys2Proof.Machine

/-- A register load: the value, then the tag (R134, R136). -/
def loadReg (r : RegName) (v : Addr) (sp : Space) (s : State) : State :=
  (s.setReg r v).setTag r sp

/-- `mov R,M` (R150): the operand is sign-extended, the tag is the space it was read from. -/
def execMovRM (r : Reg) (m : MemOp) (w : Width) (s : State) : Result :=
  let e := ea m w s
  let d := memRead w e.sp e.addr e.st
  .next (loadReg (rrrName r) (sextW w d.1) e.sp d.2)

/-- `mov M,R` (R151): the register is read after the address is computed (R134). -/
def execMovMR (m : MemOp) (r : Reg) (w : Width) (s : State) : Result :=
  let e := ea m w s
  .next (memWrite w e.sp e.addr (lowHalf (e.st.reg (rrrName r))) e.st)

/-- `movi R,I` (R152): the tag is `MEM`, where the immediate was fetched from; `w` has no effect. -/
def execMoviR (r : Reg) (i : Imm) (_w : Width) (s : State) : Result :=
  .next (loadReg (rrrName r) (immValue i) .mem s)

/-- `movi M,I` (R153). -/
def execMoviM (m : MemOp) (i : Imm) (w : Width) (s : State) : Result :=
  let e := ea m w s
  .next (memWrite w e.sp e.addr (immHalf i) e.st)

/-- The store of a carried value, zero-extended or cut to the store half's width; it meets the
obligation (R155). -/
def storeCarried (m : MemOp) (w : Width) (v : Half) (s : State) : State :=
  let e := ea m w { s with obligation := none }
  memWrite w e.sp e.addr v e.st

/-- `mov M,M`, store half (R155): legal only under a store obligation (R90). -/
def execMovMMStore (m : MemOp) (w : Width) (s : State) : Result :=
  match s.obligation with
  | some v => .next (storeCarried m w v s)
  | none => .next (raise (.failed (.invalidEncoding .storeHalfAtTop)) s)

/-- The second unit of `mov M,M`, already fetched, with its obligation in the state (R154, R155).
With execution switched off it cannot be reached. -/
def runStoreHalf (u : RawUnit) (s : State) : Result :=
  match decodeUnit true u with
  | .ok (.movMMStore m w) =>
    match s.obligation with
    | some v => .next (storeCarried m w v s)
    | none => .next (raise (.failed (.invalidEncoding .storeHalfAtTop)) s)
  | .ok _ => rejectWord true .storeHalfMissing u s
  | .error r => rejectWord true r u s

/-- `mov M,M`, load half (R154): read the source, put the obligation up with the value read, and
fetch, validate and execute the next unit. The pair is one instruction and one step. -/
def execMovMMLoad (m : MemOp) (w : Width) (s : State) : Result :=
  let e := ea m w s
  let d := memRead w e.sp e.addr e.st
  let u := fetchUnit { d.2 with obligation := some d.1 }
  runStoreHalf u.1 u.2

/-- `lpd P,M` (R156): a 4-byte segmented pointer; the tag is the space it was read from. -/
def execLpd (p : PReg) (m : MemOp) (s : State) : Result :=
  let e := ea m .word s
  let v := memRead32 e.sp e.addr e.st
  .next (loadReg (pppName p) (flat v.1) e.sp v.2)

/-- `lpdi P,I` (R157): the pointer immediate; the tag is `MEM`. -/
def execLpdi (p : PReg) (off seg : Half) (s : State) : Result :=
  .next (loadReg (pppName p) (flat (seg ++ off)) .mem s)

/-- `movp P,M` (R158): a 3-byte stored pointer; the tag is the stored one. -/
def execMovpPM (p : PReg) (m : MemOp) (s : State) : Result :=
  let e := ea m .word s
  let v := loadPointer e.sp e.addr e.st
  .next (loadReg (pppName p) v.1.1 v.1.2 v.2)

/-- `movp M,P` (R159). -/
def execMovpMP (m : MemOp) (p : PReg) (s : State) : Result :=
  let e := ea m .word s
  .next (storePointer e.sp e.addr (e.st.reg (pppName p)) (e.st.tag (pppName p)) e.st)

end Sys2Proof.Machine
end

