-- ==== Sys2Proof/Machine/Dispatch.lean ====
section
/-! DEFINITION. Stage 5 (R121, R137): one arm per instruction. -/

namespace Sys2Proof.Machine

/-- Execute an instruction whose bytes have been fetched (R137). -/
def exec (i : Instr) (s : State) : Host.Outcome State Fault Refusal :=
  match i with
  | .nop => Sys2Proof.Machine.execNop s
  | .sintr => Sys2Proof.Machine.execSintr s
  | .xfer => Sys2Proof.Machine.execXfer s
  | .wid src dst => Sys2Proof.Machine.execWid src dst s
  | .lpdi p off seg => Sys2Proof.Machine.execLpdi p off seg s
  | .addiR r imm w => Sys2Proof.Machine.execAddiR r imm w s
  | .jmp d => Sys2Proof.Machine.execJmp d s
  | .ljmp d => Sys2Proof.Machine.execLjmp d s
  | .oriR r imm w => Sys2Proof.Machine.execOriR r imm w s
  | .andiR r imm w => Sys2Proof.Machine.execAndiR r imm w s
  | .notR r => Sys2Proof.Machine.execNotR r s
  | .moviR r imm w => Sys2Proof.Machine.execMoviR r imm w s
  | .incR r => Sys2Proof.Machine.execIncR r s
  | .decR r => Sys2Proof.Machine.execDecR r s
  | .jnzR r d => Sys2Proof.Machine.execJnzR r d s
  | .jzR r d => Sys2Proof.Machine.execJzR r d s
  | .hlt => Sys2Proof.Machine.execHlt s
  | .moviM m imm w => Sys2Proof.Machine.execMoviM m imm w s
  | .movRM r m w => Sys2Proof.Machine.execMovRM r m w s
  | .movMR m r w => Sys2Proof.Machine.execMovMR m r w s
  | .lpd p m => Sys2Proof.Machine.execLpd p m s
  | .movpPM p m => Sys2Proof.Machine.execMovpPM p m s
  | .movMMLoad m w => Sys2Proof.Machine.execMovMMLoad m w s
  | .tsl m imm d => Sys2Proof.Machine.execTsl m imm d s
  | .movpMP m p => Sys2Proof.Machine.execMovpMP m p s
  | .call m d => Sys2Proof.Machine.execCall m d s
  | .addRM r m w => Sys2Proof.Machine.execAddRM r m w s
  | .orRM r m w => Sys2Proof.Machine.execOrRM r m w s
  | .andRM r m w => Sys2Proof.Machine.execAndRM r m w s
  | .notRM r m w => Sys2Proof.Machine.execNotRM r m w s
  | .jmce m d => Sys2Proof.Machine.execJmce m d s
  | .jmcne m d => Sys2Proof.Machine.execJmcne m d s
  | .jnbt m b d => Sys2Proof.Machine.execJnbt m b d s
  | .jbt m b d => Sys2Proof.Machine.execJbt m b d s
  | .addiM m imm w => Sys2Proof.Machine.execAddiM m imm w s
  | .oriM m imm w => Sys2Proof.Machine.execOriM m imm w s
  | .andiM m imm w => Sys2Proof.Machine.execAndiM m imm w s
  | .movMMStore m w => Sys2Proof.Machine.execMovMMStore m w s
  | .addMR m r w => Sys2Proof.Machine.execAddMR m r w s
  | .orMR m r w => Sys2Proof.Machine.execOrMR m r w s
  | .andMR m r w => Sys2Proof.Machine.execAndMR m r w s
  | .notM m w => Sys2Proof.Machine.execNotM m w s
  | .jnzM m d w => Sys2Proof.Machine.execJnzM m d w s
  | .jzM m d w => Sys2Proof.Machine.execJzM m d w s
  | .incM m w => Sys2Proof.Machine.execIncM m w s
  | .decM m w => Sys2Proof.Machine.execDecM m w s
  | .setb m b => Sys2Proof.Machine.execSetb m b s
  | .clr m b => Sys2Proof.Machine.execClr m b s

end Sys2Proof.Machine
end

