-- ==== Sys2Proof/Machine/Dma.lean ====
section
/-! DEFINITION. The DMA state machine and block-transfer sequencer (spec/46_dma_engine.md). -/

namespace Sys2Proof.Machine

/-! ## Sides -/

/-- The source pointer: `ga` if `cc.S = 0`, else `gb` (R232). -/
def dmaSrc (s : State) : RegName := if ccS s.me.cc then .gb else .ga

/-- The destination pointer (R232). -/
def dmaDst (s : State) : RegName := if ccS s.me.cc then .ga else .gb

/-- A pointer after an access of `n` bytes (R234): the register wraps at 2^20. -/
def advance (enabled : Bool) (r : RegName) (n : Addr) (s : State) : State :=
  if enabled then s.setReg r (s.reg r + n) else s

/-- `ReadSrc(n)` (R242): from the space of the source's tag (R233). -/
def readSrc (w : Width) (s : State) : Half × State :=
  let r := dmaSrc s
  let x := memRead w (s.tag r) (s.reg r) s
  (x.1, advance (ccSinc s.me.cc) r (widthSize w) x.2)

/-- `WriteDst(n, x)` (R242): to the space of the destination's tag (R233). -/
def writeDst (w : Width) (x : Half) (s : State) : State :=
  let r := dmaDst s
  advance (ccDinc s.me.cc) r (widthSize w) (memWrite w (s.tag r) (s.reg r) x s)

/-! ## Units -/

/-- What a unit moved: the value, the number of bytes, and the state after (R242). -/
structure Moved where
  value : Half
  bytes : Half
  st : State
  deriving DecidableEq, Repr

/-- Unit 8/8 (R243); also the narrowed unit (R247). -/
def unit8to8 (s : State) : Moved :=
  let x := readSrc .byte s
  ⟨x.1, 1#16, writeDst .byte x.1 x.2⟩

/-- Unit 8/16 (R244): the first byte is the low half. -/
def unit8to16 (s : State) : Moved :=
  let lo := readSrc .byte s
  let hi := readSrc .byte lo.2
  let x : Half := hi.1.setWidth 8 ++ lo.1.setWidth 8
  ⟨x, 2#16, writeDst .word x hi.2⟩

/-- Unit 16/8 (R245): the low byte first. -/
def unit16to8 (s : State) : Moved :=
  let x := readSrc .word s
  ⟨x.1, 2#16, writeDst .byte ((x.1.extractLsb' 8 8).setWidth 16)
    (writeDst .byte ((x.1.extractLsb' 0 8).setWidth 16) x.2)⟩

/-- Unit 16/16 (R246). -/
def unit16to16 (s : State) : Moved :=
  let x := readSrc .word s
  ⟨x.1, 2#16, writeDst .word x.1 x.2⟩

/-- One unit: narrowed when `bc = 1`, else by the width mode (R242, R247). -/
def moveUnit (s : State) : Moved :=
  if s.me.bc = 1#16 then unit8to8 s
  else
    match s.me.wsrc, s.me.wdst with
    | .byte, .byte => unit8to8 s
    | .byte, .word => unit8to16 s
    | .word, .byte => unit16to8 s
    | .word, .word => unit16to16 s

/-- One unit with its count: `bc` falls by the bytes moved, modulo 2^16 (R248). -/
def countUnit (s : State) : Moved :=
  let u := moveUnit s
  { u with st := u.st.setReg .bc ((u.st.me.bc - u.bytes).setWidth 20) }

/-! ## Termination -/

/-- Sample `EXT(ch)` of the executing channel (R272): the next level the host drives, else the level
it has. -/
def sampleExt (s : State) : Bool × State :=
  let p := s.pin s.cur
  let b := p.later.headD p.level
  (b, (s.setPin s.cur ⟨b, p.later.tail⟩).emit (.extSample s.cur b))

/-- The masked-compare condition on the latch (R240). -/
def maskedStop (cc : Half) (latch : Option Bool) : Bool :=
  match latch with
  | none => false
  | some b => ccTmc cc != 0#2 && (b ^^ ccTmcn cc)

/-- The checks that need no host: byte count, then masked compare (R237, R239, R240). -/
def innerCheck (latch : Option Bool) (s : State) : Option Addr :=
  if ccTbc s.me.cc != 0#2 && s.me.bc == 0#16 then some (skip (ccTbc s.me.cc))
  else if maskedStop s.me.cc latch then some (skip (ccTmc s.me.cc))
  else none

/-- The three checks in their fixed order: external, byte count, masked compare (R237 to R240).
`EXT` is sampled only if `cc.TX != 0` (R272). The answer is the skip of the class that fired. -/
def dmaCheck (latch : Option Bool) (s : State) : Option Addr × State :=
  if ccTx s.me.cc != 0#2 then
    let e := sampleExt s
    if e.1 then (innerCheck latch e.2, e.2) else (some (skip (ccTx s.me.cc)), e.2)
  else (innerCheck latch s, s)

/-- `Terminate(s)` (R250): the flag is cleared and `tp` gets the skip. -/
def terminate (sk : Addr) (s : State) : State :=
  let t := { s with dma := .idle }.setXp false
  t.setReg .tp (t.reg .tp + sk)

/-! ## The run -/

/-- The loop of `DmaRun` (R235). When the fuel is used up the run stands between two units, its step
has not returned, and the next model step goes on with it (R252, D38; log entry 8). -/
def dmaLoop : Nat → Option Bool → State → State
  | 0, latch, s => { s with dma := .suspended latch }
  | fuel + 1, latch, s =>
    if ccTs s.me.cc then terminate 0#20 (countUnit s).st
    else
      let c := dmaCheck latch s
      match c.1 with
      | some sk => terminate sk c.2
      | none =>
        let u := countUnit c.2
        dmaLoop fuel (some (maskedEq (u.value.setWidth 8) u.st.me.mc)) u.st

/-- `DmaRun` (R235): translate mode is unsupported and raises before anything moves (R236). -/
def dmaRun (s : State) : State :=
  if ccTr s.me.cc then raise (.failed .unsupportedFeature) s
  else dmaLoop Config.dmaFuel none s

/-- Go on with a run whose step has not returned (R252). -/
def dmaResume (latch : Option Bool) (s : State) : State :=
  dmaLoop Config.dmaFuel latch { s with dma := .idle }

end Sys2Proof.Machine
end

