-- ==== Sys2Proof/Machine/Engine.lean ====
section
/-! DEFINITION. The execution engine: one channel step (spec/40_pipeline.md R120, R121), the host's
actions between steps (R273), and placing an instruction where the next step fetches it. -/

namespace Sys2Proof.Machine

/-! ## One channel step -/

/-- `ExecOne` (R121): fetch, validate, execute. It is entered with the obligation the state holds,
none at the start of a step (R120). With execution switched off stage 5 is skipped, with validation
switched off stage 4 is, and with both off a word is only fetched, whatever it is (R125). -/
def execOne (s : State) : Result :=
  let u := fetchUnit s
  match decodeUnit s.obligation.isSome u.1 with
  | .error r =>
    if s.env.params.validate || s.env.params.execute then rejectWord s.obligation.isSome r u.1 u.2
    else .next u.2
  | .ok i => if s.env.params.execute then exec i u.2 else .next u.2

/-- What follows the instruction in the same step (R120): the DMA run, if the flag was set before the
instruction and the instruction completed. A stop leaves a status that is not `Running`, and then
no run is made. -/
def afterInstr (armed : Bool) (s : State) : State :=
  if armed && s.me.status == .running then dmaRun s else s

/-- `Step` of the current channel (R120). It is enabled only in `Running`; a channel that is not
running takes no step and keeps its state (R29, R279; log entry 7). -/
def stepChannel (s : State) : Result :=
  if s.me.status = .running then
    match execOne s with
    | .next t => .next (afterInstr (s.me.xp && s.env.params.execute) t)
    | .fault r => .fault r
    | .refused r => .refused r
  else .next s

/-! ## Host actions -/

/-- Reset the core: both channels, and nothing of the host's (R290). -/
def resetCore (s : State) : State :=
  { s with ch0 := Channel.reset, ch1 := Channel.reset, obligation := none, dma := .idle }

/-- `Resume(ch)`: a faulted channel runs again, nothing else changes (R268, D26; log entry 14). -/
def resumeStatus (x : Status) : Status :=
  match x with
  | .faulted _ => .running
  | .idle => .idle
  | .running => .running
  | .halted => .halted

/-- Carry out one host action (R273: between steps, never during one). Log entry 17. A step and an
activation make their channel `cur`, the one that an empty schedule goes on stepping; a resume, a
reset, a store and a change of `EXT`, of whichever channel, leave `cur` alone. The spec leaves the
schedule open (R277). DESIGN CHOICE: log entry 6. -/
def hostAct (a : HostAction) (s : State) : Result :=
  match a with
  | .step c => stepChannel { s with cur := c }
  | .activate c => .next (bootstrap c s)
  | .resume c =>
    .next (s.setChan c { s.chan c with status := resumeStatus (s.chan c).status })
  | .reset => .next (resetCore s)
  | .store sp a b => .next (s.setByte sp a b)
  | .drive c b => .next (s.setPin c { s.pin c with level := b })

/-- One step of the machine. A DMA run whose step has not returned goes on, and nothing else can
happen meanwhile (R252, R298). Otherwise the host's next action is carried out; when none is queued
the host steps `cur`, the channel it last stepped or activated (DESIGN CHOICE: log entry 6). -/
def hostStep (s : State) : Result :=
  match s.dma with
  | .suspended latch => .next (dmaResume latch s)
  | .idle =>
    match s.env.schedule with
    | [] => stepChannel s
    | a :: rest => hostAct a { s with env := { s.env with schedule := rest } }

/-! ## Placing an instruction -/

/-- Store bytes in memory space from an address on, wrapping at its end (R41). -/
def placeBytes : List Byte → Addr → State → State
  | [], _, s => s
  | b :: rest, a, s => placeBytes rest (a + 1#20) (s.setByte .mem a b)

/-- The state in which the next step fetches an instruction whose bits are `w`: its bytes stand in
memory at the current channel's `tp`, the host steps that channel next and answers from the plain
contents, the channel runs, and no transfer is under way. A store half is legal only under an
obligation (R90), so for one of those words an obligation with the carried value 0 is put up.
Log entry 16. -/
def placeWord (s : State) (nbits w : Nat) : State :=
  let t := placeBytes (tableBytes nbits w) (s.reg .tp) s
  let u := t.setStatus .running
  { u with
    obligation := if isStoreHalf nbits w then some 0#16 else none
    dma := .idle
    env := { u.env with schedule := .step u.cur :: u.env.schedule, answers := [] } }

end Sys2Proof.Machine
end

