-- ==== Sys2Proof/Safety.lean ====
section
/-! DEFINITION. The terms in which statements about the machine are made: the invariant, what is
left unchanged, the bytes of memory, and what the host has seen. -/

namespace Sys2Proof.Machine

/-! ## The invariant -/

/-- Both memories are in canonical form and list only addresses of their space (R27). -/
abbrev Canonical (s : State) : Prop :=
  Memory.wf (spaceSize .mem) s.env.mem = true ∧ Memory.wf (spaceSize .io) s.env.io = true

/-- A channel that was never activated is as reset left it (R29, R30, R290), and `tag[pp]` is `MEM`
at all times (R20). -/
abbrev ChannelInv (x : Channel) : Prop :=
  (x.status = .idle → x = Channel.reset) ∧ x.tags.pp = .mem

/-- A run whose step has not returned is the run of a running channel whose transfer is pending, and
neither in translate mode (R236) nor in single-transfer mode (R241). -/
abbrev DmaInv (s : State) : Prop :=
  match s.dma with
  | .idle => True
  | .suspended _ =>
    s.me.status = .running ∧ s.me.xp = true ∧ ccTr s.me.cc = false ∧ ccTs s.me.cc = false

/-- What holds of the machine between steps. -/
abbrev Inv (s : State) : Prop :=
  Canonical s ∧ s.obligation = none ∧ ChannelInv s.ch0 ∧ ChannelInv s.ch1 ∧ DmaInv s

/-- No channel has stopped with a failure (R266: the host is expected to stop stepping after one). -/
abbrev NoFailure (s : State) : Prop :=
  ∀ c f, (s.chan c).status ≠ .faulted f

/-! ## What an instruction leaves unchanged -/

/-- Everything of the machine but the contents, the log and the answers is in `t` as it is in `s`,
except the registers `rs` and the tags `ts` of the executing channel. -/
structure Keeps (rs ts : List RegName) (s t : State) : Prop where
  cur : t.cur = s.cur
  obligation : t.obligation = s.obligation
  dma : t.dma = s.dma
  other : ∀ c, c ≠ s.cur → t.chan c = s.chan c
  regs : ∀ r, r ∉ rs → t.reg r = s.reg r
  tags : ∀ r, r ∉ ts → t.tag r = s.tag r
  wsrc : t.me.wsrc = s.me.wsrc
  wdst : t.me.wdst = s.me.wdst
  xp : t.me.xp = s.me.xp
  status : t.me.status = s.me.status
  params : t.env.params = s.env.params
  schedule : t.env.schedule = s.env.schedule
  ext0 : t.env.ext0 = s.env.ext0
  ext1 : t.env.ext1 = s.env.ext1

/-- Every byte of both spaces reads as before. -/
def SameBytes (s t : State) : Prop :=
  ∀ sp a, t.byteAt sp a = s.byteAt sp a

/-- Address `b` of space `sq` is one of the `n` addresses from `a` on in space `sp`, as the access
layer masks them (R41). -/
def InRange (sp : Space) (a : Addr) (n : Nat) (sq : Space) (b : Addr) : Prop :=
  sq = sp ∧ ∃ k, k < n ∧ mask sp b = mask sp (a + BitVec.ofNat 20 k)

/-- Every byte reads as before, but for the `n` bytes from `a` on in space `sp`. -/
def SameBytesBut (sp : Space) (a : Addr) (n : Nat) (s t : State) : Prop :=
  ∀ sq b, ¬ InRange sp a n sq b → t.byteAt sq b = s.byteAt sq b

/-- The bytes of a width. -/
def widthBytes : Width → Nat
  | .byte => 1
  | .word => 2

/-! ## Addressed operands -/

/-- What the host answers when the operand of width `w` at `M` is read: as an unsigned number, after
the address is computed (R134, R135(a)). -/
def operandOf (w : Width) (m : MemOp) (s : State) : Half :=
  (memRead w (eaSpace m s) (eaAddr m s) (eaState m w s)).1

/-- The state after that read. -/
def operandRead (w : Width) (m : MemOp) (s : State) : State :=
  (memRead w (eaSpace m s) (eaAddr m s) (eaState m w s)).2

/-- The byte the host answers when the byte at `M` is read. -/
def operandByte (m : MemOp) (s : State) : Byte :=
  (memRead8 (eaSpace m s) (eaAddr m s) (eaState m .byte s)).1

/-- The register that computing an address changes: `ix` in mode 3 (R132). -/
def bumped (m : MemOp) : List RegName :=
  match m.mode with
  | .base | .offset _ | .index => []
  | .indexInc => [.ix]

/-- From `s` to `t`, an instruction with the operand `M` has written at most the register `r` and the
tags `ts`, beside the post-increment of `ix`; every byte is as before, and of the host's side only
what reading the operand changes has changed: `u` is the state after that read. -/
def LoadsOnly (r : RegName) (ts : List RegName) (m : MemOp) (w : Width) (u s t : State) : Prop :=
  Keeps (r :: bumped m) ts s t ∧ (r ≠ .ix → t.reg .ix = (eaState m w s).reg .ix) ∧
    SameBytes s t ∧ t.env = u.env

/-- From `s` to `t`, an instruction with the operand `M` has written at most `n` bytes from `M` on,
beside the post-increment of `ix` and the registers `rs`. -/
def StoresOnly (rs : List RegName) (n : Nat) (m : MemOp) (w : Width) (s t : State) : Prop :=
  Keeps (rs ++ bumped m) [] s t ∧ t.reg .ix = (eaState m w s).reg .ix ∧
    SameBytesBut (eaSpace m s) (eaAddr m s) n s t

/-- The state once the step of channel `c` has begun, with `rest` of the schedule to come. -/
def entered (c : ChanId) (rest : List HostAction) (s : State) : State :=
  { s with cur := c, env := { s.env with schedule := rest } }

/-- The next thing the machine does is a step of channel `c`, and `rest` stays scheduled. That an empty
schedule means a step of `cur` is the model's choice, log entry 6. -/
abbrev StepsNext (c : ChanId) (rest : List HostAction) (s : State) : Prop :=
  s.dma = .idle ∧
    (s.env.schedule = .step c :: rest ∨ (s.env.schedule = [] ∧ c = s.cur ∧ rest = []))

/-- The next thing the machine does is a host action, and `rest` stays scheduled. -/
abbrev ActsNext (a : HostAction) (rest : List HostAction) (s : State) : Prop :=
  s.dma = .idle ∧ s.env.schedule = a :: rest

/-- From `s` to `t` the executing channel has stopped: its status is `x` and the host has been told,
and nothing else has changed (R262); no store obligation outlives the step (R28). -/
def StopsWith (e : Stop) (x : Status) (s t : State) : Prop :=
  t.me = { s.me with status := x } ∧ (∀ c, c ≠ s.cur → t.chan c = s.chan c) ∧ t.cur = s.cur ∧
    t.obligation = none ∧ t.dma = s.dma ∧
    t.env = { s.env with events := .stop s.cur e :: s.env.events }

/-! ## Bytes in memory -/

/-- The host answers every read from the plain contents: it plays RAM (D36). -/
abbrev PlainHost (s : State) : Prop := s.env.answers = []

/-- The `n` bytes of a space from `a` on. -/
def bytesAt (s : State) (sp : Space) (a : Addr) (n : Nat) : List Byte :=
  (List.range n).map fun k => s.byteAt sp (a + BitVec.ofNat 20 k)

/-- The 16-bit value at an address, low byte first (R44). -/
def halfAt (s : State) (sp : Space) (a : Addr) : Half :=
  s.byteAt sp (a + 1#20) ++ s.byteAt sp a

/-- The register value of the segmented pointer at an address of memory: offset word, then segment
word, `seg * 16 + off` modulo 2^20 (R22(a)). -/
def segmentedAt (s : State) (a : Addr) : Addr :=
  BitVec.ofNat 20 ((halfAt s .mem (a + 2#20)).toNat * 16 + (halfAt s .mem a).toNat)

/-! ## What the host has seen -/

/-- An event is a read primitive. -/
def Event.isRead : Event → Bool
  | .read8 _ _ _ => true
  | .read16 _ _ _ => true
  | .write8 _ _ _ | .write16 _ _ _ | .extSample _ _ | .sintr _ | .stop _ _ => false

/-- An event is a read of memory space, as every fetch is (R122). -/
def Event.isMemRead : Event → Bool
  | .read8 .mem _ _ => true
  | .read16 .mem _ _ => true
  | .read8 .io _ _ | .read16 .io _ _ => false
  | .write8 _ _ _ | .write16 _ _ _ | .extSample _ _ | .sintr _ | .stop _ _ => false

/-- The bytes read by an event. -/
def Event.readBytes : Event → Nat
  | .read8 _ _ _ => 1
  | .read16 _ _ _ => 2
  | .write8 _ _ _ | .write16 _ _ _ | .extSample _ _ | .sintr _ | .stop _ _ => 0

/-- The bytes written by an event. -/
def Event.writtenBytes : Event → Nat
  | .write8 _ _ _ => 1
  | .write16 _ _ _ => 2
  | .read8 _ _ _ | .read16 _ _ _ | .extSample _ _ | .sintr _ | .stop _ _ => 0

/-- The bytes read in a piece of the log. -/
def bytesRead (es : List Event) : Nat := (es.map Event.readBytes).sum

/-- The bytes written in a piece of the log. -/
def bytesWritten (es : List Event) : Nat := (es.map Event.writtenBytes).sum

/-! ## Values -/

/-- An immediate or displacement as a signed integer (R76, R77). -/
def immInt : Imm → Int
  | .byte b => b.toInt
  | .word v => v.toInt

/-- Bit `k` of an immediate in two's complement of any width (R76). -/
def immBit : Imm → Nat → Bool
  | .byte b, k => b.getLsbD (min k 7)
  | .word v, k => v.getLsbD (min k 15)

/-- An operand of width `w` as a signed integer (R135(b)). -/
def operandInt (w : Width) (m : Half) : Int :=
  match w with
  | .byte => (m.setWidth 8).toInt
  | .word => m.toInt

/-- Bit `k` of a sign-extended operand of width `w` (R135(b)). -/
def operandBit (w : Width) (m : Half) (k : Nat) : Bool :=
  match w with
  | .byte => m.getLsbD (min k 7)
  | .word => m.getLsbD (min k 15)

/-- A register holds a result that was computed in the integers, modulo 2 to its width (R12,
R170(a)). -/
def HoldsInt (r : RegName) (n : Int) (t : State) : Prop :=
  ((t.reg r).toNat : Int) = n % (2 ^ regWidth r : Nat)

/-- A register holds the given bits over its width. -/
def HoldsBits (r : RegName) (f : Nat → Bool) (t : State) : Prop :=
  ∀ k, (t.reg r).getLsbD k = (decide (k < regWidth r) && f k)

/-- The unsigned value of width `w` that stands at an address (R44). -/
def storedAt (w : Width) (sp : Space) (a : Addr) (t : State) : Half :=
  match w with
  | .byte => (t.byteAt sp a).setWidth 16
  | .word => halfAt t sp a

/-- A memory operand holds a result that was computed in the integers, modulo 2 to its width
(R135(d), R170(a)). -/
def StoredInt (w : Width) (sp : Space) (a : Addr) (n : Int) (t : State) : Prop :=
  ((storedAt w sp a t).toNat : Int) = n % (2 ^ (8 * widthBytes w) : Nat)

/-- A memory operand holds the given bits over its width. -/
def StoredBits (w : Width) (sp : Space) (a : Addr) (f : Nat → Bool) (t : State) : Prop :=
  ∀ k, (storedAt w sp a t).getLsbD k = (decide (k < 8 * widthBytes w) && f k)

/-- The three bytes of a stored pointer with the value `v` and the tag `sq` stand at an address: bits
7:0, bits 15:8, then bits 19:16 over the tag over three zeros (R22(b)). -/
def StoredPointer (sp : Space) (a : Addr) (v : Addr) (sq : Space) (t : State) : Prop :=
  (t.byteAt sp a).toNat = v.toNat % 256 ∧
  (t.byteAt sp (a + 1#20)).toNat = v.toNat / 256 % 256 ∧
  (t.byteAt sp (a + 2#20)).toNat = v.toNat / 65536 * 16 + (if sq = .io then 8 else 0)

/-- A byte equals the low byte of `mc` in the bit positions where the high byte has a 1 (R19). -/
abbrev MaskMatches (x : Byte) (mc : Half) : Prop :=
  ∀ k, k < 8 → mc.getLsbD (8 + k) = true → x.getLsbD k = mc.getLsbD k

/-! ## Control words (R18) -/

/-- Termination fields 6:5, 4:3 and 1:0 of a control word. -/
def fieldTx (cc : Half) : Nat := cc.toNat / 32 % 4
def fieldTbc (cc : Half) : Nat := cc.toNat / 8 % 4
def fieldTmc (cc : Half) : Nat := cc.toNat % 4

/-- The skip of a termination class, from its field value 1, 2 or 3 (R251). -/
def skipOf (n : Nat) : Addr := BitVec.ofNat 20 (4 * (n - 1))

/-- The bytes a unit moves: one when the count is 1 or both sides are 8 bits wide, else two
(R242 to R247). -/
def unitBytes (s : State) : Nat :=
  if s.me.bc = 1#16 ∨ (s.me.wsrc = .byte ∧ s.me.wdst = .byte) then 1 else 2

/-- `reg[r] + n` where the increment is enabled (R234). -/
def steppedBy (enabled : Bool) (v : Addr) (n : Nat) : Addr :=
  if enabled then v + BitVec.ofNat 20 n else v

/-- The state at the end of a run, before what the run changed: no transfer is pending and none is
under way (R250). -/
def ended (s : State) : State := { s with dma := .idle }.setXp false

/-- Going on with a run for at most `n` more units (R252). -/
def continueRun (n : Nat) (t : State) : State :=
  match t.dma with
  | .suspended latch => dmaLoop n latch { t with dma := .idle }
  | .idle => t

/-! ## Encodings -/

/-- An instruction that is legal only under a store obligation (R90). -/
def isHalf : Instr → Bool
  | .movMMStore _ _ => true
  | _ => false

/-- The mask and the required bits of an instruction's first word, as spec/opcode_table.json gives
its row (R81, R82, R102). -/
def tableRow : Instr → Half × Half
  | .nop => (0xFFFF#16, 0x0000#16)
  | .sintr => (0xFFFF#16, 0x0040#16)
  | .xfer => (0xFFFF#16, 0x0060#16)
  | .wid _ _ => (0xFF9F#16, 0x0080#16)
  | .lpdi _ _ _ => (0xFF1F#16, 0x0811#16)
  | .addiR _ _ _ => (0xFF06#16, 0x2000#16)
  | .jmp _ => (0xFFFF#16, 0x2088#16)
  | .ljmp _ => (0xFFFF#16, 0x2091#16)
  | .oriR _ _ _ => (0xFF06#16, 0x2400#16)
  | .andiR _ _ _ => (0xFF06#16, 0x2800#16)
  | .notR _ => (0xFF1F#16, 0x2C00#16)
  | .moviR _ _ _ => (0xFF06#16, 0x3000#16)
  | .incR _ => (0xFF1F#16, 0x3800#16)
  | .decR _ => (0xFF1F#16, 0x3C00#16)
  | .jnzR _ _ => (0xFF07#16, 0x4000#16)
  | .jzR _ _ => (0xFF07#16, 0x4400#16)
  | .hlt => (0xFFFF#16, 0x4820#16)
  | .moviM _ _ _ => (0xFCE0#16, 0x4C00#16)
  | .movRM _ _ _ => (0xFC18#16, 0x8000#16)
  | .movMR _ _ _ => (0xFC18#16, 0x8400#16)
  | .lpd _ _ => (0xFC19#16, 0x8801#16)
  | .movpPM _ _ => (0xFC19#16, 0x8C01#16)
  | .movMMLoad _ _ => (0xFCF8#16, 0x9000#16)
  | .tsl _ _ _ => (0xFCF9#16, 0x9418#16)
  | .movpMP _ _ => (0xFC19#16, 0x9801#16)
  | .call _ _ => (0xFCE1#16, 0x9C81#16)
  | .addRM _ _ _ => (0xFC18#16, 0xA000#16)
  | .orRM _ _ _ => (0xFC18#16, 0xA400#16)
  | .andRM _ _ _ => (0xFC18#16, 0xA800#16)
  | .notRM _ _ _ => (0xFC18#16, 0xAC00#16)
  | .jmce _ _ => (0xFCE1#16, 0xB000#16)
  | .jmcne _ _ => (0xFCE1#16, 0xB400#16)
  | .jnbt _ _ _ => (0xFC01#16, 0xB800#16)
  | .jbt _ _ _ => (0xFC01#16, 0xBC00#16)
  | .addiM _ _ _ => (0xFCE0#16, 0xC000#16)
  | .oriM _ _ _ => (0xFCE0#16, 0xC400#16)
  | .andiM _ _ _ => (0xFCE0#16, 0xC800#16)
  | .movMMStore _ _ => (0xFCF8#16, 0xCC00#16)
  | .addMR _ _ _ => (0xFC18#16, 0xD000#16)
  | .orMR _ _ _ => (0xFC18#16, 0xD400#16)
  | .andMR _ _ _ => (0xFC18#16, 0xD800#16)
  | .notM _ _ => (0xFCF8#16, 0xDC00#16)
  | .jnzM _ _ _ => (0xFCE0#16, 0xE000#16)
  | .jzM _ _ _ => (0xFCE0#16, 0xE400#16)
  | .incM _ _ => (0xFCF8#16, 0xE800#16)
  | .decM _ _ => (0xFCF8#16, 0xEC00#16)
  | .setb _ _ => (0xFC19#16, 0xF400#16)
  | .clr _ _ => (0xFC19#16, 0xF800#16)

end Sys2Proof.Machine
end

