-- ==== Sys2Proof/Certificates/Slice0/Obligations.lean ====
section
/-! DEFINITION. The statements about lib8089 CORE that are to be proved. Each docstring names the
rules of spec/ it rests on. -/

open Sys2Proof Sys2Proof.Machine

/-! ## Encoding -/

/-- R70 to R82, R93 to R103: what is encoded is what is decoded, whatever follows. A store half is
decoded where it is legal, under a store obligation (R90). -/
def Obligations.EncodedInstructionsDecode : Prop :=
  ∀ (i : Instr) (rest : List Byte), i.wf = true →
    decode (isHalf i) (encode i ++ rest) = .ok (i, rest)

/-- R70 to R82, R92: whatever is decoded is the encoding of what it decodes to, and the decoder
answers well-formed instructions only. -/
def Obligations.DecodedBytesAreTheEncoding : Prop :=
  ∀ (obl : Bool) (bs rest : List Byte) (i : Instr), decode obl bs = .ok (i, rest) →
    encode i ++ rest = bs ∧ i.wf = true ∧ isHalf i = obl

/-- R81, R82, R102: the first word of every instruction has the required bits of its row of the
opcode table, and it is legal. -/
def Obligations.EncodedWordsMatchTheTable : Prop :=
  ∀ i : Instr,
    (encodeFields i).toWord &&& (tableRow i).1 = (tableRow i).2 ∧
      Fields.ofWord (encodeFields i).toWord = encodeFields i ∧
      validate (isHalf i) (encodeFields i) = none

/-- R83 to R87, R89, R90, R263: the reasons 7, 6, 1, 2, 3 and 4 a word is rejected for, each where no
earlier one in that order applies. -/
def Obligations.RejectionReasonsInOrder : Prop :=
  ∀ (obl : Bool) (f : Fields),
    (validate obl f = some .storeHalfMissing ↔ obl = true ∧ f.opc ≠ 0x33#6) ∧
    (validate obl f = some .storeHalfAtTop ↔ obl = false ∧ f.opc = 0x33#6) ∧
    (validate obl f = some .unknownOpcode ↔ obl = false ∧
      f.opc ∈ [0x01#6, 0x03#6, 0x04#6, 0x05#6, 0x06#6, 0x07#6, 0x0D#6, 0x14#6, 0x15#6, 0x16#6,
        0x17#6, 0x18#6, 0x19#6, 0x1A#6, 0x1B#6, 0x1C#6, 0x1D#6, 0x1E#6, 0x1F#6, 0x3C#6, 0x3F#6]) ∧
    (validate obl f = some .selectorWithoutMode ↔ obl = false ∧ f.mm ≠ 0#2 ∧
      f.opc ∈ [0x00#6, 0x02#6, 0x08#6, 0x09#6, 0x0A#6, 0x0B#6, 0x0C#6, 0x0E#6, 0x0F#6, 0x10#6,
        0x11#6, 0x12#6]) ∧
    (validate obl f = some .illegalRegister ↔ obl = false ∧
      (f.opc ∈ [0x22#6, 0x23#6, 0x26#6] ∨ f.opc = 0x02#6 ∧ f.mm = 0#2) ∧
      f.rrr ∈ [3#3, 5#3, 6#3, 7#3]) ∧
    (validate obl f = some .illegalWidth ↔ obl = false ∧
      (f.opc ∈ [0x13#6, 0x27#6, 0x2C#6, 0x2D#6, 0x2E#6, 0x2F#6, 0x30#6, 0x31#6, 0x32#6, 0x38#6,
          0x39#6] ∨
        f.opc ∈ [0x08#6, 0x09#6, 0x0A#6, 0x0C#6, 0x10#6, 0x11#6] ∧ f.mm = 0#2) ∧
      (f.wb = 0#2 ∨ f.wb = 3#2))

/-- R92: the decoder is total: some bytes are too short, or their first unit selects an instruction,
or it is rejected with the validator's reason and no other. -/
def Obligations.DecoderFollowsTheValidator : Prop :=
  ∀ (obl : Bool) (bs : List Byte),
    match parseUnit bs with
    | none => decode obl bs = .error .truncated
    | some (u, rest) =>
      match validate obl (Fields.ofWord u.word) with
      | some r => decode obl bs = .error (.invalid r)
      | none => ∃ i, decode obl bs = .ok (i, rest)

/-- Words written out from the spec's encodings: `nop` and `wid 16,16` (R140, R143), `lpdi` (R157),
`addi` (R171), `mov R,M` (R150), `mov M,M` load half (R154), `setb` (R200), `call` (R215), `jmp`
(R206), `hlt` (R144). -/
def Obligations.SampleWordsDecode : Prop :=
  decode false [0x00#8, 0x00#8] = .ok (.nop, []) ∧
  decode false [0xE0#8, 0x00#8] = .ok (.wid .word .word, []) ∧
  decode false [0x31#8, 0x08#8, 0x10#8, 0x00#8, 0x00#8, 0x20#8] =
    .ok (.lpdi .gb 0x0010#16 0x2000#16, []) ∧
  decode false [0x11#8, 0x20#8, 0x34#8, 0x12#8] = .ok (.addiR .ga (.word 0x1234#16) .word, []) ∧
  decode false [0x63#8, 0x80#8, 0x02#8] = .ok (.movRM .bc ⟨.ga, .offset 0x02#8⟩ .word, []) ∧
  decode false [0x07#8, 0x90#8, 0x01#8, 0xCD#8] =
    .ok (.movMMLoad ⟨.ga, .indexInc⟩ .word, [0x01#8, 0xCD#8]) ∧
  decode false [0xE0#8, 0xF4#8] = .ok (.setb ⟨.ga, .base⟩ 7#3, []) ∧
  decode false [0x93#8, 0x9F#8, 0x02#8, 0x00#8, 0x03#8] =
    .ok (.call ⟨.pp, .offset 0x02#8⟩ (.word 0x0300#16), []) ∧
  decode false [0x88#8, 0x20#8, 0x04#8] = .ok (.jmp 0x04#8, []) ∧
  decode false [0x20#8, 0x48#8] = .ok (.hlt, [])

/-! ## The access layer -/

/-- R41, R42, R43, R45, R53: which primitive calls a read makes, in which order, and that its value
is what the host answers, an answer of its own or the plain contents. (That the host's own answers
stand in a queue is the model's choice, log entry 2.) -/
def Obligations.ReadsMakeTheSpecifiedCalls : Prop :=
  ∀ (sp : Space) (a : Addr) (s : State),
    (let r := memRead8 sp a s
     r.1 = (match s.env.answers.head?.join with
       | some x => x.setWidth 8
       | none => s.byteAt sp a) ∧
     r.2 = { s with env := { s.env with
       answers := s.env.answers.tail
       events := .read8 sp (mask sp a) r.1 :: s.env.events } }) ∧
    (let r := memRead16 sp a s
     if a.toNat % 2 = 0 ∧ s.bus16 sp = true then
       r.1 = (match s.env.answers.head?.join with
         | some x => x
         | none => halfAt s sp a) ∧
       r.2 = { s with env := { s.env with
         answers := s.env.answers.tail
         events := .read16 sp (mask sp a) r.1 :: s.env.events } }
     else
       r.1.toNat = (memRead8 sp a s).1.toNat +
         256 * (memRead8 sp (a + 1#20) (memRead8 sp a s).2).1.toNat ∧
       r.2 = (memRead8 sp (a + 1#20) (memRead8 sp a s).2).2) ∧
    (let r := memRead32 sp a s
     r.1.toNat = (memRead16 sp a s).1.toNat +
       65536 * (memRead16 sp (a + 2#20) (memRead16 sp a s).2).1.toNat ∧
     r.2 = (memRead16 sp (a + 2#20) (memRead16 sp a s).2).2)

/-- R41, R46: which primitive calls a write makes and in which order. -/
def Obligations.WritesMakeTheSpecifiedCalls : Prop :=
  ∀ (sp : Space) (a : Addr) (s : State),
    (∀ v : Byte, (memWrite8 sp a v s).env.events = .write8 sp (mask sp a) v :: s.env.events) ∧
    (∀ v : Half, (memWrite16 sp a v s).env.events =
      if a.toNat % 2 = 0 ∧ s.bus16 sp = true then .write16 sp (mask sp a) v :: s.env.events
      else .write8 sp (mask sp (a + 1#20)) (hiByte v) ::
        .write8 sp (mask sp a) (loByte v) :: s.env.events) ∧
    (∀ v : BitVec 32, memWrite32 sp a v s =
      memWrite16 sp (a + 2#20) (v.extractLsb' 16 16) (memWrite16 sp a (v.extractLsb' 0 16) s))

/-- R44, R53: on a host that plays RAM a store is read back, at any width; a narrower read sees the
low byte, and a read of the byte above sees the high byte. -/
def Obligations.StoredValuesAreReadBack : Prop :=
  ∀ (sp : Space) (a : Addr) (v : Half) (s : State), Canonical s → PlainHost s →
    let t := memWrite .word sp a v s
    (memRead .word sp a t).1 = v ∧ (memRead .byte sp a t).1.toNat = v.toNat % 256 ∧
      (memRead .byte sp (a + 1#20) t).1.toNat = v.toNat / 256 ∧
      (memRead .byte sp a (memWrite .byte sp a v s)).1.toNat = v.toNat % 256

/-- R160: `movp M,P` then `movp P,M` of the same location gives back the 20-bit value and the tag, and
`movp P,M` then `movp M,P` copies the three bytes if the low three bits of the third are zero. -/
def Obligations.StoredPointerRoundTrip : Prop :=
  ∀ (p q : PReg) (m n : MemOp) (s t u : State), Canonical s → PlainHost s →
    (exec (.movpMP m p) s = .next t → eaSpace n t = eaSpace m s → eaAddr n t = eaAddr m s →
      exec (.movpPM q n) t = .next u →
      u.reg (pppName q) = s.reg (pppName p) ∧ u.tag (pppName q) = s.tag (pppName p)) ∧
    (exec (.movpPM p m) s = .next t → exec (.movpMP n p) t = .next u →
      (s.byteAt (eaSpace m s) (eaAddr m s + 2#20)).toNat % 8 = 0 →
      ∀ k, k < 3 → u.byteAt (eaSpace n t) (eaAddr n t + BitVec.ofNat 20 k) =
        s.byteAt (eaSpace m s) (eaAddr m s + BitVec.ofNat 20 k))

/-! ## Effective addresses -/

/-- R128 to R133: the space is the base register's tag; the address is the base, plus an unsigned
offset byte or the unsigned `ix`, modulo the size of the space; only mode 3 changes anything, and it
adds the width to `ix`. -/
def Obligations.EffectiveAddresses : Prop :=
  ∀ (b : Base) (off : Byte) (w : Width) (s : State),
    let base := (s.reg (baseName b)).toNat
    let size := spaceSize (s.tag (baseName b))
    (∀ mode, eaSpace ⟨b, mode⟩ s = s.tag (baseName b)) ∧
    (eaAddr ⟨b, .base⟩ s).toNat = base % size ∧
    (eaAddr ⟨b, .offset off⟩ s).toNat = (base + off.toNat) % size ∧
    (eaAddr ⟨b, .index⟩ s).toNat = (base + s.me.ix.toNat) % size ∧
    (eaAddr ⟨b, .indexInc⟩ s).toNat = (base + s.me.ix.toNat) % size ∧
    eaState ⟨b, .base⟩ w s = s ∧ eaState ⟨b, .offset off⟩ w s = s ∧
    eaState ⟨b, .index⟩ w s = s ∧
    (HoldsInt .ix (s.me.ix.toNat + widthBytes w) (eaState ⟨b, .indexInc⟩ w s) ∧
      Keeps [.ix] [] s (eaState ⟨b, .indexInc⟩ w s) ∧
      (eaState ⟨b, .indexInc⟩ w s).env = s.env)

/-! ## The special group and the stops -/

/-- R140 to R143: `nop` changes nothing, `sintr` shows the host one event if it has a sink for it,
`xfer` sets `xp`, `wid` sets the width mode. -/
def Obligations.SpecialGroupEffects : Prop :=
  ∀ (src dst : Width) (s : State),
    exec .nop s = .next s ∧
    exec .sintr s = .next { s with env := { s.env with
      events := if s.env.params.sintrSink = true then .sintr s.cur :: s.env.events
        else s.env.events } } ∧
    (∃ t, exec .xfer s = .next t ∧ t.me = { s.me with xp := true } ∧ t.env = s.env ∧
      t.cur = s.cur ∧ t.obligation = s.obligation ∧ t.dma = s.dma ∧
      ∀ c, c ≠ s.cur → t.chan c = s.chan c) ∧
    (∃ t, exec (.wid src dst) s = .next t ∧ t.me = { s.me with wsrc := src, wdst := dst } ∧
      t.env = s.env ∧ t.cur = s.cur ∧ t.obligation = s.obligation ∧ t.dma = s.dma ∧
      ∀ c, c ≠ s.cur → t.chan c = s.chan c)

/-- R144, R217, R262, R264: `hlt` stops the channel with `NormalHalt` and `tsl` with `UnknownOpcode`;
neither accesses data, and neither changes anything but the status. -/
def Obligations.HaltAndTslStopTheChannel : Prop :=
  ∀ (m : MemOp) (i d : Byte) (s : State),
    (∃ t, exec .hlt s = .next t ∧ StopsWith .normalHalt .halted s t) ∧
    (∃ t, exec (.tsl m i d) s = .next t ∧
      StopsWith (.failed .unknownOpcode) (.faulted .unknownOpcode) s t)

/-! ## Registers and immediates -/

/-- R171, R175, R176, R170: addition and subtraction at the register's full width, wrapping. -/
def Obligations.RegisterArithmetic : Prop :=
  ∀ (r : Reg) (i : Imm) (w : Width) (s : State),
    (∃ t, exec (.addiR r i w) s = .next t ∧
      HoldsInt (rrrName r) ((s.reg (rrrName r)).toNat + immInt i) t ∧
      Keeps [rrrName r] [] s t ∧ t.env = s.env ∧ SameBytes s t) ∧
    (∃ t, exec (.incR r) s = .next t ∧
      HoldsInt (rrrName r) ((s.reg (rrrName r)).toNat + 1) t ∧
      Keeps [rrrName r] [] s t ∧ t.env = s.env ∧ SameBytes s t) ∧
    (∃ t, exec (.decR r) s = .next t ∧
      HoldsInt (rrrName r) ((s.reg (rrrName r)).toNat - 1) t ∧
      Keeps [rrrName r] [] s t ∧ t.env = s.env ∧ SameBytes s t)

/-- R172, R173, R174, R76: bit by bit over the register's width, with the immediate sign-extended. -/
def Obligations.RegisterLogic : Prop :=
  ∀ (r : Reg) (i : Imm) (w : Width) (s : State),
    (∃ t, exec (.oriR r i w) s = .next t ∧
      HoldsBits (rrrName r) (fun k => (s.reg (rrrName r)).getLsbD k || immBit i k) t ∧
      Keeps [rrrName r] [] s t ∧ t.env = s.env ∧ SameBytes s t) ∧
    (∃ t, exec (.andiR r i w) s = .next t ∧
      HoldsBits (rrrName r) (fun k => (s.reg (rrrName r)).getLsbD k && immBit i k) t ∧
      Keeps [rrrName r] [] s t ∧ t.env = s.env ∧ SameBytes s t) ∧
    (∃ t, exec (.notR r) s = .next t ∧
      HoldsBits (rrrName r) (fun k => !(s.reg (rrrName r)).getLsbD k) t ∧
      Keeps [rrrName r] [] s t ∧ t.env = s.env ∧ SameBytes s t)

/-- R152, R157, R136: the immediate, or the flattened pointer immediate, is loaded, and the tag is
`MEM`. -/
def Obligations.ImmediateLoads : Prop :=
  ∀ (r : Reg) (i : Imm) (w : Width) (p : PReg) (off seg : Half) (s : State),
    (∃ t, exec (.moviR r i w) s = .next t ∧ HoldsInt (rrrName r) (immInt i) t ∧
      t.tag (rrrName r) = .mem ∧
      Keeps [rrrName r] [rrrName r] s t ∧ t.env = s.env ∧ SameBytes s t) ∧
    (∃ t, exec (.lpdi p off seg) s = .next t ∧
      (t.reg (pppName p)).toNat = (seg.toNat * 16 + off.toNat) % 2 ^ 20 ∧
      t.tag (pppName p) = .mem ∧
      Keeps [pppName p] [pppName p] s t ∧ t.env = s.env ∧ SameBytes s t)

/-! ## Registers and memory operands -/

/-- R150, R136: `mov R,M` loads the sign-extended operand and the space it was read from. -/
def Obligations.LoadRegister : Prop :=
  ∀ (r : Reg) (m : MemOp) (w : Width) (s : State),
    ∃ t, exec (.movRM r m w) s = .next t ∧
      HoldsInt (rrrName r) (operandInt w (operandOf w m s)) t ∧
      t.tag (rrrName r) = eaSpace m s ∧
      LoadsOnly (rrrName r) [rrrName r] m w (operandRead w m s) s t

/-- R156, R22(a), R136: `lpd P,M` loads `(seg * 16 + off) mod 2^20` from the four bytes read, the
offset in the low half, and the space they were read from. -/
def Obligations.LoadSegmentedPointer : Prop :=
  ∀ (p : PReg) (m : MemOp) (s : State),
    let v := memRead32 (eaSpace m s) (eaAddr m s) (eaState m .word s)
    ∃ t, exec (.lpd p m) s = .next t ∧
      (t.reg (pppName p)).toNat =
        (v.1.toNat / 65536 * 16 + v.1.toNat % 65536) % 2 ^ 20 ∧
      t.tag (pppName p) = eaSpace m s ∧
      LoadsOnly (pppName p) [pppName p] m .word v.2 s t

/-- R158, R22(b), R47: `movp P,M` loads the low half and bits 7:4 of the third byte as the value, and
bit 3 of it as the tag. -/
def Obligations.LoadStoredPointer : Prop :=
  ∀ (p : PReg) (m : MemOp) (s : State),
    let lo := memRead16 (eaSpace m s) (eaAddr m s) (eaState m .word s)
    let b2 := memRead8 (eaSpace m s) (eaAddr m s + 2#20) lo.2
    ∃ t, exec (.movpPM p m) s = .next t ∧
      (t.reg (pppName p)).toNat = b2.1.toNat / 16 * 65536 + lo.1.toNat ∧
      t.tag (pppName p) = (if b2.1.toNat / 8 % 2 = 1 then .io else .mem) ∧
      LoadsOnly (pppName p) [pppName p] m .word b2.2 s t

/-- R177 to R180, R135(b), R170: the register and the sign-extended operand, at the register's full
width; no tag is written. The register is read after the post-increment of `ix` (R134). -/
def Obligations.RegisterWithMemoryOperand : Prop :=
  ∀ (r : Reg) (m : MemOp) (w : Width) (s : State),
    let old := (eaState m w s).reg (rrrName r)
    let x := operandOf w m s
    (∃ t, exec (.addRM r m w) s = .next t ∧
      HoldsInt (rrrName r) (old.toNat + operandInt w x) t ∧
      LoadsOnly (rrrName r) [] m w (operandRead w m s) s t) ∧
    (∃ t, exec (.orRM r m w) s = .next t ∧
      HoldsBits (rrrName r) (fun k => old.getLsbD k || operandBit w x k) t ∧
      LoadsOnly (rrrName r) [] m w (operandRead w m s) s t) ∧
    (∃ t, exec (.andRM r m w) s = .next t ∧
      HoldsBits (rrrName r) (fun k => old.getLsbD k && operandBit w x k) t ∧
      LoadsOnly (rrrName r) [] m w (operandRead w m s) s t) ∧
    (∃ t, exec (.notRM r m w) s = .next t ∧
      HoldsBits (rrrName r) (fun k => !operandBit w x k) t ∧
      LoadsOnly (rrrName r) [] m w (operandRead w m s) s t)

/-! ## Memory destinations -/

/-- R151, R153, R135: the low bits of the register, or of the immediate, are stored. -/
def Obligations.PlainStores : Prop :=
  ∀ (m : MemOp) (r : Reg) (i : Imm) (w : Width) (s : State),
    (∃ t, exec (.movMR m r w) s = .next t ∧ StoresOnly [] (widthBytes w) m w s t ∧
      (Canonical s → StoredInt w (eaSpace m s) (eaAddr m s)
        ((eaState m w s).reg (rrrName r)).toNat t)) ∧
    (∃ t, exec (.moviM m i w) s = .next t ∧ StoresOnly [] (widthBytes w) m w s t ∧
      (Canonical s → StoredInt w (eaSpace m s) (eaAddr m s) (immInt i) t))

/-- R159, R22(b), R47: `movp M,P` stores the value and the tag of the pointer register in the 3-byte
form. -/
def Obligations.StorePointer : Prop :=
  ∀ (m : MemOp) (p : PReg) (s : State),
    ∃ t, exec (.movpMP m p) s = .next t ∧ StoresOnly [] 3 m .word s t ∧
      (Canonical s → StoredPointer (eaSpace m s) (eaAddr m s)
        (s.reg (pppName p)) (s.tag (pppName p)) t)

/-- R181, R188, R189, R170(d): arithmetic in place, modulo 2 to the operand's width. -/
def Obligations.MemoryArithmetic : Prop :=
  ∀ (m : MemOp) (i : Imm) (w : Width) (s : State),
    let x := (operandOf w m s).toNat
    (∃ t, exec (.addiM m i w) s = .next t ∧ StoresOnly [] (widthBytes w) m w s t ∧
      (Canonical s → StoredInt w (eaSpace m s) (eaAddr m s) (x + immInt i) t)) ∧
    (∃ t, exec (.incM m w) s = .next t ∧ StoresOnly [] (widthBytes w) m w s t ∧
      (Canonical s → StoredInt w (eaSpace m s) (eaAddr m s) (x + 1) t)) ∧
    (∃ t, exec (.decM m w) s = .next t ∧ StoresOnly [] (widthBytes w) m w s t ∧
      (Canonical s → StoredInt w (eaSpace m s) (eaAddr m s) (x - 1) t))

/-- R182, R183, R187, R170(d): logic in place, bit by bit over the operand's width. -/
def Obligations.MemoryLogic : Prop :=
  ∀ (m : MemOp) (i : Imm) (w : Width) (s : State),
    let x := operandOf w m s
    (∃ t, exec (.oriM m i w) s = .next t ∧ StoresOnly [] (widthBytes w) m w s t ∧
      (Canonical s → StoredBits w (eaSpace m s) (eaAddr m s)
        (fun k => x.getLsbD k || immBit i k) t)) ∧
    (∃ t, exec (.andiM m i w) s = .next t ∧ StoresOnly [] (widthBytes w) m w s t ∧
      (Canonical s → StoredBits w (eaSpace m s) (eaAddr m s)
        (fun k => x.getLsbD k && immBit i k) t)) ∧
    (∃ t, exec (.notM m w) s = .next t ∧ StoresOnly [] (widthBytes w) m w s t ∧
      (Canonical s → StoredBits w (eaSpace m s) (eaAddr m s) (fun k => !x.getLsbD k) t))

/-- R184 to R186, R134, R170(d): a memory operand and the low bits of a register, in place; the
register is read after the post-increment of `ix`. -/
def Obligations.MemoryWithRegister : Prop :=
  ∀ (m : MemOp) (r : Reg) (w : Width) (s : State),
    let x := operandOf w m s
    let y := (eaState m w s).reg (rrrName r)
    (∃ t, exec (.addMR m r w) s = .next t ∧ StoresOnly [] (widthBytes w) m w s t ∧
      (Canonical s → StoredInt w (eaSpace m s) (eaAddr m s) (x.toNat + y.toNat) t)) ∧
    (∃ t, exec (.orMR m r w) s = .next t ∧ StoresOnly [] (widthBytes w) m w s t ∧
      (Canonical s → StoredBits w (eaSpace m s) (eaAddr m s)
        (fun k => x.getLsbD k || y.getLsbD k) t)) ∧
    (∃ t, exec (.andMR m r w) s = .next t ∧ StoresOnly [] (widthBytes w) m w s t ∧
      (Canonical s → StoredBits w (eaSpace m s) (eaAddr m s)
        (fun k => x.getLsbD k && y.getLsbD k) t))

/-- R200, R201: one bit of the addressed byte is set or cleared, and the others are as they were
read. -/
def Obligations.BitManipulation : Prop :=
  ∀ (m : MemOp) (b : BitVec 3) (s : State),
    let x := operandByte m s
    (∃ t, exec (.setb m b) s = .next t ∧ StoresOnly [] 1 m .byte s t ∧
      (Canonical s → StoredBits .byte (eaSpace m s) (eaAddr m s)
        (fun k => x.getLsbD k || k == b.toNat) t)) ∧
    (∃ t, exec (.clr m b) s = .next t ∧ StoresOnly [] 1 m .byte s t ∧
      (Canonical s → StoredBits .byte (eaSpace m s) (eaAddr m s)
        (fun k => x.getLsbD k && k != b.toNat) t))

/-! ## Memory to memory -/

/-- R154, R155, R299: the two halves of `mov M,M` are one instruction. When the bytes at `tp` are a
store half, the value read is stored, cut or zero-extended to the store half's width, at the address
computed after the load half's post-increment. -/
def Obligations.MemoryToMemoryMove : Prop :=
  ∀ (m n : MemOp) (w x : Width) (s : State), Canonical s → PlainHost s →
    bytesAt s .mem (s.reg .tp) (encode (.movMMStore n x)).length = encode (.movMMStore n x) →
    let u := (eaState m w { s with obligation := none }).setReg .tp
      (s.reg .tp + BitVec.ofNat 20 (encode (.movMMStore n x)).length)
    ∃ t, exec (.movMMLoad m w) s = .next t ∧
      StoresOnly [] (widthBytes x) n x u t ∧
      StoredInt x (eaSpace n u) (eaAddr n u) (storedAt w (eaSpace m s) (eaAddr m s) s).toNat t

/-- R154, R90, R127, R263: when the unit after a load half is not a valid store half, the channel
stops with the reason, and the load half's read and post-increment and the fetch stay made. -/
def Obligations.MissingStoreHalfStops : Prop :=
  ∀ (m : MemOp) (w : Width) (unit : RawUnit) (rest : List Byte) (r : Reason) (s : State),
    PlainHost s → s.env.params.validate = true →
    parseUnit (bytesAt s .mem (s.reg .tp) 7) = some (unit, rest) →
    decodeUnit true unit = .error r →
    ∃ u t, exec (.movMMLoad m w) s = .next t ∧
      Keeps (.tp :: bumped m) [] { s with obligation := u.obligation } u ∧
      u.reg .ix = (eaState m w s).reg .ix ∧
      u.reg .tp = s.reg .tp + BitVec.ofNat 20 (Fields.ofWord unit.word).length ∧
      SameBytes s u ∧
      StopsWith (.failed (.invalidEncoding r)) (.faulted (.invalidEncoding r)) u t

/-- R155, R90: the store half stores the carried value and meets the obligation; with none it is not
legal. -/
def Obligations.StoreHalf : Prop :=
  ∀ (m : MemOp) (w : Width) (s : State),
    (∀ v, s.obligation = some v →
      ∃ t, exec (.movMMStore m w) s = .next t ∧
        StoresOnly [] (widthBytes w) m w { s with obligation := none } t ∧
        (Canonical s → StoredInt w (eaSpace m s) (eaAddr m s) v.toNat t)) ∧
    (s.obligation = none →
      ∃ t, exec (.movMMStore m w) s = .next t ∧
        StopsWith (.failed (.invalidEncoding .storeHalfAtTop))
          (.faulted (.invalidEncoding .storeHalfAtTop)) s t)

/-! ## Control transfer -/

/-- R205, R206: `jmp` and `ljmp` add the signed displacement to `tp`, modulo 2^20. -/
def Obligations.UnconditionalJumps : Prop :=
  ∀ (d : Byte) (e : Half) (s : State),
    (∃ t, exec (.jmp d) s = .next t ∧ HoldsInt .tp ((s.reg .tp).toNat + d.toInt) t ∧
      Keeps [.tp] [] s t ∧ t.env = s.env ∧ SameBytes s t) ∧
    (∃ t, exec (.ljmp e) s = .next t ∧ HoldsInt .tp ((s.reg .tp).toNat + e.toInt) t ∧
      Keeps [.tp] [] s t ∧ t.env = s.env ∧ SameBytes s t)

/-- R207, R208, R205: the jump is taken by the whole register. -/
def Obligations.JumpsOnRegisters : Prop :=
  ∀ (r : Reg) (d : Imm) (s : State),
    let tp := (s.reg .tp).toNat
    (∃ t, exec (.jzR r d) s = .next t ∧
      HoldsInt .tp (if s.reg (rrrName r) = 0#20 then tp + immInt d else tp) t ∧
      Keeps [.tp] [] s t ∧ t.env = s.env ∧ SameBytes s t) ∧
    (∃ t, exec (.jnzR r d) s = .next t ∧
      HoldsInt .tp (if s.reg (rrrName r) = 0#20 then tp else tp + immInt d) t ∧
      Keeps [.tp] [] s t ∧ t.env = s.env ∧ SameBytes s t)

/-- R209, R210, R205: the operand is read, at its width, and `ix` post-incremented, whether or not the
jump is taken. -/
def Obligations.JumpsOnMemory : Prop :=
  ∀ (m : MemOp) (d : Imm) (w : Width) (s : State),
    let tp := (s.reg .tp).toNat
    (∃ t, exec (.jzM m d w) s = .next t ∧
      HoldsInt .tp (if operandOf w m s = 0#16 then tp + immInt d else tp) t ∧
      LoadsOnly .tp [] m w (operandRead w m s) s t) ∧
    (∃ t, exec (.jnzM m d w) s = .next t ∧
      HoldsInt .tp (if operandOf w m s = 0#16 then tp else tp + immInt d) t ∧
      LoadsOnly .tp [] m w (operandRead w m s) s t)

/-- R211, R212, R19: the byte is compared with the low byte of `mc` where the high byte has a 1. -/
def Obligations.MaskedCompareJumps : Prop :=
  ∀ (m : MemOp) (d : Imm) (s : State),
    let tp := (s.reg .tp).toNat
    (∃ t, exec (.jmce m d) s = .next t ∧
      HoldsInt .tp (if MaskMatches (operandByte m s) s.me.mc then tp + immInt d else tp) t ∧
      LoadsOnly .tp [] m .byte (operandRead .byte m s) s t) ∧
    (∃ t, exec (.jmcne m d) s = .next t ∧
      HoldsInt .tp (if MaskMatches (operandByte m s) s.me.mc then tp else tp + immInt d) t ∧
      LoadsOnly .tp [] m .byte (operandRead .byte m s) s t)

/-- R213, R214, R95: the jump is taken by one bit of the byte read. -/
def Obligations.BitTestJumps : Prop :=
  ∀ (m : MemOp) (b : BitVec 3) (d : Imm) (s : State),
    let tp := (s.reg .tp).toNat
    let bit := (operandByte m s).getLsbD b.toNat
    (∃ t, exec (.jbt m b d) s = .next t ∧
      HoldsInt .tp (if bit = true then tp + immInt d else tp) t ∧
      LoadsOnly .tp [] m .byte (operandRead .byte m s) s t) ∧
    (∃ t, exec (.jnbt m b d) s = .next t ∧
      HoldsInt .tp (if bit = true then tp else tp + immInt d) t ∧
      LoadsOnly .tp [] m .byte (operandRead .byte m s) s t)

/-- R215, R205: the address of the next instruction and `tag[tp]` are stored in the 3-byte form, then
the jump is made; no tag changes. -/
def Obligations.CallStoresTheReturnPointer : Prop :=
  ∀ (m : MemOp) (d : Imm) (s : State),
    ∃ t, exec (.call m d) s = .next t ∧ HoldsInt .tp ((s.reg .tp).toNat + immInt d) t ∧
      StoresOnly [.tp] 3 m .word s t ∧
      (Canonical s →
        StoredPointer (eaSpace m s) (eaAddr m s) (s.reg .tp) (s.tag .tp) t)

/-! ## The step -/

/-- R121, R122, R123, R74, R127: fetching a unit moves `tp` by the length its word gives, reads exactly
that many bytes, all from memory space whatever `tag[tp]` is, and changes nothing else. On a host that
plays RAM the unit is the one that stands at `tp`. -/
def Obligations.FetchReadsOneUnit : Prop :=
  ∀ s : State,
    let f := fetchUnit s
    let len := (Fields.ofWord f.1.word).length
    Keeps [.tp] [] s f.2 ∧ f.2.reg .tp = s.reg .tp + BitVec.ofNat 20 len ∧ SameBytes s f.2 ∧
    (∃ es, f.2.env.events = es ++ s.env.events ∧ (∀ e ∈ es, e.isMemRead = true) ∧
      bytesRead es = len) ∧
    (PlainHost s → PlainHost f.2 ∧
      ∃ rest, parseUnit (bytesAt s .mem (s.reg .tp) 7) = some (f.1, rest))

/-- R120, R121, R137: when the bytes at the stepped channel's `tp` decode to an instruction, the step
is `exec` of it in the state in which its bytes have been fetched (`tp` is past them and nothing else
but the log has changed); then, if `xp` was set before the instruction and the instruction did not
stop the channel, comes the DMA run. -/
def Obligations.StepRunsTheDecodedInstruction : Prop :=
  ∀ (c : ChanId) (rest : List HostAction) (i : Instr) (more : List Byte) (s : State),
    StepsNext c rest s → (s.chan c).status = .running → PlainHost s →
    s.env.params.execute = true →
    decode s.obligation.isSome (bytesAt s .mem (s.chan c).tp 6) = .ok (i, more) →
    let s1 := entered c rest s
    let u := (fetchUnit s1).2
    Keeps [.tp] [] s1 u ∧ SameBytes s u ∧ PlainHost u ∧
    u.reg .tp = (s.chan c).tp + BitVec.ofNat 20 (encode i).length ∧
    step s = (match exec i u with
      | .next t => .next (if (s.chan c).xp = true ∧ t.me.status = .running then dmaRun t else t)
      | .fault r => .fault r
      | .refused r => .refused r)

/-- R124, R127, R263, R262, R125, R137: when the validator rejects the word fetched, the step's only
effects are the fetch and the stop, with the validator's reason. With validation switched off a word
whose opcode has no execution rule stops the channel with `UnknownOpcode`, and the model refuses any
other (the source defines nothing for it; log entry 11). With execution switched off a step only
fetches and validates, and with both switched off it only fetches. -/
def Obligations.RejectedWords : Prop :=
  ∀ (c : ChanId) (rest : List HostAction) (s : State), StepsNext c rest s →
    (s.chan c).status = .running →
    let f := fetchUnit (entered c rest s)
    let opc := (Fields.ofWord f.1.word).opc
    (∀ r, decodeUnit s.obligation.isSome f.1 = .error r →
      (s.env.params.validate = true → ∃ t, step s = .next t ∧
        StopsWith (.failed (.invalidEncoding r)) (.faulted (.invalidEncoding r)) f.2 t) ∧
      (s.env.params.validate = false → s.env.params.execute = true →
        (descriptor opc = none ∨ opc = 0x25#6 ∨ opc = 0x33#6 ∧ s.obligation = none →
          ∃ t, step s = .next t ∧
            StopsWith (.failed .unknownOpcode) (.faulted .unknownOpcode) f.2 t) ∧
        (descriptor opc ≠ none ∧ opc ≠ 0x25#6 ∧ (opc = 0x33#6 → s.obligation ≠ none) →
          step s = .refused (.unvalidatedWord r)))) ∧
    (∀ i, decodeUnit s.obligation.isSome f.1 = .ok i → s.env.params.execute = false →
      step s = .next f.2) ∧
    (s.env.params.validate = false → s.env.params.execute = false → step s = .next f.2)

/-- R29, R279: a channel that is not running takes no step: the host's call is used up and nothing else
changes. (Read from those rules by inference, log entry 7.) -/
def Obligations.StoppedChannelTakesNoStep : Prop :=
  ∀ (c : ChanId) (rest : List HostAction) (s : State), StepsNext c rest s →
    (s.chan c).status ≠ .running → step s = .next (entered c rest s)

/-! ## The DMA engine -/

/-- R236, R265: a run that starts with bit 13 of `cc` set stops the channel with `UnsupportedFeature`
before anything moves. -/
def Obligations.TranslateModeIsUnsupported : Prop :=
  ∀ s : State, s.me.cc.getLsbD 13 = true →
    StopsWith (.failed .unsupportedFeature) (.faulted .unsupportedFeature) s (dmaRun s)

/-- R237 to R240, R251, R272: the three checks in their order, each with the skip of its class.
`EXT` is sampled, once, only if the external class is enabled. (That a sample takes the next level of
a queue, or the level itself when the queue is empty, is the model's choice, log entry 5.) -/
def Obligations.TerminationChecks : Prop :=
  ∀ (latch : Option Bool) (s : State),
    let cc := s.me.cc
    let ext := (s.pin s.cur).later.headD (s.pin s.cur).level
    let c := dmaCheck latch s
    c.1 = (if fieldTx cc ≠ 0 ∧ ext = false then some (skipOf (fieldTx cc))
      else if fieldTbc cc ≠ 0 ∧ s.me.bc = 0#16 then some (skipOf (fieldTbc cc))
      else if fieldTmc cc ≠ 0 ∧
          (cc.getLsbD 2 = false ∧ latch = some true ∨ cc.getLsbD 2 = true ∧ latch = some false) then
        some (skipOf (fieldTmc cc))
      else none) ∧
    (fieldTx cc = 0 → c.2 = s) ∧
    (fieldTx cc ≠ 0 → c.2 =
      { s.setPin s.cur ⟨ext, (s.pin s.cur).later.tail⟩ with env :=
        { (s.setPin s.cur ⟨ext, (s.pin s.cur).later.tail⟩).env with
          events := .extSample s.cur ext :: s.env.events } })

/-- R238, R239, R250: a run whose first check fires moves nothing: `xp` is cleared, `tp` gets the skip,
and nothing is accessed. -/
def Obligations.RunCanEndBeforeTheFirstUnit : Prop :=
  ∀ (sk : Addr) (s : State), s.me.cc.getLsbD 13 = false → s.me.cc.getLsbD 7 = false →
    (dmaCheck none s).1 = some sk →
    let t := dmaRun s
    t.me = { s.me with xp := false, tp := s.me.tp + sk } ∧ t.dma = .idle ∧
      (∀ c, c ≠ s.cur → t.chan c = s.chan c) ∧ SameBytes s t ∧
      ∃ es, t.env.events = es ++ s.env.events ∧ bytesRead es = 0 ∧ bytesWritten es = 0

/-- R241, R250, R248, R234: in single-transfer mode exactly one unit moves, whatever `bc` and `EXT`
are, and the run ends with skip 0. -/
def Obligations.SingleTransfer : Prop :=
  ∀ s : State, s.me.cc.getLsbD 13 = false → s.me.cc.getLsbD 7 = true →
    let t := dmaRun s
    let k := unitBytes s
    let src := if s.me.cc.getLsbD 10 = true then RegName.gb else RegName.ga
    let dst := if s.me.cc.getLsbD 10 = true then RegName.ga else RegName.gb
    Keeps [.ga, .gb, .bc] [] (ended s) t ∧
      t.me.bc = s.me.bc - BitVec.ofNat 16 k ∧
      t.reg src = steppedBy (s.me.cc.getLsbD 14) (s.reg src) k ∧
      t.reg dst = steppedBy (s.me.cc.getLsbD 15) (s.reg dst) k ∧
      ∃ es, t.env.events = es ++ s.env.events ∧ bytesRead es = k ∧ bytesWritten es = k

/-- R232, R233, R242 to R247: on a host that plays RAM, one unit copies `k` bytes, low byte first, all
read before any is written. An 8-bit side whose increment is off uses one address again and again, so
that an 8-bit destination keeps the last byte. -/
def Obligations.UnitCopiesItsBytes : Prop :=
  ∀ s : State, Canonical s → PlainHost s →
    let t := (moveUnit s).st
    let k := unitBytes s
    let src := if s.me.cc.getLsbD 10 = true then RegName.gb else RegName.ga
    let dst := if s.me.cc.getLsbD 10 = true then RegName.ga else RegName.gb
    let from8 := s.me.wsrc = .byte ∧ s.me.cc.getLsbD 14 = false
    let to8 := s.me.wdst = .byte ∧ s.me.cc.getLsbD 15 = false
    let old := fun j => s.byteAt (s.tag src) (s.reg src + BitVec.ofNat 20 (if from8 then 0 else j))
    (moveUnit s).bytes.toNat = k ∧ SameBytesBut (s.tag dst) (s.reg dst) k s t ∧
    (moveUnit s).value.extractLsb' 0 8 = old 0 ∧
    (¬ to8 → ∀ j, j < k → t.byteAt (s.tag dst) (s.reg dst + BitVec.ofNat 20 j) = old j) ∧
    (to8 → t.byteAt (s.tag dst) (s.reg dst) = old (k - 1))

/-- R255, R235, R239, R252: a run with both increments on, both pointers in `MEM` and a count `N > 0`
ends; if it is not ended earlier (by the external condition or a masked compare), then exactly `N`
bytes have been read and written, both pointers have grown by `N`, `bc` and `xp` are 0, and nothing
else of the core has changed but `tp`, which has grown by the skip. -/
def Obligations.ByteCountRun : Prop :=
  ∀ s : State, s.dma = .idle → s.me.cc.getLsbD 13 = false → s.me.cc.getLsbD 7 = false →
    s.me.cc.getLsbD 14 = true → s.me.cc.getLsbD 15 = true → fieldTbc s.me.cc ≠ 0 →
    s.me.bc ≠ 0#16 →
    let t := dmaRun s
    let n := s.me.bc.toNat
    t.dma = .idle ∧ t.me.xp = false ∧ (fieldTx s.me.cc = 0 → fieldTmc s.me.cc = 0 →
      t.me.bc = 0#16 ∧ t.reg .tp = s.reg .tp + skipOf (fieldTbc s.me.cc)) ∧
    (t.me.bc = 0#16 →
      t.reg .ga = s.reg .ga + BitVec.ofNat 20 n ∧ t.reg .gb = s.reg .gb + BitVec.ofNat 20 n ∧
      (∀ r, r ∉ [RegName.ga, .gb, .bc, .tp] → t.reg r = s.reg r) ∧ t.me.tags = s.me.tags ∧
      t.me.wsrc = s.me.wsrc ∧ t.me.wdst = s.me.wdst ∧ t.me.status = s.me.status ∧
      (∀ c, c ≠ s.cur → t.chan c = s.chan c) ∧
      ∃ es, t.env.events = es ++ s.env.events ∧ bytesRead es = n ∧ bytesWritten es = n)

/-- R242 to R248, R255, R257: on a host that plays RAM, a byte-count run in any width mode between two
ranges that share no byte copies the source range to the destination range, and leaves every other
byte alone. -/
def Obligations.BlockCopy : Prop :=
  ∀ s : State, Canonical s → PlainHost s → s.dma = .idle →
    s.me.cc.getLsbD 13 = false → s.me.cc.getLsbD 7 = false →
    s.me.cc.getLsbD 14 = true → s.me.cc.getLsbD 15 = true →
    fieldTx s.me.cc = 0 → fieldTmc s.me.cc = 0 → fieldTbc s.me.cc ≠ 0 →
    let n := s.me.bc.toNat
    let src := if s.me.cc.getLsbD 10 = true then RegName.gb else RegName.ga
    let dst := if s.me.cc.getLsbD 10 = true then RegName.ga else RegName.gb
    (∀ j k, j < n → k < n → ¬ (s.tag src = s.tag dst ∧
      mask (s.tag src) (s.reg src + BitVec.ofNat 20 j) =
        mask (s.tag src) (s.reg dst + BitVec.ofNat 20 k))) →
    let t := dmaRun s
    t.me.bc = 0#16 ∧ SameBytesBut (s.tag dst) (s.reg dst) n s t ∧
    ∀ j, j < n → t.byteAt (s.tag dst) (s.reg dst + BitVec.ofNat 20 j) =
      s.byteAt (s.tag src) (s.reg src + BitVec.ofNat 20 j)

/-- R240, R249, R237: with only the masked compare enabled, a run whose first unit meets the condition
(its low byte matches `mc` and `TMCN` is 0, or it does not and `TMCN` is 1) moves that unit completely,
counts it, and ends with the class's skip. -/
def Obligations.MaskedCompareEndsTheRun : Prop :=
  ∀ s : State, s.me.cc.getLsbD 13 = false → s.me.cc.getLsbD 7 = false → fieldTx s.me.cc = 0 →
    fieldTbc s.me.cc = 0 → fieldTmc s.me.cc ≠ 0 →
    (MaskMatches ((moveUnit s).value.extractLsb' 0 8) s.me.mc ↔ s.me.cc.getLsbD 2 = false) →
    let t := dmaRun s
    t.me = { (moveUnit s).st.me with
      bc := s.me.bc - BitVec.ofNat 16 (unitBytes s)
      xp := false
      tp := s.me.tp + skipOf (fieldTmc s.me.cc) } ∧
    t.env = (moveUnit s).st.env ∧ t.dma = .idle

/-- R252: how many units one evaluation of the loop may move only splits a run: a run that is cut after
`n` units and goes on for `k` is the run of `n + k` units. (What cuts a run into model steps is the
model's choice, log entry 8.) -/
def Obligations.CutRunsGoOn : Prop :=
  ∀ (n k : Nat) (latch : Option Bool) (s : State), s.dma = .idle →
    continueRun k (dmaLoop n latch s) = dmaLoop (n + k) latch s

/-- R231, R136: a run writes no tag, none of `gc`, `ix`, `cc`, `mc`, `pp`, not the width mode, and
nothing of the other channel, however it ends or is cut. -/
def Obligations.RunLeavesTheControlState : Prop :=
  ∀ s : State,
    let t := dmaRun s
    (∀ r, r ∉ [RegName.ga, .gb, .bc, .tp] → t.reg r = s.reg r) ∧ t.me.tags = s.me.tags ∧
      t.me.wsrc = s.me.wsrc ∧ t.me.wdst = s.me.wdst ∧ t.cur = s.cur ∧
      (∀ c, c ≠ s.cur → t.chan c = s.chan c)

/-! ## Reset, activation and host actions -/

/-- R30: every register of both channels is 0, every tag `MEM`, the width mode 8/8, `xp` 0 and the
status `Idle`; no store obligation and no run is under way. -/
def Obligations.ResetValues : Prop :=
  ∀ c : ChanId,
    let x := State.reset.chan c
    (∀ r, x.read r = 0#20) ∧ (∀ r, x.tags.get r = .mem) ∧ x.wsrc = .byte ∧ x.wdst = .byte ∧
      x.xp = false ∧ x.status = .idle ∧ State.reset.obligation = none ∧ State.reset.dma = .idle

/-- R290, R268, R303, R272: what the host does between steps. A reset sets both channels to their reset
values and touches nothing of the host's; a resume sets a faulted channel running; a store changes one
byte; driving `EXT` changes one level. (That these are scheduled steps of the model is its choice, log
entries 14 and 17.) -/
def Obligations.HostActions : Prop :=
  ∀ (c : ChanId) (sp : Space) (a : Addr) (b : Byte) (level : Bool) (rest : List HostAction)
    (s : State),
    (ActsNext .reset rest s → ∃ t, step s = .next t ∧
      (∀ d, t.chan d = State.reset.chan d) ∧ t.obligation = none ∧ t.dma = .idle ∧
      t.env = { s.env with schedule := rest }) ∧
    (ActsNext (.resume c) rest s → ∃ t, step s = .next t ∧
      t.chan c = (match (s.chan c).status with
        | .faulted _ => { s.chan c with status := .running }
        | _ => s.chan c) ∧
      (∀ d, d ≠ c → t.chan d = s.chan d) ∧ t.env = { s.env with schedule := rest }) ∧
    (ActsNext (.store sp a b) rest s → ∃ t, step s = .next t ∧
      t.ch0 = s.ch0 ∧ t.ch1 = s.ch1 ∧ SameBytesBut sp a 1 s t ∧ t.env.events = s.env.events ∧
      (Canonical s → t.byteAt sp a = b)) ∧
    (ActsNext (.drive c level) rest s → ∃ t, step s = .next t ∧
      t.ch0 = s.ch0 ∧ t.ch1 = s.ch1 ∧ SameBytes s t ∧
      t.pin c = { s.pin c with level := level } ∧ (∀ d, d ≠ c → t.pin d = s.pin d))

/-- R291, R292, R293: the bootstrap writes exactly `pp` and `tp`, their tags and the status of the
channel it activates; it reads 20 bytes of memory space and writes none. On a host that plays RAM the
two registers hold what the chain of segmented pointers gives. -/
def Obligations.BootstrapLoadsTheChannel : Prop :=
  ∀ (c : ChanId) (rest : List HostAction) (s : State), ActsNext (.activate c) rest s →
    ∃ t, step s = .next t ∧
      t.chan c = { s.chan c with
        pp := (t.chan c).pp
        tp := (t.chan c).tp
        tags := { (s.chan c).tags with pp := .mem, tp := .mem }
        status := .running } ∧
      (∀ d, d ≠ c → t.chan d = s.chan d) ∧ SameBytes s t ∧ t.obligation = s.obligation ∧
      t.dma = .idle ∧
      (∃ es, t.env.events = es ++ s.env.events ∧ (∀ e ∈ es, e.isMemRead = true) ∧
        bytesRead es = 20) ∧
      (PlainHost s →
        let scb := segmentedAt s 0xFFFF8#20
        let cb := segmentedAt s (scb + 2#20)
        let ccb := cb + (match c with
          | .ch0 => 0#20
          | .ch1 => 8#20)
        (t.chan c).pp = segmentedAt s (ccb + 2#20) ∧
          (t.chan c).tp = segmentedAt s ((t.chan c).pp))

/-! ## The whole machine -/

/-- The invariant holds after reset (R30; log entries 3, 8 and 9 for the model's own part of it). -/
def Obligations.InvariantAtReset : Prop :=
  Inv State.reset

/-- R20, R27, R28, R29, R30: every step keeps the invariant: both memories canonical and within their
spaces, no store obligation between steps, a channel that was never activated as reset left it,
`tag[pp]` `MEM`, and a cut DMA run the run of a running channel with a transfer pending. (The canonical
form, the obligation's field and the cut run are the model's choices, log entries 3, 9 and 8.) -/
def Obligations.InvariantKeptByEveryStep : Prop :=
  ∀ s t : State, Inv s → step s = .next t → Inv t

/-- R280, R282, R126: with validation on every step has a next state: every instruction, once validated,
completes or stops the channel, and nothing faults or is refused. (R252 and R282 give a step whose
transfer never ends no outcome at all: that the model answers a next state there too, a run that has
been cut, is its choice, log entry 8. That a stop is a next state is read from R29 and R262 by
inference, log entry 1.) -/
def Obligations.EveryValidatedStepCompletes : Prop :=
  ∀ s : State, s.env.params.validate = true → ∃ t, step s = .next t

/-- R136, R21, R170(b): only the five loads write a tag, and only that of the register they load. -/
def Obligations.OnlyLoadsWriteTags : Prop :=
  ∀ (i : Instr) (s t : State) (r : RegName), exec i s = .next t → t.tag r ≠ s.tag r →
    (∃ q i' w, i = .moviR q i' w ∧ r = rrrName q) ∨ (∃ q m w, i = .movRM q m w ∧ r = rrrName q) ∨
    (∃ p m, i = .lpd p m ∧ r = pppName p) ∨ (∃ p o g, i = .lpdi p o g ∧ r = pppName p) ∨
    (∃ p m, i = .movpPM p m ∧ r = pppName p)

/-- R20: `pp` is written by an activation and by reset, and by nothing else. -/
def Obligations.OnlyActivationWritesPp : Prop :=
  ∀ (s t : State) (c : ChanId), step s = .next t → (t.chan c).pp ≠ (s.chan c).pp →
    ∃ rest, ActsNext (.activate c) rest s ∨ ActsNext .reset rest s

/-- R219, R266, R282: an instruction that leaves a running channel not running is `hlt`, `tsl` or
`mov M,M`. -/
def Obligations.OnlyStopsStopTheChannel : Prop :=
  ∀ (i : Instr) (s t : State), exec i s = .next t → s.me.status = .running →
    t.me.status ≠ .running →
    i = .hlt ∨ (∃ m j d, i = .tsl m j d) ∨ (∃ m w, i = .movMMLoad m w) ∨
      (∃ m w, i = .movMMStore m w)

/-- R10, R277: a step of one channel, with the DMA run it makes, leaves the other channel alone; so
does a run that goes on, and a host action for one channel. -/
def Obligations.ChannelsShareNoState : Prop :=
  ∀ (s t : State) (c : ChanId), step s = .next t →
    (match s.dma with
     | .suspended _ => c ≠ s.cur
     | .idle =>
       match s.env.schedule with
       | [] => c ≠ s.cur
       | .step d :: _ => c ≠ d
       | .activate d :: _ => c ≠ d
       | .resume d :: _ => c ≠ d
       | .reset :: _ => False
       | .store _ _ _ :: _ => True
       | .drive _ _ :: _ => True) →
    t.chan c = s.chan c
end

