-- ==== Sys2Proof/Laws/Memory.lean ====
section
/-! SUPPORT. The laws of contents: read after write, and every store keeps the canonical form. -/

namespace Sys2Proof.Machine

/-- An entry put before a memory reads as that byte, whether or not it is listed, if the address is
below every other. -/
theorem Memory.get_entry_same (a : Nat) (b : Byte) (rest : Memory)
    (h : Memory.get rest a = Config.unlistedByte) : Memory.get (Memory.entry a b rest) a = b := by
  unfold Memory.entry
  split
  · next hb => rw [h, hb]
  · simp [Memory.get]

theorem Memory.get_entry_other {a c : Nat} (b : Byte) (rest : Memory) (h : c ≠ a) :
    Memory.get (Memory.entry a b rest) c = Memory.get rest c := by
  unfold Memory.entry
  split
  · rfl
  · simp [Memory.get, Ne.symm h]

/-- Below its first address a canonical memory lists nothing. -/
theorem Memory.get_of_lt {lo a : Nat} : ∀ {m : Memory}, Memory.wfFrom lo m = true → a < lo →
    Memory.get m a = Config.unlistedByte
  | [], _, _ => rfl
  | (k, v) :: rest, h, ha => by
    simp only [Memory.wfFrom, Bool.and_eq_true, decide_eq_true_eq] at h
    have hk : k ≠ a := by omega
    simp only [Memory.get, hk, if_false]
    exact Memory.get_of_lt h.2 (by omega)

/-- A byte stored in a canonical memory is read back. -/
theorem Memory.get_set_same (a : Nat) (b : Byte) : ∀ {lo : Nat} {m : Memory},
    Memory.wfFrom lo m = true → Memory.get (Memory.set m a b) a = b
  | _, [], _ => Memory.get_entry_same a b [] rfl
  | lo, (k, v) :: rest, h => by
    simp only [Memory.wfFrom, Bool.and_eq_true, decide_eq_true_eq] at h
    unfold Memory.set
    split
    · next hlt =>
      refine Memory.get_entry_same a b _ ?_
      have hk : k ≠ a := by omega
      simp only [Memory.get, hk, if_false]
      exact Memory.get_of_lt h.2 (by omega)
    · split
      · next hlt heq =>
        exact Memory.get_entry_same a b _ (Memory.get_of_lt h.2 (by omega))
      · next hlt hne =>
        simp only [Memory.get, Ne.symm hne, if_false]
        exact Memory.get_set_same a b h.2

/-- A store leaves every other address alone. -/
theorem Memory.get_set_other {a c : Nat} (b : Byte) (h : c ≠ a) : ∀ (m : Memory),
    Memory.get (Memory.set m a b) c = Memory.get m c
  | [] => Memory.get_entry_other b [] h
  | (k, v) :: rest => by
    unfold Memory.set
    split
    · exact Memory.get_entry_other b _ h
    · split
      · next hlt heq =>
        rw [Memory.get_entry_other b _ h]
        have hk : k ≠ c := by omega
        simp [Memory.get, hk]
      · next hlt hne =>
        simp only [Memory.get]
        split
        · rfl
        · exact Memory.get_set_other b h rest

/-- A larger lower bound is stronger. -/
theorem Memory.wfFrom_mono {lo lo' : Nat} (hle : lo' ≤ lo) : ∀ {m : Memory},
    Memory.wfFrom lo m = true → Memory.wfFrom lo' m = true
  | [], _ => rfl
  | (k, v) :: rest, h => by
    simp only [Memory.wfFrom, Bool.and_eq_true, decide_eq_true_eq] at h ⊢
    exact ⟨⟨by omega, h.1.2⟩, h.2⟩

theorem Memory.wfFrom_entry {lo a : Nat} (b : Byte) {rest : Memory} (hlo : lo ≤ a)
    (h : Memory.wfFrom (a + 1) rest = true) : Memory.wfFrom lo (Memory.entry a b rest) = true := by
  unfold Memory.entry
  split
  · exact Memory.wfFrom_mono (by omega) h
  · next hb => simp [Memory.wfFrom, hlo, hb, h]

/-- A store keeps the addresses rising and lists no default byte. -/
theorem Memory.wfFrom_set (a : Nat) (b : Byte) : ∀ {lo : Nat} {m : Memory}, lo ≤ a →
    Memory.wfFrom lo m = true → Memory.wfFrom lo (Memory.set m a b) = true
  | _, [], hlo, _ => Memory.wfFrom_entry b hlo rfl
  | lo, (k, v) :: rest, hlo, h => by
    have h' := h
    simp only [Memory.wfFrom, Bool.and_eq_true, decide_eq_true_eq] at h'
    unfold Memory.set
    split
    · next hlt =>
      refine Memory.wfFrom_entry b hlo ?_
      simp only [Memory.wfFrom, Bool.and_eq_true, decide_eq_true_eq]
      exact ⟨⟨by omega, h'.1.2⟩, h'.2⟩
    · split
      · next hlt heq =>
        exact Memory.wfFrom_entry b hlo (by rw [heq]; exact h'.2)
      · next hlt hne =>
        simp only [Memory.wfFrom, Bool.and_eq_true, decide_eq_true_eq]
        exact ⟨h'.1, Memory.wfFrom_set a b (by omega) h'.2⟩

theorem Memory.below_entry {n a : Nat} (b : Byte) {rest : Memory} (ha : a < n)
    (h : Memory.below n rest = true) : Memory.below n (Memory.entry a b rest) = true := by
  unfold Memory.entry
  split
  · exact h
  · simp only [Memory.below, List.all_cons, Bool.and_eq_true, decide_eq_true_eq]
    exact ⟨ha, h⟩

/-- A store below the size of the space lists only addresses below it. -/
theorem Memory.below_set {n a : Nat} (b : Byte) (ha : a < n) : ∀ {m : Memory},
    Memory.below n m = true → Memory.below n (Memory.set m a b) = true
  | [], h => Memory.below_entry b ha h
  | (k, v) :: rest, h => by
    have h' := h
    simp only [Memory.below, List.all_cons, Bool.and_eq_true, decide_eq_true_eq] at h'
    unfold Memory.set
    split
    · exact Memory.below_entry b ha h
    · split
      · exact Memory.below_entry b ha h'.2
      · simp only [Memory.below, List.all_cons, Bool.and_eq_true, decide_eq_true_eq]
        exact ⟨h'.1, Memory.below_set b ha h'.2⟩

/-- Every store keeps the canonical form. -/
theorem Memory.wf_set {n a : Nat} (b : Byte) (ha : a < n) {m : Memory}
    (h : Memory.wf n m = true) : Memory.wf n (Memory.set m a b) = true := by
  simp only [Memory.wf, Bool.and_eq_true] at h ⊢
  exact ⟨Memory.wfFrom_set a b (Nat.zero_le a) h.1, Memory.below_set b ha h.2⟩

/-- A byte stored in a canonical memory is read back. -/
theorem Memory.get_set_same_of_wf {n : Nat} (a : Nat) (b : Byte) {m : Memory}
    (h : Memory.wf n m = true) : Memory.get (Memory.set m a b) a = b := by
  simp only [Memory.wf, Bool.and_eq_true] at h
  exact Memory.get_set_same a b h.1

end Sys2Proof.Machine
end

