-- ==== Sys2Proof/Laws/State.lean ====
section
/-! SUPPORT. The small lemmas of the state: what each update leaves in each field, so that no later
proof unfolds a record update. -/

namespace Sys2Proof.Machine

variable (s : State) (c : ChanId) (x y : Channel) (r q : RegName) (v : Addr) (sp sq : Space)

/-! ### setChan -/

@[simp] theorem State.setChan_cur : (s.setChan c x).cur = s.cur := rfl
@[simp] theorem State.setChan_obligation : (s.setChan c x).obligation = s.obligation := rfl
@[simp] theorem State.setChan_dma : (s.setChan c x).dma = s.dma := rfl
@[simp] theorem State.setChan_env : (s.setChan c x).env = s.env := rfl

/-! ### setMe -/

@[simp] theorem State.setMe_cur : (s.setMe x).cur = s.cur := rfl
@[simp] theorem State.setMe_obligation : (s.setMe x).obligation = s.obligation := rfl
@[simp] theorem State.setMe_dma : (s.setMe x).dma = s.dma := rfl
@[simp] theorem State.setMe_env : (s.setMe x).env = s.env := rfl

/-! ### setReg -/

@[simp] theorem State.setReg_cur : (s.setReg r v).cur = s.cur := rfl
@[simp] theorem State.setReg_obligation : (s.setReg r v).obligation = s.obligation := rfl
@[simp] theorem State.setReg_dma : (s.setReg r v).dma = s.dma := rfl
@[simp] theorem State.setReg_env : (s.setReg r v).env = s.env := rfl

/-! ### setTag -/

@[simp] theorem State.setTag_cur : (s.setTag r sp).cur = s.cur := rfl
@[simp] theorem State.setTag_obligation : (s.setTag r sp).obligation = s.obligation := rfl
@[simp] theorem State.setTag_dma : (s.setTag r sp).dma = s.dma := rfl
@[simp] theorem State.setTag_env : (s.setTag r sp).env = s.env := rfl

/-! ### setXp -/

@[simp] theorem State.setXp_cur (b : Bool) : (s.setXp b).cur = s.cur := rfl
@[simp] theorem State.setXp_obligation (b : Bool) : (s.setXp b).obligation = s.obligation := rfl
@[simp] theorem State.setXp_dma (b : Bool) : (s.setXp b).dma = s.dma := rfl
@[simp] theorem State.setXp_env (b : Bool) : (s.setXp b).env = s.env := rfl

/-! ### setWid -/

@[simp] theorem State.setWid_cur (wa wb : Width) : (s.setWid wa wb).cur = s.cur := rfl
@[simp] theorem State.setWid_obligation (wa wb : Width) : (s.setWid wa wb).obligation = s.obligation := rfl
@[simp] theorem State.setWid_dma (wa wb : Width) : (s.setWid wa wb).dma = s.dma := rfl
@[simp] theorem State.setWid_env (wa wb : Width) : (s.setWid wa wb).env = s.env := rfl

/-! ### setStatus -/

@[simp] theorem State.setStatus_cur (st : Status) : (s.setStatus st).cur = s.cur := rfl
@[simp] theorem State.setStatus_obligation (st : Status) : (s.setStatus st).obligation = s.obligation := rfl
@[simp] theorem State.setStatus_dma (st : Status) : (s.setStatus st).dma = s.dma := rfl
@[simp] theorem State.setStatus_env (st : Status) : (s.setStatus st).env = s.env := rfl

/-! ### emit -/

@[simp] theorem State.emit_ch0 (e : Event) : (s.emit e).ch0 = s.ch0 := rfl
@[simp] theorem State.emit_ch1 (e : Event) : (s.emit e).ch1 = s.ch1 := rfl
@[simp] theorem State.emit_cur (e : Event) : (s.emit e).cur = s.cur := rfl
@[simp] theorem State.emit_obligation (e : Event) : (s.emit e).obligation = s.obligation := rfl
@[simp] theorem State.emit_dma (e : Event) : (s.emit e).dma = s.dma := rfl
@[simp] theorem State.emit_mem (e : Event) : (s.emit e).env.mem = s.env.mem := rfl
@[simp] theorem State.emit_io (e : Event) : (s.emit e).env.io = s.env.io := rfl
@[simp] theorem State.emit_answers (e : Event) : (s.emit e).env.answers = s.env.answers := rfl
@[simp] theorem State.emit_ext0 (e : Event) : (s.emit e).env.ext0 = s.env.ext0 := rfl
@[simp] theorem State.emit_ext1 (e : Event) : (s.emit e).env.ext1 = s.env.ext1 := rfl
@[simp] theorem State.emit_schedule (e : Event) : (s.emit e).env.schedule = s.env.schedule := rfl
@[simp] theorem State.emit_params (e : Event) : (s.emit e).env.params = s.env.params := rfl

/-! ### nextAnswer -/

@[simp] theorem State.nextAnswer_ch0 : (s.nextAnswer).ch0 = s.ch0 := rfl
@[simp] theorem State.nextAnswer_ch1 : (s.nextAnswer).ch1 = s.ch1 := rfl
@[simp] theorem State.nextAnswer_cur : (s.nextAnswer).cur = s.cur := rfl
@[simp] theorem State.nextAnswer_obligation : (s.nextAnswer).obligation = s.obligation := rfl
@[simp] theorem State.nextAnswer_dma : (s.nextAnswer).dma = s.dma := rfl
@[simp] theorem State.nextAnswer_mem : (s.nextAnswer).env.mem = s.env.mem := rfl
@[simp] theorem State.nextAnswer_io : (s.nextAnswer).env.io = s.env.io := rfl
@[simp] theorem State.nextAnswer_ext0 : (s.nextAnswer).env.ext0 = s.env.ext0 := rfl
@[simp] theorem State.nextAnswer_ext1 : (s.nextAnswer).env.ext1 = s.env.ext1 := rfl
@[simp] theorem State.nextAnswer_schedule : (s.nextAnswer).env.schedule = s.env.schedule := rfl
@[simp] theorem State.nextAnswer_events : (s.nextAnswer).env.events = s.env.events := rfl
@[simp] theorem State.nextAnswer_params : (s.nextAnswer).env.params = s.env.params := rfl

/-! ### setContents -/

@[simp] theorem State.setContents_ch0 (m : Memory) : (s.setContents sp m).ch0 = s.ch0 := rfl
@[simp] theorem State.setContents_ch1 (m : Memory) : (s.setContents sp m).ch1 = s.ch1 := rfl
@[simp] theorem State.setContents_cur (m : Memory) : (s.setContents sp m).cur = s.cur := rfl
@[simp] theorem State.setContents_obligation (m : Memory) : (s.setContents sp m).obligation = s.obligation := rfl
@[simp] theorem State.setContents_dma (m : Memory) : (s.setContents sp m).dma = s.dma := rfl
@[simp] theorem State.setContents_answers (m : Memory) : (s.setContents sp m).env.answers = s.env.answers := rfl
@[simp] theorem State.setContents_ext0 (m : Memory) : (s.setContents sp m).env.ext0 = s.env.ext0 := rfl
@[simp] theorem State.setContents_ext1 (m : Memory) : (s.setContents sp m).env.ext1 = s.env.ext1 := rfl
@[simp] theorem State.setContents_schedule (m : Memory) : (s.setContents sp m).env.schedule = s.env.schedule := rfl
@[simp] theorem State.setContents_events (m : Memory) : (s.setContents sp m).env.events = s.env.events := rfl
@[simp] theorem State.setContents_params (m : Memory) : (s.setContents sp m).env.params = s.env.params := rfl

/-! ### setByte -/

@[simp] theorem State.setByte_ch0 (by8 : Byte) : (s.setByte sp v by8).ch0 = s.ch0 := rfl
@[simp] theorem State.setByte_ch1 (by8 : Byte) : (s.setByte sp v by8).ch1 = s.ch1 := rfl
@[simp] theorem State.setByte_cur (by8 : Byte) : (s.setByte sp v by8).cur = s.cur := rfl
@[simp] theorem State.setByte_obligation (by8 : Byte) : (s.setByte sp v by8).obligation = s.obligation := rfl
@[simp] theorem State.setByte_dma (by8 : Byte) : (s.setByte sp v by8).dma = s.dma := rfl
@[simp] theorem State.setByte_answers (by8 : Byte) : (s.setByte sp v by8).env.answers = s.env.answers := rfl
@[simp] theorem State.setByte_ext0 (by8 : Byte) : (s.setByte sp v by8).env.ext0 = s.env.ext0 := rfl
@[simp] theorem State.setByte_ext1 (by8 : Byte) : (s.setByte sp v by8).env.ext1 = s.env.ext1 := rfl
@[simp] theorem State.setByte_schedule (by8 : Byte) : (s.setByte sp v by8).env.schedule = s.env.schedule := rfl
@[simp] theorem State.setByte_events (by8 : Byte) : (s.setByte sp v by8).env.events = s.env.events := rfl
@[simp] theorem State.setByte_params (by8 : Byte) : (s.setByte sp v by8).env.params = s.env.params := rfl

/-! ### setPin -/

@[simp] theorem State.setPin_ch0 (p : ExtPin) : (s.setPin c p).ch0 = s.ch0 := rfl
@[simp] theorem State.setPin_ch1 (p : ExtPin) : (s.setPin c p).ch1 = s.ch1 := rfl
@[simp] theorem State.setPin_cur (p : ExtPin) : (s.setPin c p).cur = s.cur := rfl
@[simp] theorem State.setPin_obligation (p : ExtPin) : (s.setPin c p).obligation = s.obligation := rfl
@[simp] theorem State.setPin_dma (p : ExtPin) : (s.setPin c p).dma = s.dma := rfl
@[simp] theorem State.setPin_mem (p : ExtPin) : (s.setPin c p).env.mem = s.env.mem := rfl
@[simp] theorem State.setPin_io (p : ExtPin) : (s.setPin c p).env.io = s.env.io := rfl
@[simp] theorem State.setPin_answers (p : ExtPin) : (s.setPin c p).env.answers = s.env.answers := rfl
@[simp] theorem State.setPin_schedule (p : ExtPin) : (s.setPin c p).env.schedule = s.env.schedule := rfl
@[simp] theorem State.setPin_events (p : ExtPin) : (s.setPin c p).env.events = s.env.events := rfl
@[simp] theorem State.setPin_params (p : ExtPin) : (s.setPin c p).env.params = s.env.params := rfl

/-! ### Updates of what they change -/

@[simp] theorem State.emit_events (e : Event) : (s.emit e).env.events = e :: s.env.events := rfl
@[simp] theorem State.nextAnswer_answers : s.nextAnswer.env.answers = s.env.answers.tail := rfl

/-! ### The channel that is executing -/

@[simp] theorem State.chan_setChan_same : (s.setChan c x).chan c = x := by cases c <;> rfl

theorem State.chan_setChan_other {c d : ChanId} (h : d ≠ c) :
    (s.setChan c x).chan d = s.chan d := by
  cases c <;> cases d <;> first | rfl | exact absurd rfl h

@[simp] theorem State.me_setMe : (s.setMe x).me = x := s.chan_setChan_same s.cur x

theorem State.chan_setMe_other {d : ChanId} (h : d ≠ s.cur) : (s.setMe x).chan d = s.chan d :=
  s.chan_setChan_other x h

@[simp] theorem State.setChan_setChan : (s.setChan c x).setChan c y = s.setChan c y := by
  cases c <;> rfl

@[simp] theorem State.setMe_setMe : (s.setMe x).setMe y = s.setMe y := s.setChan_setChan s.cur x y

@[simp] theorem State.setMe_me : s.setMe s.me = s := by
  unfold State.setMe State.me
  cases s.cur <;> rfl

/-- Two states with the same channels and the same choice have the same executing channel. -/
theorem State.me_congr {s t : State} (h0 : t.ch0 = s.ch0) (h1 : t.ch1 = s.ch1)
    (hc : t.cur = s.cur) : t.me = s.me := by
  unfold State.me State.chan; rw [hc, h0, h1]

@[simp] theorem State.emit_me (e : Event) : (s.emit e).me = s.me := rfl
@[simp] theorem State.nextAnswer_me : s.nextAnswer.me = s.me := rfl
@[simp] theorem State.setContents_me (m : Memory) : (s.setContents sp m).me = s.me := rfl
@[simp] theorem State.setByte_me (b : Byte) : (s.setByte sp v b).me = s.me := rfl
@[simp] theorem State.setPin_me (p : ExtPin) : (s.setPin c p).me = s.me := rfl
@[simp] theorem State.setReg_me : (s.setReg r v).me = s.me.write r v := s.me_setMe _
@[simp] theorem State.setTag_me :
    (s.setTag r sp).me = { s.me with tags := s.me.tags.set r sp } := s.me_setMe _
@[simp] theorem State.setXp_me (b : Bool) : (s.setXp b).me = { s.me with xp := b } := s.me_setMe _
@[simp] theorem State.setWid_me (a b : Width) :
    (s.setWid a b).me = { s.me with wsrc := a, wdst := b } := s.me_setMe _
@[simp] theorem State.setStatus_me (z : Status) :
    (s.setStatus z).me = { s.me with status := z } := s.me_setMe _

theorem State.chan_setReg_other {d : ChanId} (h : d ≠ s.cur) : (s.setReg r v).chan d = s.chan d :=
  s.chan_setMe_other _ h
theorem State.chan_setTag_other {d : ChanId} (h : d ≠ s.cur) : (s.setTag r sp).chan d = s.chan d :=
  s.chan_setMe_other _ h
theorem State.chan_setXp_other (b : Bool) {d : ChanId} (h : d ≠ s.cur) :
    (s.setXp b).chan d = s.chan d := s.chan_setMe_other _ h
theorem State.chan_setWid_other (a b : Width) {d : ChanId} (h : d ≠ s.cur) :
    (s.setWid a b).chan d = s.chan d := s.chan_setMe_other _ h
theorem State.chan_setStatus_other (z : Status) {d : ChanId} (h : d ≠ s.cur) :
    (s.setStatus z).chan d = s.chan d := s.chan_setMe_other _ h

/-! ### Channels -/

@[simp] theorem Channel.write_tags : (x.write r v).tags = x.tags := by cases r <;> rfl
@[simp] theorem Channel.write_wsrc : (x.write r v).wsrc = x.wsrc := by cases r <;> rfl
@[simp] theorem Channel.write_wdst : (x.write r v).wdst = x.wdst := by cases r <;> rfl
@[simp] theorem Channel.write_xp : (x.write r v).xp = x.xp := by cases r <;> rfl
@[simp] theorem Channel.write_status : (x.write r v).status = x.status := by cases r <;> rfl

/-- A register write leaves every other register alone. -/
theorem Channel.read_write_other {r q : RegName} (h : q ≠ r) : (x.write r v).read q = x.read q := by
  cases r <;> cases q <;> first | rfl | exact absurd rfl h

/-- A register holds the value written to it, cut to its width (R12). -/
@[simp] theorem Channel.read_write_same : (x.write r v).read r = cutReg r v := by cases r <;> rfl

/-- What a register keeps of a value is the value modulo 2 to its width (R12). -/
theorem cutReg_toNat : (cutReg r v).toNat = v.toNat % 2 ^ regWidth r := by
  have h := v.isLt
  cases r <;> simp [cutReg, regWidth] <;> omega

/-- A register's value is already cut to its width. -/
@[simp] theorem Channel.cutReg_read : cutReg r (x.read r) = x.read r := by
  cases r <;> simp [cutReg, Channel.read]

/-- Writing a register twice keeps the second value. -/
@[simp] theorem Channel.write_write (w : Addr) : (x.write r v).write r w = x.write r w := by
  cases r <;> rfl

@[simp] theorem Channel.read_with_tags (t : Tags) : ({ x with tags := t } : Channel).read r = x.read r := by
  cases r <;> rfl
@[simp] theorem Channel.read_with_xp (b : Bool) : ({ x with xp := b } : Channel).read r = x.read r := by
  cases r <;> rfl
@[simp] theorem Channel.read_with_wid (a b : Width) :
    ({ x with wsrc := a, wdst := b } : Channel).read r = x.read r := by cases r <;> rfl
@[simp] theorem Channel.read_with_status (z : Status) :
    ({ x with status := z } : Channel).read r = x.read r := by cases r <;> rfl

@[simp] theorem Tags.get_set_same (t : Tags) : (t.set r sp).get r = sp := by cases r <;> rfl

theorem Tags.get_set_other (t : Tags) {r q : RegName} (h : q ≠ r) : (t.set r sp).get q = t.get q := by
  cases r <;> cases q <;> first | rfl | exact absurd rfl h

/-! ### Registers and tags of the executing channel -/

@[simp] theorem State.reg_setReg_same : (s.setReg r v).reg r = cutReg r v := by simp [State.reg]

/-- A register's value is already cut to its width (R12). -/
@[simp] theorem State.cutReg_reg : cutReg r (s.reg r) = s.reg r := s.me.cutReg_read r

theorem State.reg_setReg_other {r q : RegName} (h : q ≠ r) : (s.setReg r v).reg q = s.reg q := by
  simp [State.reg, Channel.read_write_other _ _ h]

@[simp] theorem State.reg_setTag : (s.setTag r sp).reg q = s.reg q := by simp [State.reg]
@[simp] theorem State.reg_setXp (b : Bool) : (s.setXp b).reg q = s.reg q := by simp [State.reg]
@[simp] theorem State.reg_setWid (a b : Width) : (s.setWid a b).reg q = s.reg q := by
  simp [State.reg]
@[simp] theorem State.reg_setStatus (z : Status) : (s.setStatus z).reg q = s.reg q := by
  simp [State.reg]
@[simp] theorem State.reg_emit (e : Event) : (s.emit e).reg q = s.reg q := rfl
@[simp] theorem State.reg_nextAnswer : s.nextAnswer.reg q = s.reg q := rfl
@[simp] theorem State.reg_setContents (m : Memory) : (s.setContents sp m).reg q = s.reg q := rfl
@[simp] theorem State.reg_setByte (b : Byte) : (s.setByte sp v b).reg q = s.reg q := rfl
@[simp] theorem State.reg_setPin (p : ExtPin) : (s.setPin c p).reg q = s.reg q := rfl

@[simp] theorem State.tag_setReg : (s.setReg r v).tag q = s.tag q := by simp [State.tag]
@[simp] theorem State.tag_setTag_same : (s.setTag r sp).tag r = sp := by simp [State.tag]
theorem State.tag_setTag_other {r q : RegName} (h : q ≠ r) : (s.setTag r sp).tag q = s.tag q := by
  simp [State.tag, Tags.get_set_other _ _ h]
@[simp] theorem State.tag_setXp (b : Bool) : (s.setXp b).tag q = s.tag q := by simp [State.tag]
@[simp] theorem State.tag_setWid (a b : Width) : (s.setWid a b).tag q = s.tag q := by
  simp [State.tag]
@[simp] theorem State.tag_setStatus (z : Status) : (s.setStatus z).tag q = s.tag q := by
  simp [State.tag]
@[simp] theorem State.tag_emit (e : Event) : (s.emit e).tag q = s.tag q := rfl
@[simp] theorem State.tag_nextAnswer : s.nextAnswer.tag q = s.tag q := rfl
@[simp] theorem State.tag_setContents (m : Memory) : (s.setContents sp m).tag q = s.tag q := rfl
@[simp] theorem State.tag_setByte (b : Byte) : (s.setByte sp v b).tag q = s.tag q := rfl
@[simp] theorem State.tag_setPin (p : ExtPin) : (s.setPin c p).tag q = s.tag q := rfl

/-! ### Bytes of the plain contents -/

@[simp] theorem State.contents_setContents_same (m : Memory) :
    (s.setContents sp m).contents sp = m := by cases sp <;> rfl
theorem State.contents_setContents_other (m : Memory) {sp sq : Space} (h : sq ≠ sp) :
    (s.setContents sp m).contents sq = s.contents sq := by
  cases sp <;> cases sq <;> first | rfl | exact absurd rfl h

/-- The bytes of the contents depend on the two memories alone. -/
theorem State.byteAt_congr {s t : State} (hm : t.env.mem = s.env.mem) (hi : t.env.io = s.env.io)
    (a : Addr) : t.byteAt sp a = s.byteAt sp a := by
  cases sp <;> simp [State.byteAt, State.contents, hm, hi]

@[simp] theorem State.byteAt_setChan (a : Addr) : (s.setChan c x).byteAt sp a = s.byteAt sp a :=
  State.byteAt_congr sp rfl rfl a
@[simp] theorem State.byteAt_setMe (a : Addr) : (s.setMe x).byteAt sp a = s.byteAt sp a :=
  State.byteAt_congr sp rfl rfl a
@[simp] theorem State.byteAt_setReg (a : Addr) : (s.setReg r v).byteAt sp a = s.byteAt sp a :=
  State.byteAt_congr sp rfl rfl a
@[simp] theorem State.byteAt_setTag (a : Addr) : (s.setTag r sp).byteAt sq a = s.byteAt sq a :=
  State.byteAt_congr sq rfl rfl a
@[simp] theorem State.byteAt_setXp (b : Bool) (a : Addr) : (s.setXp b).byteAt sp a = s.byteAt sp a :=
  State.byteAt_congr sp rfl rfl a
@[simp] theorem State.byteAt_setWid (wa wb : Width) (a : Addr) :
    (s.setWid wa wb).byteAt sp a = s.byteAt sp a := State.byteAt_congr sp rfl rfl a
@[simp] theorem State.byteAt_setStatus (z : Status) (a : Addr) :
    (s.setStatus z).byteAt sp a = s.byteAt sp a := State.byteAt_congr sp rfl rfl a
@[simp] theorem State.byteAt_emit (e : Event) (a : Addr) : (s.emit e).byteAt sp a = s.byteAt sp a :=
  State.byteAt_congr sp rfl rfl a
@[simp] theorem State.byteAt_nextAnswer (a : Addr) : s.nextAnswer.byteAt sp a = s.byteAt sp a :=
  State.byteAt_congr sp rfl rfl a
@[simp] theorem State.byteAt_setPin (p : ExtPin) (a : Addr) :
    (s.setPin c p).byteAt sp a = s.byteAt sp a := State.byteAt_congr sp rfl rfl a

end Sys2Proof.Machine
end

