-- ==== Sys2Proof/Laws/Access.lean ====
section
/-! SUPPORT. The access layer: what a read and a write can do, said once. A read changes the answers
and the log and nothing else; a write changes the bytes it stores and the log and nothing else. -/

namespace Sys2Proof.Machine

/-! ## Addresses -/

@[simp] theorem mask_mem (a : Addr) : mask .mem a = a := rfl

@[simp] theorem mask_mask (sp : Space) (a : Addr) : mask sp (mask sp a) = mask sp a := by
  cases sp
  · rfl
  · simp [mask, BitVec.and_assoc]

theorem mask_toNat (sp : Space) (a : Addr) : (mask sp a).toNat = a.toNat % spaceSize sp := by
  have h := a.isLt
  cases sp
  · simp only [mask, spaceSize]; omega
  · have e : (0x0FFFF#20).toNat = 2 ^ 16 - 1 := rfl
    simp only [mask, spaceSize, BitVec.toNat_and, e, Nat.and_two_pow_sub_one_eq_mod]

/-- Masking before an addition does not change the masked sum. -/
@[simp] theorem mask_mask_add (sp : Space) (a b : Addr) : mask sp (mask sp a + b) = mask sp (a + b) := by
  apply BitVec.eq_of_toNat_eq
  have hs : spaceSize sp ∣ 2 ^ 20 := by cases sp <;> decide
  simp only [mask_toNat, BitVec.toNat_add]
  rw [Nat.mod_mod_of_dvd _ hs, Nat.mod_mod_of_dvd _ hs, Nat.mod_add_mod]

theorem mask_lt (sp : Space) (a : Addr) : (mask sp a).toNat < spaceSize sp := by
  rw [mask_toNat]
  cases sp <;> exact Nat.mod_lt _ (by decide)

/-- The masked addresses of two bytes that follow one another differ. -/
theorem mask_succ_ne (sp : Space) (a : Addr) : mask sp (a + 1#20) ≠ mask sp a := by
  intro h
  have h' := congrArg BitVec.toNat h
  simp only [mask_toNat, BitVec.toNat_add, BitVec.toNat_ofNat] at h'
  have := a.isLt
  cases sp <;> simp only [spaceSize] at h' <;> omega

/-! ## The updates of the host's side -/

/-- The host has given answers and seen events. -/
def State.bus (s : State) (ans : List (Option Half)) (es : List Event) : State :=
  { s with env := { s.env with answers := ans, events := es } }

/-- The host has seen events, the newest first. -/
def State.logged (s : State) (es : List Event) : State :=
  { s with env := { s.env with events := es ++ s.env.events } }

section
variable (s : State) (ans : List (Option Half)) (es fs : List Event) (r q : RegName) (v : Addr)
  (sp sq : Space) (b : Byte) (c : ChanId)

@[simp] theorem State.bus_ch0 : (s.bus ans es).ch0 = s.ch0 := rfl
@[simp] theorem State.bus_ch1 : (s.bus ans es).ch1 = s.ch1 := rfl
@[simp] theorem State.bus_cur : (s.bus ans es).cur = s.cur := rfl
@[simp] theorem State.bus_obligation : (s.bus ans es).obligation = s.obligation := rfl
@[simp] theorem State.bus_dma : (s.bus ans es).dma = s.dma := rfl
@[simp] theorem State.bus_mem : (s.bus ans es).env.mem = s.env.mem := rfl
@[simp] theorem State.bus_io : (s.bus ans es).env.io = s.env.io := rfl
@[simp] theorem State.bus_answers : (s.bus ans es).env.answers = ans := rfl
@[simp] theorem State.bus_events : (s.bus ans es).env.events = es := rfl
@[simp] theorem State.bus_ext0 : (s.bus ans es).env.ext0 = s.env.ext0 := rfl
@[simp] theorem State.bus_ext1 : (s.bus ans es).env.ext1 = s.env.ext1 := rfl
@[simp] theorem State.bus_schedule : (s.bus ans es).env.schedule = s.env.schedule := rfl
@[simp] theorem State.bus_params : (s.bus ans es).env.params = s.env.params := rfl
@[simp] theorem State.bus_me : (s.bus ans es).me = s.me := rfl
@[simp] theorem State.bus_chan : (s.bus ans es).chan c = s.chan c := by cases c <;> rfl
@[simp] theorem State.bus_reg : (s.bus ans es).reg r = s.reg r := rfl
@[simp] theorem State.bus_tag : (s.bus ans es).tag r = s.tag r := rfl
@[simp] theorem State.bus_pin : (s.bus ans es).pin c = s.pin c := by cases c <;> rfl
@[simp] theorem State.bus_byteAt (a : Addr) : (s.bus ans es).byteAt sp a = s.byteAt sp a :=
  State.byteAt_congr sp rfl rfl a
@[simp] theorem State.bus_bus (ans' : List (Option Half)) :
    (s.bus ans es).bus ans' fs = s.bus ans' fs := rfl
@[simp] theorem State.bus_self : s.bus s.env.answers s.env.events = s := rfl

@[simp] theorem State.logged_ch0 : (s.logged es).ch0 = s.ch0 := rfl
@[simp] theorem State.logged_ch1 : (s.logged es).ch1 = s.ch1 := rfl
@[simp] theorem State.logged_cur : (s.logged es).cur = s.cur := rfl
@[simp] theorem State.logged_obligation : (s.logged es).obligation = s.obligation := rfl
@[simp] theorem State.logged_dma : (s.logged es).dma = s.dma := rfl
@[simp] theorem State.logged_mem : (s.logged es).env.mem = s.env.mem := rfl
@[simp] theorem State.logged_io : (s.logged es).env.io = s.env.io := rfl
@[simp] theorem State.logged_answers : (s.logged es).env.answers = s.env.answers := rfl
@[simp] theorem State.logged_events : (s.logged es).env.events = es ++ s.env.events := rfl
@[simp] theorem State.logged_ext0 : (s.logged es).env.ext0 = s.env.ext0 := rfl
@[simp] theorem State.logged_ext1 : (s.logged es).env.ext1 = s.env.ext1 := rfl
@[simp] theorem State.logged_schedule : (s.logged es).env.schedule = s.env.schedule := rfl
@[simp] theorem State.logged_params : (s.logged es).env.params = s.env.params := rfl
@[simp] theorem State.logged_me : (s.logged es).me = s.me := rfl
@[simp] theorem State.logged_chan : (s.logged es).chan c = s.chan c := by cases c <;> rfl
@[simp] theorem State.logged_reg : (s.logged es).reg r = s.reg r := rfl
@[simp] theorem State.logged_tag : (s.logged es).tag r = s.tag r := rfl
@[simp] theorem State.logged_byteAt (a : Addr) : (s.logged es).byteAt sp a = s.byteAt sp a :=
  State.byteAt_congr sp rfl rfl a
@[simp] theorem State.logged_logged : (s.logged es).logged fs = s.logged (fs ++ es) := by
  simp [State.logged]
theorem State.emit_eq_logged (e : Event) : s.emit e = s.logged [e] := rfl

@[simp] theorem State.chan_setByte (a : Addr) : (s.setByte sp a b).chan c = s.chan c := by
  cases c <;> rfl
@[simp] theorem State.bus16_setByte (a : Addr) : (s.setByte sp a b).bus16 sq = s.bus16 sq := by
  cases sq <;> rfl
@[simp] theorem State.bus16_bus : (s.bus ans es).bus16 sq = s.bus16 sq := by cases sq <;> rfl
@[simp] theorem State.bus16_logged : (s.logged es).bus16 sq = s.bus16 sq := by cases sq <;> rfl

/-- A byte stored elsewhere leaves a byte alone. -/
theorem State.byteAt_setByte_other {a c : Addr} (h : ¬ (sq = sp ∧ mask sp c = mask sp a)) :
    (s.setByte sp a b).byteAt sq c = s.byteAt sq c := by
  by_cases hs : sq = sp
  · subst hs
    have hne : (mask sq c).toNat ≠ (mask sq a).toNat := fun e =>
      h ⟨rfl, BitVec.eq_of_toNat_eq e⟩
    unfold State.byteAt State.setByte
    rw [State.contents_setContents_same, Memory.get_set_other b hne]
  · unfold State.byteAt State.setByte
    rw [State.contents_setContents_other s _ hs]

/-- A byte stored in a canonical memory is read back, at every alias of its address. -/
theorem State.byteAt_setByte_same (hc : Canonical s) {a c : Addr} (h : mask sp c = mask sp a) :
    (s.setByte sp a b).byteAt sp c = b := by
  unfold State.byteAt State.setByte
  rw [State.contents_setContents_same, h]
  cases sp
  · exact Memory.get_set_same_of_wf _ b hc.1
  · exact Memory.get_set_same_of_wf _ b hc.2

@[simp] theorem State.setByte_mask (a : Addr) : s.setByte sp (mask sp a) b = s.setByte sp a b := by
  simp [State.setByte]

@[simp] theorem State.byteAt_mask (a : Addr) : s.byteAt sp (mask sp a) = s.byteAt sp a := by
  simp [State.byteAt]

end

/-- Every store of a byte keeps the canonical form. -/
theorem Canonical.setByte {s : State} (h : Canonical s) (sp : Space) (a : Addr) (b : Byte) :
    Canonical (s.setByte sp a b) := by
  have hl := mask_lt sp a
  cases sp
  · exact ⟨Memory.wf_set b hl h.1, h.2⟩
  · exact ⟨h.1, Memory.wf_set b hl h.2⟩

/-- The canonical form is a fact of the two memories alone. -/
theorem Canonical.congr {s t : State} (h : Canonical s) (hm : t.env.mem = s.env.mem)
    (hi : t.env.io = s.env.io) : Canonical t := by
  unfold Canonical; rw [hm, hi]; exact h

/-! ## Reads -/

/-- A read has given an answer list and events and done nothing else: the events are reads of the
space, the newest first. -/
def ReadsOnly (s t : State) : Prop :=
  ∃ ans es, t = s.bus ans (es ++ s.env.events) ∧ (∀ e ∈ es, e.isRead = true) ∧
    (s.env.answers = [] → ans = [])

theorem ReadsOnly.refl (s : State) : ReadsOnly s s :=
  ⟨s.env.answers, [], rfl, by simp, id⟩

theorem ReadsOnly.trans {s t u : State} (h : ReadsOnly s t) (k : ReadsOnly t u) : ReadsOnly s u := by
  obtain ⟨a1, e1, rfl, r1, n1⟩ := h
  obtain ⟨a2, e2, rfl, r2, n2⟩ := k
  refine ⟨a2, e2 ++ e1, by simp, ?_, fun h => n2 (n1 h)⟩
  intro e he
  rcases List.mem_append.1 he with h | h
  · exact r2 e h
  · exact r1 e h

/-- A read leaves the plain host plain. -/
theorem ReadsOnly.plain {s t : State} (h : ReadsOnly s t) (hp : PlainHost s) : PlainHost t := by
  obtain ⟨a, e, rfl, _, n⟩ := h; exact n hp

theorem ReadsOnly.byteAt {s t : State} (h : ReadsOnly s t) (sp : Space) (a : Addr) :
    t.byteAt sp a = s.byteAt sp a := by
  obtain ⟨_, _, rfl, _, _⟩ := h; simp

theorem ReadsOnly.canonical {s t : State} (h : ReadsOnly s t) (hc : Canonical s) : Canonical t := by
  obtain ⟨_, _, rfl, _, _⟩ := h; exact hc

theorem primRead8_reads (sp : Space) (a : Addr) (s : State) : ReadsOnly s (primRead8 sp a s).2 :=
  ⟨s.env.answers.tail, [_], rfl, by simp [Event.isRead], fun h => by simp [h]⟩

theorem primRead16_reads (sp : Space) (a : Addr) (s : State) : ReadsOnly s (primRead16 sp a s).2 :=
  ⟨s.env.answers.tail, [_], rfl, by simp [Event.isRead], fun h => by simp [h]⟩

theorem memRead8_reads (sp : Space) (a : Addr) (s : State) : ReadsOnly s (memRead8 sp a s).2 :=
  primRead8_reads sp _ s

theorem memRead16_reads (sp : Space) (a : Addr) (s : State) : ReadsOnly s (memRead16 sp a s).2 := by
  unfold memRead16
  split
  · exact primRead16_reads sp _ s
  · exact (memRead8_reads sp _ s).trans (memRead8_reads sp _ _)

theorem memRead32_reads (sp : Space) (a : Addr) (s : State) : ReadsOnly s (memRead32 sp a s).2 :=
  (memRead16_reads sp a s).trans (memRead16_reads sp _ _)

theorem memRead_reads (w : Width) (sp : Space) (a : Addr) (s : State) :
    ReadsOnly s (memRead w sp a s).2 := by
  cases w
  · exact memRead8_reads sp a s
  · exact memRead16_reads sp a s

theorem loadPointer_reads (sp : Space) (a : Addr) (s : State) : ReadsOnly s (loadPointer sp a s).2 :=
  (memRead16_reads sp a s).trans (memRead8_reads sp _ _)

/-! ### The values a plain host gives -/

theorem State.answer_plain {s : State} (h : PlainHost s) : s.answer = none := by
  simp [State.answer, h]

theorem memRead8_plain {s : State} (h : PlainHost s) (sp : Space) (a : Addr) :
    (memRead8 sp a s).1 = s.byteAt sp a := by
  simp [memRead8, primRead8, State.answer_plain h]

/-- The next address of a masked even one stays in the space, so masking it again changes nothing. -/
theorem byteAt_mask_succ (s : State) (sp : Space) (a : Addr) :
    s.byteAt sp (mask sp a + 1#20) = s.byteAt sp (a + 1#20) := by
  rw [← State.byteAt_mask s sp (mask sp a + 1#20), mask_mask_add, State.byteAt_mask]

theorem memRead16_plain {s : State} (h : PlainHost s) (sp : Space) (a : Addr) :
    (memRead16 sp a s).1 = halfAt s sp a := by
  unfold memRead16 halfAt
  split
  · simp [primRead16, State.answer_plain h, byteAt_mask_succ]
  · have h1 := memRead8_reads sp (mask sp a) s
    simp only [memRead8_plain h, memRead8_plain (h1.plain h), h1.byteAt, State.byteAt_mask,
      byteAt_mask_succ]

/-! ## Writes -/

/-- The bytes a store of width `w` puts into the contents. -/
def State.putBytes (s : State) (w : Width) (sp : Space) (a : Addr) (v : Half) : State :=
  match w with
  | .byte => s.setByte sp a (v.extractLsb' 0 8)
  | .word => (s.setByte sp a (v.extractLsb' 0 8)).setByte sp (a + 1#20) (v.extractLsb' 8 8)

theorem setByte_mask_succ (s : State) (sp : Space) (a : Addr) (b : Byte) :
    s.setByte sp (mask sp a + 1#20) b = s.setByte sp (a + 1#20) b := by
  rw [← State.setByte_mask s sp b (mask sp a + 1#20), mask_mask_add, State.setByte_mask]

theorem setByte_logged (s : State) (es : List Event) (sp : Space) (a : Addr) (b : Byte) :
    (s.logged es).setByte sp a b = (s.setByte sp a b).logged es := by
  cases sp <;> rfl

theorem memWrite8_eq (sp : Space) (a : Addr) (v : Byte) (s : State) :
    ∃ es, memWrite8 sp a v s = (s.setByte sp a v).logged es ∧ (∀ e ∈ es, e.isRead = false) :=
  ⟨[.write8 sp (mask sp a) v], by simp [memWrite8, primWrite8, State.emit_eq_logged],
    by simp [Event.isRead]⟩

theorem memWrite16_eq (sp : Space) (a : Addr) (v : Half) (s : State) :
    ∃ es, memWrite16 sp a v s = (s.putBytes .word sp a v).logged es ∧
      (∀ e ∈ es, e.isRead = false) := by
  unfold memWrite16
  split
  · refine ⟨[.write16 sp (mask sp a) v], ?_, by simp [Event.isRead]⟩
    simp [primWrite16, State.emit_eq_logged, State.putBytes, setByte_mask_succ]
  · refine ⟨[.write8 sp (mask sp (a + 1#20)) (v.extractLsb' 8 8),
      .write8 sp (mask sp a) (v.extractLsb' 0 8)], ?_, by simp [Event.isRead]⟩
    simp [memWrite8, primWrite8, State.emit_eq_logged, setByte_logged,
      State.putBytes]

/-- A store changes the bytes it stores and the log, and nothing else. -/
theorem memWrite_eq (w : Width) (sp : Space) (a : Addr) (v : Half) (s : State) :
    ∃ es, memWrite w sp a v s = (s.putBytes w sp a v).logged es ∧ (∀ e ∈ es, e.isRead = false) := by
  cases w
  · have h : v.setWidth 8 = v.extractLsb' 0 8 := by
      apply BitVec.eq_of_toNat_eq; simp
    obtain ⟨es, e, r⟩ := memWrite8_eq sp a (v.setWidth 8) s
    exact ⟨es, by rw [State.putBytes, ← h]; exact e, r⟩
  · exact memWrite16_eq sp a v s

end Sys2Proof.Machine
end

