-- ==== Sys2Proof/Laws/Decode.lean ====
section
/-! SUPPORT. Laws of the encodings: fields and words, codes and the names they stand for, and how
long an encoded instruction is. -/

namespace Sys2Proof

/-! ## Fields and words -/

/-- The bits of a word, field by field (R71). -/
theorem Fields.getLsbD_toWord (f : Fields) (k : Nat) :
    f.toWord.getLsbD k =
      if k < 1 then f.w.getLsbD k
      else if k - 1 < 2 then f.aa.getLsbD (k - 1)
      else if k - 1 - 2 < 2 then f.wb.getLsbD (k - 1 - 2)
      else if k - 1 - 2 - 2 < 3 then f.rrr.getLsbD (k - 1 - 2 - 2)
      else if k - 1 - 2 - 2 - 3 < 2 then f.mm.getLsbD (k - 1 - 2 - 2 - 3)
      else f.opc.getLsbD (k - 1 - 2 - 2 - 3 - 2) := by
  have h : f.toWord.getLsbD k =
      BitVec.getLsbD (f.opc ++ f.mm ++ f.rrr ++ f.wb ++ f.aa ++ f.w) k := rfl
  rw [h]
  simp only [BitVec.getLsbD_append]

@[simp] theorem Fields.ofWord_toWord (f : Fields) : Fields.ofWord f.toWord = f := by
  obtain ⟨opc, mm, rrr, wb, aa, w⟩ := f
  simp only [Fields.ofWord, Fields.mk.injEq]
  refine ⟨?_, ?_, ?_, ?_, ?_, ?_⟩ <;>
    (apply BitVec.eq_of_getLsbD_eq; intro k hk
     rw [BitVec.getLsbD_extractLsb', Fields.getLsbD_toWord]; interval_cases k <;> simp)

@[simp] theorem Fields.toWord_ofWord (x : Half) : (Fields.ofWord x).toWord = x := by
  apply BitVec.eq_of_getLsbD_eq
  intro k hk
  rw [Fields.getLsbD_toWord]
  simp only [Fields.ofWord, BitVec.getLsbD_extractLsb']
  interval_cases k <;> simp

/-- The bits of a 16-bit value put together from two bytes. -/
theorem getLsbD_append_bytes (hi lo : Byte) (k : Nat) :
    (show Half from hi ++ lo).getLsbD k = if k < 8 then lo.getLsbD k else hi.getLsbD (k - 8) :=
  BitVec.getLsbD_append

@[simp] theorem hiByte_append_loByte (v : Half) : hiByte v ++ loByte v = v := by
  apply BitVec.eq_of_getLsbD_eq
  intro k hk
  rw [getLsbD_append_bytes]
  simp only [hiByte, loByte, BitVec.getLsbD_extractLsb']
  interval_cases k <;> simp

@[simp] theorem loByte_append (hi lo : Byte) : loByte (hi ++ lo) = lo := by
  apply BitVec.eq_of_getLsbD_eq
  intro k hk
  rw [loByte, BitVec.getLsbD_extractLsb', getLsbD_append_bytes]
  simp [hk]

@[simp] theorem hiByte_append (hi lo : Byte) : hiByte (hi ++ lo) = hi := by
  apply BitVec.eq_of_getLsbD_eq
  intro k hk
  rw [hiByte, BitVec.getLsbD_extractLsb', getLsbD_append_bytes]
  simp [hk]

/-! ## Codes and names -/

@[simp] theorem Reg.ofBits_bits (r : Reg) : Reg.ofBits r.bits = r := by cases r <;> rfl

@[simp] theorem Reg.bits_ofBits (b : BitVec 3) : (Reg.ofBits b).bits = b := by
  revert b; decide

@[simp] theorem PReg.ofBits_bits (p : PReg) : PReg.ofBits p.bits = some p := by cases p <;> rfl

theorem PReg.bits_of_ofBits_eq_some {b : BitVec 3} {p : PReg} :
    PReg.ofBits b = some p → p.bits = b := by
  revert b p; decide

@[simp] theorem Base.ofBits_bits (b : Base) : Base.ofBits b.bits = b := by cases b <;> rfl

@[simp] theorem Base.bits_ofBits (b : BitVec 2) : (Base.ofBits b).bits = b := by
  revert b; decide

@[simp] theorem AddrMode.ofBits_bits (m : AddrMode) : AddrMode.ofBits m.bits m.offByte = m := by
  cases m <;> rfl

@[simp] theorem AddrMode.bits_ofBits (aa : BitVec 2) (off : Byte) :
    (AddrMode.ofBits aa off).bits = aa := by
  have h : aa = 0#2 ∨ aa = 1#2 ∨ aa = 2#2 ∨ aa = 3#2 := by revert aa; decide
  obtain rfl | rfl | rfl | rfl := h <;> rfl

@[simp] theorem Width.ofBit_bit (w : Width) : Width.ofBit w.bit = w := by cases w <;> rfl

@[simp] theorem Width.bit_ofBit (b : BitVec 1) : (Width.ofBit b).bit = b := by
  revert b; decide

/-! ## The length of an encoded instruction (R74) -/

/-- The trailing bytes of an immediate are those its `wb` calls for. -/
@[simp] theorem Imm.trail_bytes_length (i : Imm) : i.trail.bytes.length = i.wb.toNat := by
  cases i <;> rfl

/-- A unit is its word, the offset byte its word calls for, and the trailing bytes. -/
theorem encode_length (i : Instr) :
    (encode i).length =
      2 + (if (encodeFields i).aa = 1#2 then 1 else 0) + (encodeTrail i).bytes.length := by
  simp only [encode, RawUnit.bytes, encodeUnit, Fields.ofWord_toWord]
  split <;> simp <;> omega

end Sys2Proof
end

