-- ==== Sys2Proof/Laws/Frames.lean ====
section
/-! SUPPORT. Frames: how what is left unchanged composes, and what each shared operation leaves
unchanged. -/

namespace Sys2Proof.Machine

/-! ## Composing frames -/

theorem Keeps.refl (rs ts : List RegName) (s : State) : Keeps rs ts s s where
  cur := rfl
  obligation := rfl
  dma := rfl
  other _ _ := rfl
  regs _ _ := rfl
  tags _ _ := rfl
  wsrc := rfl
  wdst := rfl
  xp := rfl
  status := rfl
  params := rfl
  schedule := rfl
  ext0 := rfl
  ext1 := rfl

/-- What is left unchanged twice is left unchanged. -/
theorem Keeps.trans {rs rs' qs ts ts' us : List RegName} {s t u : State} (h : Keeps rs ts s t)
    (k : Keeps rs' ts' t u) (hr : ∀ r, r ∈ rs ∨ r ∈ rs' → r ∈ qs)
    (ht : ∀ r, r ∈ ts ∨ r ∈ ts' → r ∈ us) : Keeps qs us s u where
  cur := k.cur.trans h.cur
  obligation := k.obligation.trans h.obligation
  dma := k.dma.trans h.dma
  other c hc := (k.other c (by rw [h.cur]; exact hc)).trans (h.other c hc)
  regs r hn := (k.regs r fun x => hn (hr r (.inr x))).trans (h.regs r fun x => hn (hr r (.inl x)))
  tags r hn := (k.tags r fun x => hn (ht r (.inr x))).trans (h.tags r fun x => hn (ht r (.inl x)))
  wsrc := k.wsrc.trans h.wsrc
  wdst := k.wdst.trans h.wdst
  xp := k.xp.trans h.xp
  status := k.status.trans h.status
  params := k.params.trans h.params
  schedule := k.schedule.trans h.schedule
  ext0 := k.ext0.trans h.ext0
  ext1 := k.ext1.trans h.ext1

theorem Keeps.mono {rs qs ts us : List RegName} {s t : State} (h : Keeps rs ts s t)
    (hr : ∀ r, r ∈ rs → r ∈ qs) (ht : ∀ r, r ∈ ts → r ∈ us) : Keeps qs us s t :=
  h.trans (Keeps.refl [] [] t) (fun r hm => hr r (hm.resolve_right (by simp)))
    (fun r hm => ht r (hm.resolve_right (by simp)))

theorem SameBytes.refl (s : State) : SameBytes s s := fun _ _ => rfl

theorem SameBytes.trans {s t u : State} (h : SameBytes s t) (k : SameBytes t u) : SameBytes s u :=
  fun sp a => (k sp a).trans (h sp a)

theorem SameBytesBut.after {sp : Space} {a : Addr} {n : Nat} {s t u : State} (h : SameBytes s t)
    (k : SameBytesBut sp a n t u) : SameBytesBut sp a n s u :=
  fun sq b hb => (k sq b hb).trans (h sq b)

theorem SameBytesBut.before {sp : Space} {a : Addr} {n : Nat} {s t u : State}
    (h : SameBytesBut sp a n s t) (k : SameBytes t u) : SameBytesBut sp a n s u :=
  fun sq b hb => (k sq b).trans (h sq b hb)

/-- Storing twice within a range changes only bytes of the range. -/
theorem SameBytesBut.trans {sp : Space} {a : Addr} {n : Nat} {s t u : State}
    (h : SameBytesBut sp a n s t) (k : SameBytesBut sp a n t u) : SameBytesBut sp a n s u :=
  fun sq b hb => (k sq b hb).trans (h sq b hb)

/-- A byte within a shorter range from `k` bytes further on is within the range. -/
theorem InRange.widen {sp sq : Space} {a b : Addr} {n m k : Nat} (h : k + m ≤ n)
    (hb : InRange sp (a + BitVec.ofNat 20 k) m sq b) : InRange sp a n sq b := by
  obtain ⟨e, j, hj, hm⟩ := hb
  refine ⟨e, k + j, by omega, ?_⟩
  rw [hm, BitVec.add_assoc, ← BitVec.ofNat_add]

theorem SameBytesBut.widen {sp : Space} {a : Addr} {n m k : Nat} {s t : State} (h : k + m ≤ n)
    (hs : SameBytesBut sp (a + BitVec.ofNat 20 k) m s t) : SameBytesBut sp a n s t :=
  fun sq b hb => hs sq b fun hr => hb (hr.widen h)

/-! ## Updates -/

theorem keeps_setReg (s : State) (r : RegName) (v : Addr) : Keeps [r] [] s (s.setReg r v) where
  cur := rfl
  obligation := rfl
  dma := rfl
  other _ hc := s.chan_setReg_other r v hc
  regs _ hq := s.reg_setReg_other v fun e => hq (by simp [e])
  tags _ _ := s.tag_setReg r _ v
  wsrc := by simp
  wdst := by simp
  xp := by simp
  status := by simp
  params := rfl
  schedule := rfl
  ext0 := rfl
  ext1 := rfl

theorem keeps_setTag (s : State) (r : RegName) (sp : Space) : Keeps [] [r] s (s.setTag r sp) where
  cur := rfl
  obligation := rfl
  dma := rfl
  other _ hc := s.chan_setTag_other r sp hc
  regs _ _ := s.reg_setTag r _ sp
  tags _ hq := s.tag_setTag_other sp fun e => hq (by simp [e])
  wsrc := by simp
  wdst := by simp
  xp := by simp
  status := by simp
  params := rfl
  schedule := rfl
  ext0 := rfl
  ext1 := rfl

/-- A register load changes the register and its tag. -/
theorem keeps_loadReg (s : State) (r : RegName) (v : Addr) (sp : Space) :
    Keeps [r] [r] s ((s.setReg r v).setTag r sp) :=
  (keeps_setReg s r v).trans (keeps_setTag _ r sp) (by simp) (by simp)

theorem sameBytes_setReg (s : State) (r : RegName) (v : Addr) : SameBytes s (s.setReg r v) :=
  fun sp a => s.byteAt_setReg r v sp a

theorem sameBytes_setTag (s : State) (r : RegName) (sq : Space) : SameBytes s (s.setTag r sq) :=
  fun sp a => s.byteAt_setTag r sq sp a

theorem keeps_bus (s : State) (ans : List (Option Half)) (es : List Event) :
    Keeps [] [] s (s.bus ans es) where
  cur := rfl
  obligation := rfl
  dma := rfl
  other _ _ := by simp
  regs _ _ := rfl
  tags _ _ := rfl
  wsrc := rfl
  wdst := rfl
  xp := rfl
  status := rfl
  params := rfl
  schedule := rfl
  ext0 := rfl
  ext1 := rfl

theorem keeps_logged (s : State) (es : List Event) : Keeps [] [] s (s.logged es) where
  cur := rfl
  obligation := rfl
  dma := rfl
  other _ _ := by simp
  regs _ _ := rfl
  tags _ _ := rfl
  wsrc := rfl
  wdst := rfl
  xp := rfl
  status := rfl
  params := rfl
  schedule := rfl
  ext0 := rfl
  ext1 := rfl

theorem keeps_setByte (s : State) (sp : Space) (a : Addr) (b : Byte) :
    Keeps [] [] s (s.setByte sp a b) where
  cur := rfl
  obligation := rfl
  dma := rfl
  other _ _ := by simp
  regs _ _ := rfl
  tags _ _ := rfl
  wsrc := rfl
  wdst := rfl
  xp := rfl
  status := rfl
  params := rfl
  schedule := rfl
  ext0 := rfl
  ext1 := rfl

/-! ## Reads -/

theorem ReadsOnly.keeps {s t : State} (h : ReadsOnly s t) : Keeps [] [] s t := by
  obtain ⟨_, _, rfl, _, _⟩ := h
  exact keeps_bus s _ _

theorem ReadsOnly.sameBytes {s t : State} (h : ReadsOnly s t) : SameBytes s t :=
  fun sp a => h.byteAt sp a

theorem ReadsOnly.reg {s t : State} (h : ReadsOnly s t) (r : RegName) : t.reg r = s.reg r := by
  obtain ⟨_, _, rfl, _, _⟩ := h; rfl

theorem ReadsOnly.tag {s t : State} (h : ReadsOnly s t) (r : RegName) : t.tag r = s.tag r := by
  obtain ⟨_, _, rfl, _, _⟩ := h; rfl

theorem ReadsOnly.me {s t : State} (h : ReadsOnly s t) : t.me = s.me := by
  obtain ⟨_, _, rfl, _, _⟩ := h; rfl

theorem ReadsOnly.cur {s t : State} (h : ReadsOnly s t) : t.cur = s.cur := h.keeps.cur

theorem ReadsOnly.ch0 {s t : State} (h : ReadsOnly s t) : t.ch0 = s.ch0 := by
  obtain ⟨_, _, rfl, _, _⟩ := h; rfl

theorem ReadsOnly.ch1 {s t : State} (h : ReadsOnly s t) : t.ch1 = s.ch1 := by
  obtain ⟨_, _, rfl, _, _⟩ := h; rfl

/-! ## Writes -/

theorem keeps_memWrite8 (sp : Space) (a : Addr) (v : Byte) (s : State) :
    Keeps [] [] s (memWrite8 sp a v s) := by
  obtain ⟨es, e, _⟩ := memWrite8_eq sp a v s
  rw [e]
  exact (keeps_setByte s sp a v).trans (keeps_logged _ es) (by simp) (by simp)

theorem keeps_memWrite16 (sp : Space) (a : Addr) (v : Half) (s : State) :
    Keeps [] [] s (memWrite16 sp a v s) := by
  obtain ⟨es, e, _⟩ := memWrite16_eq sp a v s
  rw [e]
  exact ((keeps_setByte s sp a _).trans (keeps_setByte _ sp _ _) (qs := []) (us := [])
    (by simp) (by simp)).trans (keeps_logged _ es) (by simp) (by simp)

/-- A store of a byte changes that byte. -/
theorem sameBytesBut_setByte (s : State) (sp : Space) (a : Addr) (b : Byte) {n : Nat} (h : 0 < n) :
    SameBytesBut sp a n s (s.setByte sp a b) := by
  intro sq c hc
  refine State.byteAt_setByte_other s sp sq b fun e => hc ⟨e.1, 0, h, ?_⟩
  obtain ⟨rfl, e2⟩ := e
  simp [e2]

theorem sameBytesBut_memWrite8 (sp : Space) (a : Addr) (v : Byte) (s : State) :
    SameBytesBut sp a 1 s (memWrite8 sp a v s) := by
  obtain ⟨es, e, _⟩ := memWrite8_eq sp a v s
  rw [e]
  exact (sameBytesBut_setByte s sp a v (by omega)).before fun _ _ => by simp

theorem sameBytesBut_memWrite16 (sp : Space) (a : Addr) (v : Half) (s : State) :
    SameBytesBut sp a 2 s (memWrite16 sp a v s) := by
  obtain ⟨es, e, _⟩ := memWrite16_eq sp a v s
  rw [e]
  refine SameBytesBut.before ?_ fun _ _ => State.logged_byteAt _ _ _ _
  exact (sameBytesBut_setByte s sp a _ (by omega)).trans
    (SameBytesBut.widen (k := 1) (m := 1) (by omega)
      (sameBytesBut_setByte _ sp (a + 1#20) _ (by omega)))

theorem Canonical.memWrite8 {s : State} (h : Canonical s) (sp : Space) (a : Addr) (v : Byte) :
    Canonical (memWrite8 sp a v s) := by
  obtain ⟨es, e, _⟩ := memWrite8_eq sp a v s
  rw [e]
  exact (h.setByte sp a v).congr rfl rfl

theorem Canonical.memWrite16 {s : State} (h : Canonical s) (sp : Space) (a : Addr) (v : Half) :
    Canonical (memWrite16 sp a v s) := by
  obtain ⟨es, e, _⟩ := memWrite16_eq sp a v s
  rw [e]
  exact ((h.setByte sp a _).setByte sp _ _).congr rfl rfl

/-- A byte stored in a canonical memory is read back. -/
theorem byteAt_memWrite8 {s : State} (h : Canonical s) (sp : Space) (a : Addr) (v : Byte) :
    (memWrite8 sp a v s).byteAt sp a = v := by
  obtain ⟨es, e, _⟩ := memWrite8_eq sp a v s
  rw [e, State.logged_byteAt, State.byteAt_setByte_same s sp v h rfl]

/-- A word is its high byte over its low byte (R44). -/
theorem hi_append_lo (v : Half) : v.extractLsb' 8 8 ++ v.extractLsb' 0 8 = v := by
  apply BitVec.eq_of_getLsbD_eq
  intro i hi
  rw [BitVec.getLsbD_append]
  by_cases h : i < 8
  · simp [h]
  · have h' : 8 + (i - 8) = i := by omega
    have h'' : i - 8 < 8 := by omega
    simp [h, h', h'']

/-- A word stored in a canonical memory is read back, low byte first. -/
theorem halfAt_memWrite16 {s : State} (h : Canonical s) (sp : Space) (a : Addr) (v : Half) :
    halfAt (memWrite16 sp a v s) sp a = v := by
  obtain ⟨es, e, _⟩ := memWrite16_eq sp a v s
  have h1 := h.setByte sp a (v.extractLsb' 0 8)
  have hne : ¬ (sp = sp ∧ mask sp a = mask sp (a + 1#20)) := fun x => mask_succ_ne sp a x.2.symm
  simp only [halfAt, e, State.logged_byteAt, State.putBytes]
  rw [State.byteAt_setByte_same _ sp _ h1 rfl, State.byteAt_setByte_other _ sp sp _ hne,
    State.byteAt_setByte_same s sp _ h rfl]
  exact hi_append_lo v

/-- What stands where a value of some width has been stored in a canonical memory. -/
theorem storedAt_memWrite (w : Width) (sp : Space) (a : Addr) (v : Half) {s : State}
    (h : Canonical s) : storedAt w sp a (memWrite w sp a v s) =
      match w with
      | .byte => (v.setWidth 8).setWidth 16
      | .word => v := by
  cases w
  · simp only [storedAt, memWrite, byteAt_memWrite8 h]
  · simp only [storedAt, memWrite, halfAt_memWrite16 h]

theorem keeps_memWrite (w : Width) (sp : Space) (a : Addr) (v : Half) (s : State) :
    Keeps [] [] s (memWrite w sp a v s) := by
  cases w
  · exact keeps_memWrite8 _ _ _ _
  · exact keeps_memWrite16 _ _ _ _

theorem sameBytesBut_memWrite (w : Width) (sp : Space) (a : Addr) (v : Half) (s : State) :
    SameBytesBut sp a (widthBytes w) s (memWrite w sp a v s) := by
  cases w
  · exact sameBytesBut_memWrite8 _ _ _ _
  · exact sameBytesBut_memWrite16 _ _ _ _

theorem Canonical.memWrite {s : State} (h : Canonical s) (w : Width) (sp : Space) (a : Addr)
    (v : Half) : Canonical (memWrite w sp a v s) := by
  cases w
  · exact h.memWrite8 _ _ _
  · exact h.memWrite16 _ _ _

/-- A store leaves a plain host plain. -/
theorem PlainHost.memWrite {s : State} (h : PlainHost s) (w : Width) (sp : Space) (a : Addr)
    (v : Half) : PlainHost (memWrite w sp a v s) := by
  obtain ⟨es, e, _⟩ := memWrite_eq w sp a v s
  rw [e]
  cases w <;> exact h

/-! ## Effective addresses -/

@[simp] theorem ea_sp (m : MemOp) (w : Width) (s : State) : (ea m w s).sp = eaSpace m s := rfl
@[simp] theorem ea_addr (m : MemOp) (w : Width) (s : State) : (ea m w s).addr = eaAddr m s := rfl
@[simp] theorem ea_st (m : MemOp) (w : Width) (s : State) : (ea m w s).st = eaState m w s := rfl

/-- Computing an address leaves everything but `ix` alone, and `ix` too except in mode 3. -/
theorem keeps_eaState (m : MemOp) (w : Width) (s : State) : Keeps (bumped m) [] s (eaState m w s) := by
  obtain ⟨b, mode⟩ := m
  cases mode
  · exact Keeps.refl _ _ s
  · exact Keeps.refl _ _ s
  · exact Keeps.refl _ _ s
  · exact keeps_setReg s .ix _

theorem eaState_env (m : MemOp) (w : Width) (s : State) : (eaState m w s).env = s.env := by
  obtain ⟨b, mode⟩ := m
  cases mode <;> rfl

theorem sameBytes_of_env {s t : State} (h : t.env = s.env) : SameBytes s t :=
  fun sp a => State.byteAt_congr sp (by rw [h]) (by rw [h]) a

theorem canonical_of_env {s t : State} (h : t.env = s.env) (hc : Canonical s) : Canonical t :=
  hc.congr (by rw [h]) (by rw [h])

/-- The address space of an operand does not depend on `ix`, nor its base on the increment. -/
theorem eaState_reg {m : MemOp} {w : Width} {s : State} {r : RegName} (h : r ≠ .ix) :
    (eaState m w s).reg r = s.reg r :=
  (keeps_eaState m w s).regs r fun hm => by
    obtain ⟨b, mode⟩ := m
    cases mode <;> simp [bumped] at hm
    exact h hm

end Sys2Proof.Machine
end

