-- ==== Sys2Proof/Laws/Values.lean ====
section
/-! SUPPORT. The values of operands, immediates and results: each extension and truncation of the
model as a fact about integers and about bits. -/

namespace Sys2Proof.Machine

/-! ## Immediates and operands -/

theorem immValue_toInt (i : Imm) : (immValue i).toInt = immInt i := by
  cases i <;> simp [immValue, immInt, BitVec.toInt_signExtend_of_le]

theorem getLsbD_immValue (i : Imm) (k : Nat) (h : k < 20) : (immValue i).getLsbD k = immBit i k := by
  cases i with
  | byte b =>
    simp only [immValue, immBit, BitVec.getLsbD_signExtend]
    by_cases h8 : k < 8
    · have e : min k 7 = k := by omega
      simp [h, h8, e]
    · have e : min k 7 = 7 := by omega
      simp [h, h8, e, BitVec.msb_eq_getLsbD_last]
  | word v =>
    simp only [immValue, immBit, BitVec.getLsbD_signExtend]
    by_cases h8 : k < 16
    · have e : min k 15 = k := by omega
      simp [h, h8, e]
    · have e : min k 15 = 15 := by omega
      simp [h, h8, e, BitVec.msb_eq_getLsbD_last]

theorem immHalf_toInt (i : Imm) : (immHalf i).toInt = immInt i := by
  cases i <;> simp [immHalf, immInt, BitVec.toInt_signExtend_of_le]

theorem getLsbD_immHalf (i : Imm) (k : Nat) (h : k < 16) : (immHalf i).getLsbD k = immBit i k := by
  cases i with
  | byte b =>
    simp only [immHalf, immBit, BitVec.getLsbD_signExtend]
    by_cases h8 : k < 8
    · have e : min k 7 = k := by omega
      simp [h, h8, e]
    · have e : min k 7 = 7 := by omega
      simp [h, h8, e, BitVec.msb_eq_getLsbD_last]
  | word v =>
    have e : min k 15 = k := by omega
    simp [immHalf, immBit, e]

theorem sextW_toInt (w : Width) (x : Half) : (sextW w x).toInt = operandInt w x := by
  cases w <;> simp [sextW, operandInt, BitVec.toInt_signExtend_of_le]

theorem getLsbD_sextW (w : Width) (x : Half) (k : Nat) (h : k < 20) :
    (sextW w x).getLsbD k = operandBit w x k := by
  cases w with
  | byte =>
    simp only [sextW, operandBit, BitVec.getLsbD_signExtend]
    by_cases h8 : k < 8
    · have e : min k 7 = k := by omega
      simp [h, h8, e]
    · have e : min k 7 = 7 := by omega
      simp [h, h8, e, BitVec.msb_eq_getLsbD_last]
  | word =>
    simp only [sextW, operandBit, BitVec.getLsbD_signExtend]
    by_cases h8 : k < 16
    · have e : min k 15 = k := by omega
      simp [h, h8, e]
    · have e : min k 15 = 15 := by omega
      simp [h, h8, e, BitVec.msb_eq_getLsbD_last]

/-! ## Registers -/

/-- A pointer register keeps all of a value. -/
theorem cutReg_pppName (p : PReg) (v : Addr) : cutReg (pppName p) v = v := by cases p <;> rfl

theorem regWidth_le (r : RegName) : regWidth r ≤ 20 := by cases r <;> decide

theorem getLsbD_cutReg (r : RegName) (v : Addr) (k : Nat) :
    (cutReg r v).getLsbD k = (decide (k < regWidth r) && v.getLsbD k) := by
  have h : v.getLsbD k = (decide (k < 20) && v.getLsbD k) := by
    by_cases hk : k < 20
    · simp [hk]
    · rw [BitVec.getLsbD_of_ge v k (by omega)]; simp
  cases r
  case bc | ix | cc | mc =>
    simp only [cutReg, regWidth, BitVec.getLsbD_setWidth]
    by_cases hk : k < 16
    · have hk' : k < 20 := by omega
      simp [hk, hk']
    · simp [hk]
  all_goals exact h

/-- A register that was written holds an integer result if the value written is congruent to it. -/
theorem holdsInt_of_reg {r : RegName} {n : Int} {t : State} {v : Addr} (h : t.reg r = cutReg r v)
    (hv : (v.toNat : Int) % 2 ^ 20 = n % 2 ^ 20) : HoldsInt r n t := by
  unfold HoldsInt
  rw [h, cutReg_toNat]
  have := v.isLt
  cases r <;> simp [regWidth] <;> omega

/-- A register that was written holds the bits of the value written, over its width. -/
theorem holdsBits_of_reg {r : RegName} {f : Nat → Bool} {t : State} {v : Addr}
    (h : t.reg r = cutReg r v) (hv : ∀ k, k < 20 → v.getLsbD k = f k) : HoldsBits r f t := by
  intro k
  rw [h, getLsbD_cutReg]
  by_cases hk : k < regWidth r
  · rw [hv k (by have := regWidth_le r; omega)]
  · simp [hk]

theorem toNat_emod_toInt (v : Addr) : (v.toNat : Int) % 2 ^ 20 = v.toInt % 2 ^ 20 := by
  have := v.isLt
  rw [BitVec.toInt_eq_toNat_cond]
  split <;> omega

/-- A sum of a register and a signed value, modulo 2^20. -/
theorem add_emod (x y : Addr) : ((x + y).toNat : Int) % 2 ^ 20 = (x.toNat + y.toInt) % 2 ^ 20 := by
  have := x.isLt
  have := y.isLt
  rw [BitVec.toNat_add, BitVec.toInt_eq_toNat_cond]
  split <;> omega

/-! ## Stored values -/

/-- A stored value holds an integer result if it is congruent to it. -/
theorem storedInt_of {w : Width} {sp : Space} {a : Addr} {n : Int} {s t : State} {v : Half}
    (hc : Canonical s) (h : t = memWrite w sp a v s) (hv : (v.toNat : Int) % 2 ^ 16 = n % 2 ^ 16) :
    StoredInt w sp a n t := by
  subst h
  unfold StoredInt
  rw [storedAt_memWrite w sp a v hc]
  have := v.isLt
  cases w <;> simp [widthBytes] <;> omega

/-- A stored value holds the bits of the value stored, over its width. -/
theorem storedBits_of {w : Width} {sp : Space} {a : Addr} {f : Nat → Bool} {s t : State} {v : Half}
    (hc : Canonical s) (h : t = memWrite w sp a v s)
    (hv : ∀ k, k < 8 * widthBytes w → v.getLsbD k = f k) : StoredBits w sp a f t := by
  subst h
  intro k
  rw [storedAt_memWrite w sp a v hc]
  by_cases hk : k < 8 * widthBytes w
  · rw [← hv k hk]
    cases w
    · have h8 : k < 8 := by simpa [widthBytes] using hk
      have h16 : k < 16 := by omega
      simp [widthBytes, h8, h16]
    · have h16 : k < 16 := by simpa [widthBytes] using hk
      simp [widthBytes, h16]
  · cases w <;> simp only [widthBytes] at hk ⊢
    · simp [hk]
    · rw [BitVec.getLsbD_of_ge v k (by omega)]; simp [hk]

/-- A sum of two 16-bit values, the second signed, modulo 2^16. -/
theorem add_emod16 (x y : Half) : ((x + y).toNat : Int) % 2 ^ 16 = (x.toNat + y.toInt) % 2 ^ 16 := by
  have := x.isLt
  have := y.isLt
  rw [BitVec.toNat_add, BitVec.toInt_eq_toNat_cond]
  split <;> omega

/-! ## Pointers -/

/-- The register value of a segmented pointer (R22(a)). -/
theorem flat_toNat (p : BitVec 32) :
    (flat p).toNat = (p.toNat / 65536 * 16 + p.toNat % 65536) % 2 ^ 20 := by
  have := p.isLt
  simp [flat, Nat.shiftLeft_eq, Nat.shiftRight_eq_div_pow]
  omega

theorem mask_add_ne (sp : Space) (a : Addr) {j k : Nat} (hj : j < 2 ^ 16) (hk : k < 2 ^ 16)
    (h : j ≠ k) : mask sp (a + BitVec.ofNat 20 j) ≠ mask sp (a + BitVec.ofNat 20 k) := by
  intro e
  have e' := congrArg BitVec.toNat e
  simp only [mask_toNat, BitVec.toNat_add, BitVec.toNat_ofNat] at e'
  have := a.isLt
  cases sp <;> simp only [spaceSize] at e' <;> omega

/-- Storing a pointer changes at most its three bytes. -/
theorem storePointer_frame (sp : Space) (a : Addr) (v : Addr) (t : Space) (s : State) :
    Keeps [] [] s (storePointer sp a v t s) ∧ SameBytesBut sp a 3 s (storePointer sp a v t s) := by
  refine ⟨(keeps_memWrite16 _ _ _ _).trans (keeps_memWrite8 _ _ _ _) (by simp) (by simp), ?_⟩
  refine SameBytesBut.trans (SameBytesBut.widen (k := 0) (m := 2) (by omega) ?_)
    (SameBytesBut.widen (k := 2) (m := 1) (by omega) (sameBytesBut_memWrite8 _ _ _ _))
  have e : a + BitVec.ofNat 20 0 = a := BitVec.add_zero a
  rw [e]
  exact sameBytesBut_memWrite16 _ _ _ _

/-- The three bytes of a stored pointer, in a canonical memory. -/
theorem storePointer_bytes {s : State} (h : Canonical s) (sp : Space) (a : Addr) (v : Addr)
    (t : Space) : halfAt (storePointer sp a v t s) sp a = v.extractLsb' 0 16 ∧
      (storePointer sp a v t s).byteAt sp (a + 2#20) = pointerTail v t := by
  have h1 := h.memWrite16 sp a (v.extractLsb' 0 16)
  refine ⟨?_, byteAt_memWrite8 h1 _ _ _⟩
  have hs := sameBytesBut_memWrite8 sp (a + 2#20) (pointerTail v t)
    (memWrite16 sp a (v.extractLsb' 0 16) s)
  have out : ∀ j, j < 2 → ¬ InRange sp (a + 2#20) 1 sp (a + BitVec.ofNat 20 j) := by
    rintro j hj ⟨_, k, hk, e⟩
    have hk0 : k = 0 := by omega
    subst hk0
    rw [show (BitVec.ofNat 20 0) = 0#20 from rfl, BitVec.add_zero] at e
    exact mask_add_ne sp a (j := j) (k := 2) (by omega) (by omega) (by omega) e
  have e0 : a + BitVec.ofNat 20 0 = a := BitVec.add_zero a
  have o0 := hs sp _ (out 0 (by omega))
  have o1 := hs sp _ (out 1 (by omega))
  rw [e0] at o0
  exact (congrArg₂ (fun x y : Byte => (x ++ y : Half)) o1 o0).trans
    (halfAt_memWrite16 h sp a (v.extractLsb' 0 16))

/-! ## Loads -/

/-- A register load writes the register and its tag, and nothing of the host's side. -/
theorem loadReg_frame (r : RegName) (v : Addr) (sp : Space) (s : State) :
    Keeps [r] [r] s (loadReg r v sp s) ∧ (loadReg r v sp s).env = s.env ∧
      SameBytes s (loadReg r v sp s) :=
  ⟨keeps_loadReg s r v sp, rfl, fun sq a => by simp [loadReg]⟩

@[simp] theorem loadReg_reg (r : RegName) (v : Addr) (sp : Space) (s : State) :
    (loadReg r v sp s).reg r = cutReg r v := by simp [loadReg]

@[simp] theorem loadReg_tag (r : RegName) (v : Addr) (sp : Space) (s : State) :
    (loadReg r v sp s).tag r = sp := by simp [loadReg]

/-- What is left unchanged by reading an operand and then writing one register and some tags. -/
theorem loadsOnly_of_reads {r : RegName} {ts : List RegName} {m : MemOp} {w : Width} {s u t : State}
    (hu : ReadsOnly (eaState m w s) u) (ht : Keeps [r] ts u t) (he : t.env = u.env) :
    LoadsOnly r ts m w u s t := by
  refine ⟨?_, ?_, ?_, he⟩
  · refine ((keeps_eaState m w s).trans hu.keeps (qs := bumped m) (us := []) (by simp)
      (by simp)).trans ht ?_ (by simp)
    intro q hq
    exact hq.elim (fun h => List.mem_cons_of_mem _ h) (fun h => by simp at h; simp [h])
  · intro hr
    rw [ht.regs _ (by simp; exact fun h => hr h.symm), hu.reg]
  · exact ((sameBytes_of_env (eaState_env m w s)).trans hu.sameBytes).trans (sameBytes_of_env he)

/-- What is left unchanged by computing an address, reading, and then storing at the address. -/
theorem storesOnly_of_store {n : Nat} {m : MemOp} {w : Width} {s u t : State}
    (hu : ReadsOnly (eaState m w s) u) (ht : Keeps [] [] u t)
    (hs : SameBytesBut (eaSpace m s) (eaAddr m s) n u t) : StoresOnly [] n m w s t := by
  refine ⟨?_, ?_, ?_⟩
  · exact ((keeps_eaState m w s).trans hu.keeps (qs := bumped m) (us := []) (by simp)
      (by simp)).trans ht (by simp) (by simp)
  · rw [ht.regs _ (by simp), hu.reg]
  · exact SameBytesBut.after ((sameBytes_of_env (eaState_env m w s)).trans hu.sameBytes) hs

/-! ## Jumps and predicates -/

/-- A jump writes at most `tp`. -/
theorem jumpIf_frame (taken : Bool) (d : Addr) (s : State) :
    Keeps [.tp] [] s (jumpIf taken d s) ∧ (jumpIf taken d s).env = s.env ∧
      SameBytes s (jumpIf taken d s) := by
  cases taken
  · exact ⟨Keeps.refl _ _ s, rfl, SameBytes.refl s⟩
  · exact ⟨keeps_setReg s .tp _, rfl, fun sp a => s.byteAt_setReg .tp _ sp a⟩

/-- A taken jump adds the signed displacement to `tp`, modulo 2^20 (R205). -/
theorem jumpIf_tp (taken : Bool) (d : Imm) (s : State) : HoldsInt .tp
    (if taken = true then (s.reg .tp).toNat + immInt d else (s.reg .tp).toNat)
    (jumpIf taken (immValue d) s) := by
  cases taken
  · exact holdsInt_of_reg (v := s.reg .tp) rfl rfl
  · refine holdsInt_of_reg (State.reg_setReg_same _ _ _) ?_
    rw [add_emod, immValue_toInt]
    rfl

/-- The masked compare, bit by bit (R19). -/
theorem maskedEq_iff (x : Byte) (mc : Half) : maskedEq x mc = true ↔ MaskMatches x mc := by
  simp only [maskedEq, beq_iff_eq]
  constructor
  · intro h k hk hm
    have := congrArg (fun z => z.getLsbD k) h
    simp [hk, hm] at this
    exact this
  · intro h
    apply BitVec.eq_of_getLsbD_eq
    intro k hk
    have := h k hk
    by_cases e : mc.getLsbD (8 + k) = true
    · have hx := this e
      rw [BitVec.getLsbD_eq_getElem hk] at hx
      simp [hk, e, hx]
    · simp [hk, e]

end Sys2Proof.Machine
end

