-- ==== Sys2Proof/Laws/Fetch.lean ====
section
/-! SUPPORT. Fetching: what one fetch does, and how fetches compose. -/

namespace Sys2Proof.Machine

/-- `n` bytes have been fetched: reads of memory space that add up to `n` bytes, and `tp` moved by
`n`. -/
def Fetches (n : Nat) (s t : State) : Prop :=
  ∃ ans es, t = (s.bus ans (es ++ s.env.events)).setReg .tp (s.reg .tp + BitVec.ofNat 20 n) ∧
    (∀ e ∈ es, e.isMemRead = true) ∧ bytesRead es = n ∧ (s.env.answers = [] → ans = [])

theorem bytesRead_append (es fs : List Event) : bytesRead (es ++ fs) = bytesRead es + bytesRead fs := by
  simp [bytesRead]

theorem bytesWritten_append (es fs : List Event) :
    bytesWritten (es ++ fs) = bytesWritten es + bytesWritten fs := by
  simp [bytesWritten]

theorem State.setReg_setReg (s : State) (r : RegName) (v w : Addr) :
    (s.setReg r v).setReg r w = s.setReg r w := by
  simp [State.setReg, State.setMe, State.setChan_setChan, State.setChan_cur, State.me,
    State.chan_setChan_same]

/-- A register that is written with its own value is as before. -/
theorem State.setReg_reg (s : State) (r : RegName) : s.setReg r (s.reg r) = s := by
  have h : s.me.write r (s.me.read r) = s.me := by cases r <;> simp [Channel.write, Channel.read]
  unfold State.setReg State.reg
  rw [h, State.setMe_me]

theorem State.setReg_bus (s : State) (r : RegName) (v : Addr) (ans : List (Option Half))
    (es : List Event) : (s.setReg r v).bus ans es = (s.bus ans es).setReg r v := by
  obtain ⟨c0, c1, cur, o, d, e⟩ := s
  cases cur <;> rfl

theorem Fetches.refl (s : State) : Fetches 0 s s := by
  refine ⟨s.env.answers, [], ?_, by simp, rfl, id⟩
  have h : s.reg .tp + BitVec.ofNat 20 0 = (s.bus s.env.answers ([] ++ s.env.events)).reg .tp :=
    BitVec.add_zero _
  rw [h, State.setReg_reg]
  rfl

theorem Fetches.trans {n m : Nat} {s t u : State} (h : Fetches n s t) (k : Fetches m t u) :
    Fetches (n + m) s u := by
  obtain ⟨a1, e1, rfl, r1, b1, p1⟩ := h
  obtain ⟨a2, e2, rfl, r2, b2, p2⟩ := k
  refine ⟨a2, e2 ++ e1, ?_, ?_, ?_, fun x => p2 (p1 x)⟩
  · rw [State.setReg_bus, State.setReg_setReg, State.reg_setReg_same]
    simp only [State.setReg_env, State.bus_events, State.bus_bus, cutReg, List.append_assoc,
      BitVec.ofNat_add, BitVec.add_assoc]
  · intro e he
    exact (List.mem_append.1 he).elim (r2 e) (r1 e)
  · rw [bytesRead_append, b1, b2, Nat.add_comm]

theorem Fetches.keeps {n : Nat} {s t : State} (h : Fetches n s t) : Keeps [.tp] [] s t := by
  obtain ⟨ans, es, rfl, _⟩ := h
  exact (keeps_bus s _ _).trans (keeps_setReg _ .tp _) (by simp) (by simp)

theorem Fetches.tp {n : Nat} {s t : State} (h : Fetches n s t) :
    t.reg .tp = s.reg .tp + BitVec.ofNat 20 n := by
  obtain ⟨ans, es, rfl, _⟩ := h
  simp [cutReg]

theorem Fetches.sameBytes {n : Nat} {s t : State} (h : Fetches n s t) : SameBytes s t := by
  obtain ⟨ans, es, rfl, _⟩ := h
  intro sp a
  simp

theorem Fetches.plain {n : Nat} {s t : State} (h : Fetches n s t) (hp : PlainHost s) :
    PlainHost t := by
  obtain ⟨ans, es, rfl, _, _, p⟩ := h
  exact p hp

theorem Fetches.canonical {n : Nat} {s t : State} (h : Fetches n s t) (hc : Canonical s) :
    Canonical t := by
  obtain ⟨ans, es, rfl, _⟩ := h
  exact hc

/-! ### The reads a fetch makes -/

theorem memRead8_bus (sp : Space) (a : Addr) (s : State) :
    (memRead8 sp a s).2 = s.bus s.env.answers.tail
      ([.read8 sp (mask sp a) (memRead8 sp a s).1] ++ s.env.events) := rfl

/-- A 2-byte read is one wide call or two narrow ones, of two bytes in all. -/
theorem memRead16_bus (sp : Space) (a : Addr) (s : State) : ∃ ans es,
    (memRead16 sp a s).2 = s.bus ans (es ++ s.env.events) ∧
      (∀ e ∈ es, ∃ v b, e = .read16 sp b v ∨ ∃ x, e = .read8 sp b x) ∧ bytesRead es = 2 ∧
      (s.env.answers = [] → ans = []) := by
  unfold memRead16
  split
  · exact ⟨s.env.answers.tail, [_], rfl,
      fun e he => ⟨_, _, .inl (List.mem_singleton.1 he)⟩, rfl, fun h => by simp [h]⟩
  · refine ⟨s.env.answers.tail.tail, [_, _], rfl, ?_, rfl, fun h => by simp [h]⟩
    intro e he
    rcases List.mem_cons.1 he with h | h
    · exact ⟨0#16, _, .inr ⟨_, h⟩⟩
    · exact ⟨0#16, _, .inr ⟨_, List.mem_singleton.1 h⟩⟩

theorem fetch8_fetches (s : State) : Fetches 1 s (fetch8 s).2 :=
  ⟨s.env.answers.tail, [_], rfl, by simp [Event.isMemRead], rfl, fun h => by simp [h]⟩

theorem fetch16_fetches (s : State) : Fetches 2 s (fetch16 s).2 := by
  obtain ⟨ans, es, h, r, b, p⟩ := memRead16_bus .mem (s.reg .tp) s
  refine ⟨ans, es, ?_, ?_, b, p⟩
  · show (memRead16 .mem (s.reg .tp) s).2.setReg .tp _ = _
    rw [h]
  · intro e he
    obtain ⟨v, x, h | ⟨y, h⟩⟩ := r e he <;> subst h <;> rfl

theorem fetch8_plain {s : State} (h : PlainHost s) : (fetch8 s).1 = s.byteAt .mem (s.reg .tp) :=
  memRead8_plain h .mem _

theorem fetch16_plain {s : State} (h : PlainHost s) : (fetch16 s).1 = halfAt s .mem (s.reg .tp) :=
  memRead16_plain h .mem _

theorem fetchOff_fetches (f : Fields) (s : State) :
    Fetches (if f.aa = 1#2 then 1 else 0) s (fetchOff f s).2 := by
  unfold fetchOff
  split
  · exact fetch8_fetches s
  · exact Fetches.refl s

theorem fetchTrail_fetches (k : TrailKind) (s : State) : Fetches k.size s (fetchTrail k s).2 := by
  cases k
  · exact Fetches.refl s
  · exact fetch8_fetches s
  · exact fetch16_fetches s
  · exact (fetch16_fetches s).trans (fetch16_fetches _)
  · exact (fetch8_fetches s).trans (fetch8_fetches _)

/-- Fetching a unit reads the bytes its word calls for and does nothing else (R123). -/
theorem fetchUnit_fetches (s : State) :
    Fetches (Fields.ofWord (fetchUnit s).1.word).length s (fetchUnit s).2 :=
  ((fetch16_fetches s).trans (fetchOff_fetches _ _)).trans (fetchTrail_fetches _ _)

/-! ### Bytes that stand in memory -/

theorem bytesAt_succ (s : State) (sp : Space) (a : Addr) (n : Nat) :
    bytesAt s sp a (n + 1) = s.byteAt sp a :: bytesAt s sp (a + 1#20) n := by
  simp only [bytesAt, List.range_succ_eq_map, List.map_cons, List.map_map]
  congr 1
  · simp
  · apply List.map_congr_left
    intro k _
    simp only [Function.comp]
    congr 1
    rw [BitVec.add_assoc]
    congr 1
    apply BitVec.eq_of_toNat_eq
    simp [Nat.add_comm]

theorem bytesAt_congr {s t : State} (h : SameBytes s t) (sp : Space) (a : Addr) (n : Nat) :
    bytesAt t sp a n = bytesAt s sp a n := by
  simp only [bytesAt]
  apply List.map_congr_left
  intro k _
  exact h _ _

end Sys2Proof.Machine
end

