-- ==== Sys2Proof/Laws/Engine.lean ====
section
/-! SUPPORT. The engine: what a stop does, and which operation a step of the machine is. -/

namespace Sys2Proof.Machine

section
variable (s : State) (o : Option Half) (d : DmaPhase) (c : ChanId) (r : RegName) (sp : Space)
  (a : Addr)

@[simp] theorem State.obligation_me : ({ s with obligation := o } : State).me = s.me := rfl
@[simp] theorem State.obligation_chan : ({ s with obligation := o } : State).chan c = s.chan c := by
  cases c <;> rfl
@[simp] theorem State.obligation_reg : ({ s with obligation := o } : State).reg r = s.reg r := rfl
@[simp] theorem State.obligation_tag : ({ s with obligation := o } : State).tag r = s.tag r := rfl
@[simp] theorem State.obligation_byteAt :
    ({ s with obligation := o } : State).byteAt sp a = s.byteAt sp a :=
  State.byteAt_congr sp rfl rfl a
@[simp] theorem State.dma_me : ({ s with dma := d } : State).me = s.me := rfl
@[simp] theorem State.dma_chan : ({ s with dma := d } : State).chan c = s.chan c := by
  cases c <;> rfl
@[simp] theorem State.dma_reg : ({ s with dma := d } : State).reg r = s.reg r := rfl
@[simp] theorem State.dma_tag : ({ s with dma := d } : State).tag r = s.tag r := rfl
@[simp] theorem State.dma_byteAt : ({ s with dma := d } : State).byteAt sp a = s.byteAt sp a :=
  State.byteAt_congr sp rfl rfl a

end

/-- A stop writes the status of the executing channel, tells the host, drops an obligation, and does
nothing else (R262). -/
theorem raise_stops (x : Stop) (s : State) : StopsWith x x.status s (raise x s) := by
  refine ⟨?_, ?_, rfl, rfl, rfl, rfl⟩
  · simp [raise]
  · intro c hc
    have h : ({ s with obligation := none } : State).chan c = s.chan c := by simp
    rw [← h, ← State.chan_setStatus_other { s with obligation := none } x.status hc]
    cases c <;> rfl

/-! ## Which operation a step is -/

@[simp] theorem entered_me (c : ChanId) (rest : List HostAction) (s : State) :
    (entered c rest s).me = s.chan c := by
  cases c <;> rfl

@[simp] theorem entered_chan (c d : ChanId) (rest : List HostAction) (s : State) :
    (entered c rest s).chan d = s.chan d := by
  cases d <;> rfl

@[simp] theorem entered_obligation (c : ChanId) (rest : List HostAction) (s : State) :
    (entered c rest s).obligation = s.obligation := rfl

@[simp] theorem entered_params (c : ChanId) (rest : List HostAction) (s : State) :
    (entered c rest s).env.params = s.env.params := rfl

@[simp] theorem entered_answers (c : ChanId) (rest : List HostAction) (s : State) :
    (entered c rest s).env.answers = s.env.answers := rfl

theorem entered_sameBytes (c : ChanId) (rest : List HostAction) (s : State) :
    SameBytes s (entered c rest s) :=
  fun sp a => State.byteAt_congr sp rfl rfl a

/-- A step of a channel, scheduled or by default, is the channel's step from the entered state. -/
theorem step_of_stepsNext {c : ChanId} {rest : List HostAction} {s : State}
    (h : StepsNext c rest s) : step s = stepChannel (entered c rest s) := by
  obtain ⟨c0, c1, cu, o, d, ⟨m, i, an, x0, x1, sc, ev, pa⟩⟩ := s
  obtain ⟨hd, h | ⟨h, hc, hr⟩⟩ := h
  · simp only at hd h
    subst hd h
    rfl
  · simp only at hd h hc
    subst hd h hc hr
    rfl

/-- A scheduled host action is what the step does. -/
theorem step_of_actsNext {a : HostAction} {rest : List HostAction} {s : State}
    (h : ActsNext a rest s) :
    step s = hostAct a { s with env := { s.env with schedule := rest } } := by
  obtain ⟨c0, c1, cu, o, d, ⟨m, i, an, x0, x1, sc, ev, pa⟩⟩ := s
  obtain ⟨hd, h⟩ := h
  simp only at hd h
  subst hd h
  rfl

/-- A cut run goes on, whatever is scheduled (R252, R298). -/
theorem step_of_suspended {latch : Option Bool} {s : State} (h : s.dma = .suspended latch) :
    step s = .next (dmaResume latch s) := by
  obtain ⟨c0, c1, cu, o, d, e⟩ := s
  simp only at h
  subst h
  rfl

/-- Every step is one of these. -/
theorem step_cases (s : State) :
    (∃ latch, s.dma = .suspended latch) ∨ (∃ c rest, StepsNext c rest s) ∨
      (∃ a rest, ActsNext a rest s ∧ ∀ c, a ≠ .step c) := by
  cases hd : s.dma with
  | suspended latch => exact .inl ⟨latch, rfl⟩
  | idle =>
    refine .inr ?_
    cases hs : s.env.schedule with
    | nil => exact .inl ⟨s.cur, [], hd, .inr ⟨hs, rfl, rfl⟩⟩
    | cons a rest =>
      cases a with
      | step c => exact .inl ⟨c, rest, hd, .inl hs⟩
      | activate _ => exact .inr ⟨_, rest, ⟨hd, hs⟩, by simp⟩
      | resume _ => exact .inr ⟨_, rest, ⟨hd, hs⟩, by simp⟩
      | reset => exact .inr ⟨_, rest, ⟨hd, hs⟩, by simp⟩
      | store _ _ _ => exact .inr ⟨_, rest, ⟨hd, hs⟩, by simp⟩
      | drive _ _ => exact .inr ⟨_, rest, ⟨hd, hs⟩, by simp⟩

end Sys2Proof.Machine
end

