-- ==== Sys2Proof/Laws/Dma.lean ====
section
/-! SUPPORT. The DMA engine: what each access, each unit and each check can do, said once. -/

namespace Sys2Proof.Machine

/-! ## Sides -/

theorem dmaSrc_ne_dmaDst (s : State) : dmaSrc s ≠ dmaDst s := by
  unfold dmaSrc dmaDst
  split <;> decide

theorem dmaSrc_mem (s : State) : dmaSrc s ∈ [RegName.ga, .gb] := by
  unfold dmaSrc
  split <;> decide

theorem dmaDst_mem (s : State) : dmaDst s ∈ [RegName.ga, .gb] := by
  unfold dmaDst
  split <;> decide

theorem cutReg_dmaSrc (s : State) (v : Addr) : cutReg (dmaSrc s) v = v := by
  unfold dmaSrc
  split <;> rfl

theorem cutReg_dmaDst (s : State) (v : Addr) : cutReg (dmaDst s) v = v := by
  unfold dmaDst
  split <;> rfl

/-- The control word, the mask word, the count and the width mode of the executing channel. -/
theorem Keeps.cc {rs ts : List RegName} {s t : State} (h : Keeps rs ts s t) (hr : .cc ∉ rs) :
    t.me.cc = s.me.cc := by
  have e := congrArg BitVec.toNat (h.regs .cc hr)
  have h1 := t.me.cc.isLt
  have h2 := s.me.cc.isLt
  simp only [State.reg, Channel.read, BitVec.toNat_setWidth] at e
  exact BitVec.eq_of_toNat_eq (by omega)

theorem Keeps.mc {rs ts : List RegName} {s t : State} (h : Keeps rs ts s t) (hr : .mc ∉ rs) :
    t.me.mc = s.me.mc := by
  have e := congrArg BitVec.toNat (h.regs .mc hr)
  have h1 := t.me.mc.isLt
  have h2 := s.me.mc.isLt
  simp only [State.reg, Channel.read, BitVec.toNat_setWidth] at e
  exact BitVec.eq_of_toNat_eq (by omega)

theorem Keeps.bc {rs ts : List RegName} {s t : State} (h : Keeps rs ts s t) (hr : .bc ∉ rs) :
    t.me.bc = s.me.bc := by
  have e := congrArg BitVec.toNat (h.regs .bc hr)
  have h1 := t.me.bc.isLt
  have h2 := s.me.bc.isLt
  simp only [State.reg, Channel.read, BitVec.toNat_setWidth] at e
  exact BitVec.eq_of_toNat_eq (by omega)

theorem Keeps.allTags {rs : List RegName} {s t : State} (h : Keeps rs [] s t) :
    t.me.tags = s.me.tags := by
  have e : ∀ r, t.me.tags.get r = s.me.tags.get r := fun r => h.tags r (by simp)
  have ext : ∀ x y : Tags, (∀ r, x.get r = y.get r) → x = y := by
    rintro ⟨a1, a2, a3, a4, a5, a6, a7, a8, a9⟩ ⟨b1, b2, b3, b4, b5, b6, b7, b8, b9⟩ h
    have h1 : a1 = b1 := h .ga
    have h2 : a2 = b2 := h .gb
    have h3 : a3 = b3 := h .gc
    have h4 : a4 = b4 := h .bc
    have h5 : a5 = b5 := h .tp
    have h6 : a6 = b6 := h .ix
    have h7 : a7 = b7 := h .cc
    have h8 : a8 = b8 := h .mc
    have h9 : a9 = b9 := h .pp
    rw [h1, h2, h3, h4, h5, h6, h7, h8, h9]
  exact ext _ _ e

theorem dmaSrc_congr {s t : State} (h : t.me.cc = s.me.cc) : dmaSrc t = dmaSrc s := by
  unfold dmaSrc; rw [h]

theorem dmaDst_congr {s t : State} (h : t.me.cc = s.me.cc) : dmaDst t = dmaDst s := by
  unfold dmaDst; rw [h]

theorem steppedBy_steppedBy (b : Bool) (v : Addr) (n m : Nat) :
    steppedBy b (steppedBy b v n) m = steppedBy b v (n + m) := by
  cases b
  · rfl
  · simp only [steppedBy, if_true, BitVec.ofNat_add, BitVec.add_assoc]

/-! ## Accesses -/

/-- Accesses of the engine that read `n` bytes through the source pointer and write `m` through the
destination pointer: the pointers move if they are enabled to, and nothing else of the core changes. -/
structure Moves (n m : Nat) (s t : State) : Prop where
  keeps : Keeps [.ga, .gb] [] s t
  src : t.reg (dmaSrc s) = steppedBy (ccSinc s.me.cc) (s.reg (dmaSrc s)) n
  dst : t.reg (dmaDst s) = steppedBy (ccDinc s.me.cc) (s.reg (dmaDst s)) m
  log : ∃ es, t.env.events = es ++ s.env.events ∧ bytesRead es = n ∧ bytesWritten es = m

theorem Moves.trans {n m n' m' : Nat} {s t u : State} (h : Moves n m s t) (k : Moves n' m' t u) :
    Moves (n + n') (m + m') s u where
  keeps := h.keeps.trans k.keeps (by simp) (by simp)
  src := by
    have e := k.src
    rw [dmaSrc_congr (h.keeps.cc (by simp)), h.keeps.cc (by simp), h.src] at e
    rw [e, steppedBy_steppedBy]
  dst := by
    have e := k.dst
    rw [dmaDst_congr (h.keeps.cc (by simp)), h.keeps.cc (by simp), h.dst] at e
    rw [e, steppedBy_steppedBy]
  log := by
    obtain ⟨es, h1, h2, h3⟩ := h.log
    obtain ⟨fs, k1, k2, k3⟩ := k.log
    refine ⟨fs ++ es, by rw [k1, h1, List.append_assoc], ?_, ?_⟩
    · rw [bytesRead_append, h2, k2, Nat.add_comm]
    · rw [bytesWritten_append, h3, k3, Nat.add_comm]

theorem advance_eq (b : Bool) (r : RegName) (n : Addr) (s : State) :
    advance b r n s = if b then s.setReg r (s.reg r + n) else s := rfl

theorem keeps_advance (b : Bool) (r : RegName) (n : Addr) (s : State) :
    Keeps [r] [] s (advance b r n s) := by
  cases b
  · exact Keeps.refl _ _ s
  · exact keeps_setReg s r _

theorem advance_env (b : Bool) (r : RegName) (n : Addr) (s : State) :
    (advance b r n s).env = s.env := by
  cases b <;> rfl

theorem advance_reg (b : Bool) (r : RegName) (n : Addr) (s : State) (h : ∀ v, cutReg r v = v) :
    (advance b r n s).reg r = if b then s.reg r + n else s.reg r := by
  cases b
  · rfl
  · simp [advance, h]

theorem widthSize_eq (w : Width) : widthSize w = BitVec.ofNat 20 (widthBytes w) := by
  cases w <;> rfl

/-- How many bytes a read of some width reads. -/
theorem memRead_log (w : Width) (sp : Space) (a : Addr) (s : State) : ∃ es,
    (memRead w sp a s).2.env.events = es ++ s.env.events ∧ bytesRead es = widthBytes w ∧
      bytesWritten es = 0 := by
  cases w
  · exact ⟨[_], rfl, rfl, rfl⟩
  · show ∃ es, (memRead16 sp a s).2.env.events = es ++ s.env.events ∧ _
    unfold memRead16
    split
    · exact ⟨[_], rfl, rfl, rfl⟩
    · exact ⟨[_, _], rfl, rfl, rfl⟩

/-- How many bytes a store of some width writes. -/
theorem memWrite_log (w : Width) (sp : Space) (a : Addr) (v : Half) (s : State) : ∃ es,
    (memWrite w sp a v s).env.events = es ++ s.env.events ∧ bytesRead es = 0 ∧
      bytesWritten es = widthBytes w := by
  cases w
  · exact ⟨[_], rfl, rfl, rfl⟩
  · show ∃ es, (memWrite16 sp a v s).env.events = es ++ s.env.events ∧ _
    unfold memWrite16
    split
    · exact ⟨[_], rfl, rfl, rfl⟩
    · exact ⟨[_, _], rfl, rfl, rfl⟩

theorem readSrc_moves (w : Width) (s : State) : Moves (widthBytes w) 0 s (readSrc w s).2 := by
  have hr := memRead_reads w (s.tag (dmaSrc s)) (s.reg (dmaSrc s)) s
  refine ⟨?_, ?_, ?_, ?_⟩
  · exact (hr.keeps.trans (keeps_advance _ _ _ _) (qs := [dmaSrc s]) (us := []) (by simp)
      (by simp)).mono (fun r h => by rw [List.mem_singleton.1 h]; exact dmaSrc_mem s) (by simp)
  · show (advance _ _ _ _).reg _ = _
    rw [advance_reg _ _ _ _ (cutReg_dmaSrc s), hr.reg, widthSize_eq]
    rfl
  · show (advance _ _ _ _).reg _ = _
    rw [(keeps_advance _ _ _ _).regs _ (by simp; exact (dmaSrc_ne_dmaDst s).symm), hr.reg]
    simp [steppedBy]
  · obtain ⟨es, h1, h2, h3⟩ := memRead_log w (s.tag (dmaSrc s)) (s.reg (dmaSrc s)) s
    exact ⟨es, by show (advance _ _ _ _).env.events = _; rw [advance_env, h1], h2, h3⟩

theorem writeDst_moves (w : Width) (x : Half) (s : State) :
    Moves 0 (widthBytes w) s (writeDst w x s) := by
  have hk := keeps_memWrite w (s.tag (dmaDst s)) (s.reg (dmaDst s)) x s
  refine ⟨?_, ?_, ?_, ?_⟩
  · exact (hk.trans (keeps_advance _ _ _ _) (qs := [dmaDst s]) (us := []) (by simp)
      (by simp)).mono (fun r h => by rw [List.mem_singleton.1 h]; exact dmaDst_mem s) (by simp)
  · show (advance _ _ _ _).reg _ = _
    rw [(keeps_advance _ _ _ _).regs _ (by simp; exact dmaSrc_ne_dmaDst s), hk.regs _ (by simp)]
    simp [steppedBy]
  · show (advance _ _ _ _).reg _ = _
    rw [advance_reg _ _ _ _ (cutReg_dmaDst s), hk.regs _ (by simp), widthSize_eq]
    rfl
  · obtain ⟨es, h1, h2, h3⟩ := memWrite_log w (s.tag (dmaDst s)) (s.reg (dmaDst s)) x s
    exact ⟨es, by show (advance _ _ _ _).env.events = _; rw [advance_env, h1], h2, h3⟩

/-! ## Units -/

theorem unit8to8_moves (s : State) : Moves 1 1 s (unit8to8 s).st :=
  (readSrc_moves .byte s).trans (writeDst_moves .byte _ _)

theorem unit8to16_moves (s : State) : Moves 2 2 s (unit8to16 s).st :=
  ((readSrc_moves .byte s).trans (readSrc_moves .byte _)).trans (writeDst_moves .word _ _)

theorem unit16to8_moves (s : State) : Moves 2 2 s (unit16to8 s).st :=
  ((readSrc_moves .word s).trans (writeDst_moves .byte _ _)).trans (writeDst_moves .byte _ _)

theorem unit16to16_moves (s : State) : Moves 2 2 s (unit16to16 s).st :=
  (readSrc_moves .word s).trans (writeDst_moves .word _ _)

/-- A unit moves one byte or two, and says how many (R242 to R247). -/
theorem moveUnit_moves (s : State) : Moves (unitBytes s) (unitBytes s) s (moveUnit s).st ∧
    (moveUnit s).bytes = BitVec.ofNat 16 (unitBytes s) := by
  unfold moveUnit unitBytes
  by_cases h : s.me.bc = 1#16
  · simp only [h, true_or, if_true]
    exact ⟨unit8to8_moves s, rfl⟩
  · simp only [h, false_or, if_false]
    cases s.me.wsrc <;> cases s.me.wdst <;> simp
    · exact ⟨unit8to8_moves s, rfl⟩
    · exact ⟨unit8to16_moves s, rfl⟩
    · exact ⟨unit16to8_moves s, rfl⟩
    · exact ⟨unit16to16_moves s, rfl⟩

theorem unitBytes_le (s : State) : unitBytes s = 1 ∨ unitBytes s = 2 := by
  unfold unitBytes
  split <;> simp

/-- A counted unit: `bc` falls by the bytes moved, and nothing else of the core changes but the
pointers (R248). -/
theorem countUnit_frame (s : State) : Keeps [.ga, .gb, .bc] [] s (countUnit s).st := by
  have h := (moveUnit_moves s).1.keeps
  exact h.trans (keeps_setReg _ .bc _) (by simp [or_assoc]) (by simp)

theorem countUnit_bc (s : State) :
    (countUnit s).st.me.bc = s.me.bc - BitVec.ofNat 16 (unitBytes s) := by
  have h := (moveUnit_moves s).1.keeps.bc (by simp)
  have hb := (moveUnit_moves s).2
  show ((moveUnit s).st.setReg .bc _).me.bc = _
  rw [State.setReg_me, hb, h]
  simp [Channel.write]

theorem countUnit_env (s : State) : (countUnit s).st.env = (moveUnit s).st.env := rfl

theorem countUnit_value (s : State) : (countUnit s).value = (moveUnit s).value := rfl

theorem countUnit_pointers (s : State) :
    (countUnit s).st.reg (dmaSrc s) =
      steppedBy (ccSinc s.me.cc) (s.reg (dmaSrc s)) (unitBytes s) ∧
    (countUnit s).st.reg (dmaDst s) =
      steppedBy (ccDinc s.me.cc) (s.reg (dmaDst s)) (unitBytes s) := by
  have h := (moveUnit_moves s).1
  have hs : dmaSrc s ≠ .bc := by unfold dmaSrc; split <;> decide
  have hd : dmaDst s ≠ .bc := by unfold dmaDst; split <;> decide
  constructor
  · show ((moveUnit s).st.setReg .bc _).reg _ = _
    rw [State.reg_setReg_other _ _ hs, h.src]
  · show ((moveUnit s).st.setReg .bc _).reg _ = _
    rw [State.reg_setReg_other _ _ hd, h.dst]

/-! ## Checks and the end of a run -/

theorem keeps_setPin (s : State) (e : Event) (p : ExtPin) :
    (∀ r, ((s.setPin s.cur p).emit e).reg r = s.reg r) ∧
      ((s.setPin s.cur p).emit e).me = s.me ∧
      SameBytes s ((s.setPin s.cur p).emit e) :=
  ⟨fun _ => rfl, rfl, fun sp a => State.byteAt_congr sp rfl rfl a⟩

/-- A check changes nothing of the core: it may sample `EXT`. -/
theorem dmaCheck_core (latch : Option Bool) (s : State) :
    (dmaCheck latch s).2.ch0 = s.ch0 ∧ (dmaCheck latch s).2.ch1 = s.ch1 ∧
      (dmaCheck latch s).2.cur = s.cur ∧ (dmaCheck latch s).2.obligation = s.obligation ∧
      (dmaCheck latch s).2.dma = s.dma ∧ (dmaCheck latch s).2.env.mem = s.env.mem ∧
      (dmaCheck latch s).2.env.io = s.env.io ∧
      (dmaCheck latch s).2.env.answers = s.env.answers ∧
      (dmaCheck latch s).2.env.params = s.env.params ∧
      (dmaCheck latch s).2.env.schedule = s.env.schedule ∧
      ∃ es, (dmaCheck latch s).2.env.events = es ++ s.env.events ∧ bytesRead es = 0 ∧
        bytesWritten es = 0 := by
  unfold dmaCheck
  split
  · have h : ∀ x : Option Addr × State, x.2 = (sampleExt s).2 →
        x.2.ch0 = s.ch0 ∧ x.2.ch1 = s.ch1 ∧ x.2.cur = s.cur ∧ x.2.obligation = s.obligation ∧
          x.2.dma = s.dma ∧ x.2.env.mem = s.env.mem ∧ x.2.env.io = s.env.io ∧
          x.2.env.answers = s.env.answers ∧ x.2.env.params = s.env.params ∧
          x.2.env.schedule = s.env.schedule ∧
          ∃ es, x.2.env.events = es ++ s.env.events ∧ bytesRead es = 0 ∧ bytesWritten es = 0 := by
      rintro ⟨_, y⟩ rfl
      exact ⟨rfl, rfl, rfl, rfl, rfl, rfl, rfl, rfl, rfl, rfl, [_], rfl, rfl, rfl⟩
    dsimp only
    split
    · exact h _ rfl
    · exact h _ rfl
  · exact ⟨rfl, rfl, rfl, rfl, rfl, rfl, rfl, rfl, rfl, rfl, [], rfl, rfl, rfl⟩

theorem dmaCheck_me (latch : Option Bool) (s : State) : (dmaCheck latch s).2.me = s.me := by
  obtain ⟨h0, h1, hc, _⟩ := dmaCheck_core latch s
  exact State.me_congr h0 h1 hc

/-- The end of a run: `xp` is cleared and `tp` gets the skip (R250). -/
theorem terminate_me (sk : Addr) (s : State) :
    (terminate sk s).me = { s.me with xp := false, tp := s.me.tp + sk } := by
  unfold terminate
  rw [State.setReg_me, State.setXp_me]
  simp [Channel.write, State.reg, Channel.read]

theorem terminate_frame (sk : Addr) (s : State) : Keeps [.tp] [] (ended s) (terminate sk s) :=
  keeps_setReg _ .tp _

@[simp] theorem terminate_env (sk : Addr) (s : State) : (terminate sk s).env = s.env := rfl
@[simp] theorem terminate_dma (sk : Addr) (s : State) : (terminate sk s).dma = .idle := rfl
@[simp] theorem terminate_cur (sk : Addr) (s : State) : (terminate sk s).cur = s.cur := rfl
@[simp] theorem terminate_obligation (sk : Addr) (s : State) :
    (terminate sk s).obligation = s.obligation := rfl

theorem terminate_chan_other (sk : Addr) (s : State) {c : ChanId} (h : c ≠ s.cur) :
    (terminate sk s).chan c = s.chan c := by
  have e : (ended s).chan c = s.chan c := by
    unfold ended
    rw [State.chan_setXp_other { s with dma := .idle } false h, State.dma_chan]
  exact ((terminate_frame sk s).other c h).trans e

/-! ## The loop, one round at a time -/

theorem dmaLoop_zero (latch : Option Bool) (s : State) :
    dmaLoop 0 latch s = { s with dma := .suspended latch } := rfl

theorem dmaLoop_single (n : Nat) (latch : Option Bool) {s : State} (h : ccTs s.me.cc = true) :
    dmaLoop (n + 1) latch s = terminate 0#20 (countUnit s).st := by
  simp only [dmaLoop, h, if_true]

theorem dmaLoop_stop (n : Nat) {latch : Option Bool} {s : State} {sk : Addr}
    (h : ccTs s.me.cc = false) (hc : (dmaCheck latch s).1 = some sk) :
    dmaLoop (n + 1) latch s = terminate sk (dmaCheck latch s).2 := by
  simp [dmaLoop, h, hc]

theorem dmaLoop_go (n : Nat) {latch : Option Bool} {s : State} (h : ccTs s.me.cc = false)
    (hc : (dmaCheck latch s).1 = none) :
    dmaLoop (n + 1) latch s =
      dmaLoop n (some (maskedEq ((countUnit (dmaCheck latch s).2).value.setWidth 8)
        (countUnit (dmaCheck latch s).2).st.me.mc)) (countUnit (dmaCheck latch s).2).st := by
  simp [dmaLoop, h, hc]

end Sys2Proof.Machine
end

