-- ==== Sys2Proof/Laws/Exec.lean ====
section
/-! SUPPORT. The shared operations that the meanings are made of: what each leaves unchanged, and
that each keeps the memories canonical. -/

namespace Sys2Proof.Machine

/-! ## Addresses -/

theorem canonical_eaState {m : MemOp} {w : Width} {s : State} (h : Canonical s) :
    Canonical (eaState m w s) :=
  canonical_of_env (eaState_env m w s) h

theorem plain_eaState {m : MemOp} {w : Width} {s : State} (h : PlainHost s) :
    PlainHost (eaState m w s) := by
  unfold PlainHost
  rw [eaState_env]
  exact h

/-- Computing an address, then reads, then writes of registers and tags. -/
theorem keeps_of_reads {rs ts : List RegName} {m : MemOp} {w : Width} {s u t : State}
    (hu : ReadsOnly (eaState m w s) u) (ht : Keeps rs ts u t) : Keeps (rs ++ bumped m) ts s t :=
  ((keeps_eaState m w s).trans hu.keeps (qs := bumped m) (us := []) (by simp) (by simp)).trans ht
    (fun _ hr => List.mem_append.2 hr.symm) (by simp)

theorem canonical_of_reads {m : MemOp} {w : Width} {s u : State}
    (hu : ReadsOnly (eaState m w s) u) (h : Canonical s) : Canonical u :=
  hu.canonical (canonical_eaState h)

/-! ## Arithmetic and logic -/

theorem updateReg_frame (f : Addr → Addr) (r : RegName) (s : State) :
    Keeps [r] [] s (updateReg f r s) ∧ (updateReg f r s).env = s.env :=
  ⟨keeps_setReg s r _, rfl⟩

theorem updateReg_reg (f : Addr → Addr) (r : RegName) (s : State) :
    (updateReg f r s).reg r = cutReg r (f (s.reg r)) :=
  State.reg_setReg_same s r _

theorem updateRegMem_frame (f : Addr → Addr → Addr) (r : RegName) (m : MemOp) (w : Width)
    (s : State) : Keeps ([r] ++ bumped m) [] s (updateRegMem f r m w s) ∧
      LoadsOnly r [] m w (operandRead w m s) s (updateRegMem f r m w s) :=
  ⟨keeps_of_reads (memRead_reads w _ _ _) (keeps_setReg _ r _),
    loadsOnly_of_reads (memRead_reads w _ _ _) (keeps_setReg _ r _) rfl⟩

theorem updateRegMem_reg (f : Addr → Addr → Addr) (r : RegName) (m : MemOp) (w : Width)
    (s : State) : (updateRegMem f r m w s).reg r =
      cutReg r (f ((eaState m w s).reg r) (sextW w (operandOf w m s))) := by
  have h := (memRead_reads w (eaSpace m s) (eaAddr m s) (eaState m w s)).reg r
  show (State.setReg _ r (f _ _)).reg r = _
  rw [State.reg_setReg_same, ← h]
  rfl

theorem updateMem_frame (g : Half → Half) (m : MemOp) (w : Width) (s : State) :
    StoresOnly [] (widthBytes w) m w s (updateMem g m w s) :=
  storesOnly_of_store (memRead_reads w _ _ _) (keeps_memWrite w _ _ _ _)
    (sameBytesBut_memWrite w _ _ _ _)

theorem updateMem_eq (g : Half → Half) (m : MemOp) (w : Width) (s : State) :
    updateMem g m w s =
      memWrite w (eaSpace m s) (eaAddr m s) (g (operandOf w m s)) (operandRead w m s) := rfl

theorem updateMemReg_frame (g : Half → Half → Half) (m : MemOp) (r : RegName) (w : Width)
    (s : State) : StoresOnly [] (widthBytes w) m w s (updateMemReg g m r w s) :=
  storesOnly_of_store (memRead_reads w _ _ _) (keeps_memWrite w _ _ _ _)
    (sameBytesBut_memWrite w _ _ _ _)

theorem updateMemReg_eq (g : Half → Half → Half) (m : MemOp) (r : RegName) (w : Width)
    (s : State) : updateMemReg g m r w s =
      memWrite w (eaSpace m s) (eaAddr m s)
        (g (operandOf w m s) (lowHalf ((eaState m w s).reg r))) (operandRead w m s) := rfl

theorem updateByte_frame (g : Byte → Byte) (m : MemOp) (s : State) :
    StoresOnly [] 1 m .byte s (updateByte g m s) :=
  storesOnly_of_store (memRead8_reads _ _ _) (keeps_memWrite8 _ _ _ _)
    (sameBytesBut_memWrite8 _ _ _ _)

theorem updateByte_eq (g : Byte → Byte) (m : MemOp) (s : State) :
    updateByte g m s =
      memWrite8 (eaSpace m s) (eaAddr m s) (g (operandByte m s)) (operandRead .byte m s) := rfl

theorem operandRead_canonical {w : Width} {m : MemOp} {s : State} (h : Canonical s) :
    Canonical (operandRead w m s) :=
  canonical_of_reads (memRead_reads w _ _ _) h

theorem updateMem_canonical (g : Half → Half) (m : MemOp) (w : Width) {s : State}
    (h : Canonical s) : Canonical (updateMem g m w s) := by
  rw [updateMem_eq]
  exact (operandRead_canonical h).memWrite _ _ _ _

theorem updateMemReg_canonical (g : Half → Half → Half) (m : MemOp) (r : RegName) (w : Width)
    {s : State} (h : Canonical s) : Canonical (updateMemReg g m r w s) := by
  rw [updateMemReg_eq]
  exact (operandRead_canonical h).memWrite _ _ _ _

theorem updateByte_canonical (g : Byte → Byte) (m : MemOp) {s : State} (h : Canonical s) :
    Canonical (updateByte g m s) := by
  rw [updateByte_eq]
  exact (operandRead_canonical h).memWrite8 _ _ _

/-! ## Jumps -/

theorem jumpOnMem_frame (test : Half → Bool) (m : MemOp) (w : Width) (d : Imm) (s : State) :
    LoadsOnly .tp [] m w (operandRead w m s) s (jumpOnMem test m w d s) :=
  loadsOnly_of_reads (memRead_reads w _ _ _) (jumpIf_frame _ _ _).1 (jumpIf_frame _ _ _).2.1

theorem jumpOnMem_eq (test : Half → Bool) (m : MemOp) (w : Width) (d : Imm) (s : State) :
    jumpOnMem test m w d s = jumpIf (test (operandOf w m s)) (immValue d) (operandRead w m s) :=
  rfl

theorem jumpOnByte_frame (test : Byte → Half → Bool) (m : MemOp) (d : Imm) (s : State) :
    LoadsOnly .tp [] m .byte (operandRead .byte m s) s (jumpOnByte test m d s) :=
  loadsOnly_of_reads (memRead8_reads _ _ _) (jumpIf_frame _ _ _).1 (jumpIf_frame _ _ _).2.1

/-- Reading an operand leaves `tp` and `mc` alone. -/
theorem operandRead_reg {w : Width} {m : MemOp} {s : State} {r : RegName} (h : r ≠ .ix) :
    (operandRead w m s).reg r = s.reg r :=
  ((memRead_reads w _ _ _).reg r).trans (eaState_reg h)

theorem operandRead_mc (w : Width) (m : MemOp) (s : State) :
    (operandRead w m s).me.mc = s.me.mc := by
  have h := (keeps_eaState m w s).trans (memRead_reads w (eaSpace m s) (eaAddr m s) _).keeps
    (qs := bumped m) (us := []) (by simp) (by simp)
  refine h.mc ?_
  obtain ⟨b, mode⟩ := m
  cases mode <;> simp [bumped]

theorem jumpOnByte_eq (test : Byte → Half → Bool) (m : MemOp) (d : Imm) (s : State) :
    jumpOnByte test m d s =
      jumpIf (test (operandByte m s) s.me.mc) (immValue d) (operandRead .byte m s) := by
  rw [← operandRead_mc .byte m s]
  rfl

/-! ## Memory to memory -/

/-- The store of a carried value meets the obligation (R155). -/
theorem storeCarried_frame (m : MemOp) (w : Width) (v : Half) (s : State) :
    StoresOnly [] (widthBytes w) m w { s with obligation := none } (storeCarried m w v s) :=
  storesOnly_of_store (ReadsOnly.refl _) (keeps_memWrite w _ _ _ _)
    (sameBytesBut_memWrite w _ _ _ _)

theorem storeCarried_canonical (m : MemOp) (w : Width) (v : Half) {s : State} (h : Canonical s) :
    Canonical (storeCarried m w v s) :=
  (canonical_eaState (m := m) (w := w) (s := { s with obligation := none }) h).memWrite _ _ _ _

/-- A stop leaves the contents alone. -/
theorem raise_canonical (x : Stop) {s : State} (h : Canonical s) : Canonical (raise x s) := h

/-! ## The engine -/

theorem readSrc_canonical (w : Width) {s : State} (h : Canonical s) :
    Canonical (readSrc w s).2 :=
  canonical_of_env (advance_env _ _ _ _) ((memRead_reads w _ _ _).canonical h)

theorem writeDst_canonical (w : Width) (x : Half) {s : State} (h : Canonical s) :
    Canonical (writeDst w x s) :=
  canonical_of_env (advance_env _ _ _ _) (h.memWrite w _ _ _)

theorem moveUnit_canonical {s : State} (h : Canonical s) : Canonical (moveUnit s).st := by
  have h8 : Canonical (unit8to8 s).st := writeDst_canonical _ _ (readSrc_canonical _ h)
  unfold moveUnit
  split
  · exact h8
  · split
    · exact h8
    · exact writeDst_canonical _ _ (readSrc_canonical _ (readSrc_canonical _ h))
    · exact writeDst_canonical _ _ (writeDst_canonical _ _ (readSrc_canonical _ h))
    · exact writeDst_canonical _ _ (readSrc_canonical _ h)

theorem countUnit_canonical {s : State} (h : Canonical s) : Canonical (countUnit s).st :=
  canonical_of_env (countUnit_env s) (moveUnit_canonical h)

theorem dmaCheck_canonical {latch : Option Bool} {s : State} (h : Canonical s) :
    Canonical (dmaCheck latch s).2 := by
  obtain ⟨_, _, _, _, _, hm, hi, _⟩ := dmaCheck_core latch s
  exact h.congr hm hi

/-- A run keeps the memories canonical, however it ends or is cut. -/
theorem dmaLoop_canonical (n : Nat) : ∀ (latch : Option Bool) {s : State}, Canonical s →
    Canonical (dmaLoop n latch s) := by
  induction n with
  | zero => exact fun _ _ h => h
  | succ n ih =>
    intro latch s h
    cases ht : ccTs s.me.cc with
    | true =>
      rw [dmaLoop_single _ _ ht]
      exact canonical_of_env (terminate_env _ _) (countUnit_canonical h)
    | false =>
      cases hc : (dmaCheck latch s).1 with
      | some sk =>
        rw [dmaLoop_stop _ ht hc]
        exact canonical_of_env (terminate_env _ _) (dmaCheck_canonical h)
      | none =>
        rw [dmaLoop_go _ ht hc]
        exact ih _ (countUnit_canonical (dmaCheck_canonical h))

/-! ## Every instruction -/

/-- What every instruction leaves as it was: it writes the executing channel alone, and of that
neither `pp` nor its tag; it does not schedule anything; it never clears `xp`; it keeps the memories
canonical; and it leaves the status as it was or stops the channel. -/
structure Ran (s t : State) : Prop where
  cur : t.cur = s.cur
  dma : t.dma = s.dma
  other : ∀ c, c ≠ s.cur → t.chan c = s.chan c
  pp : t.reg .pp = s.reg .pp
  tagPp : t.tag .pp = s.tag .pp
  schedule : t.env.schedule = s.env.schedule
  params : t.env.params = s.env.params
  canonical : Canonical s → Canonical t
  xp : s.me.xp = true → t.me.xp = true
  status : t.me.status = s.me.status ∨ t.me.status = .halted ∨ ∃ f, t.me.status = .faulted f
  obligation : s.obligation = none → t.obligation = none

theorem Ran.of_keeps {rs ts : List RegName} {s t : State} (h : Keeps rs ts s t) (hr : .pp ∉ rs)
    (ht : .pp ∉ ts) (hc : Canonical s → Canonical t) : Ran s t where
  cur := h.cur
  dma := h.dma
  other := h.other
  pp := h.regs _ hr
  tagPp := h.tags _ ht
  schedule := h.schedule
  params := h.params
  canonical := hc
  xp x := h.xp.trans x
  status := .inl h.status
  obligation x := h.obligation.trans x

theorem Ran.refl (s : State) : Ran s s :=
  Ran.of_keeps (Keeps.refl [] [] s) (by simp) (by simp) id

theorem Ran.trans {s t u : State} (h : Ran s t) (k : Ran t u) : Ran s u where
  cur := k.cur.trans h.cur
  dma := k.dma.trans h.dma
  other c hc := (k.other c (by rw [h.cur]; exact hc)).trans (h.other c hc)
  pp := k.pp.trans h.pp
  tagPp := k.tagPp.trans h.tagPp
  schedule := k.schedule.trans h.schedule
  params := k.params.trans h.params
  canonical x := k.canonical (h.canonical x)
  xp x := k.xp (h.xp x)
  status := by
    rcases k.status with e | e | e
    · rw [e]; exact h.status
    · exact .inr (.inl e)
    · exact .inr (.inr e)
  obligation x := k.obligation (h.obligation x)

/-- A stop is one of the things an instruction can do. -/
theorem raise_ran (x : Stop) (s : State) : Ran s (raise x s) := by
  obtain ⟨h1, h2, h3, h4, h5, h6⟩ := raise_stops x s
  refine ⟨h3, h5, h2, by simp [State.reg, h1], by simp [State.tag, h1], by rw [h6], by rw [h6],
    raise_canonical x, by rw [h1]; exact id, ?_, fun _ => h4⟩
  rw [h1]
  cases x <;> simp [Stop.status]

theorem rrrName_ne_pp (r : Reg) : rrrName r ≠ .pp := by cases r <;> decide

theorem pppName_ne_pp (p : PReg) : pppName p ≠ .pp := by cases p <;> decide

theorem pp_not_mem_bumped (m : MemOp) : RegName.pp ∉ bumped m := by
  obtain ⟨b, mode⟩ := m
  cases mode <;> simp [bumped]

theorem loadReg_ran {r : RegName} (h : r ≠ .pp) (v : Addr) (sp : Space) (s : State) :
    Ran s (loadReg r v sp s) :=
  Ran.of_keeps (loadReg_frame r v sp s).1 (by simpa using h.symm) (by simpa using h.symm) id

theorem reads_ran {m : MemOp} {w : Width} {s u : State} (hu : ReadsOnly (eaState m w s) u) :
    Ran s u :=
  Ran.of_keeps (keeps_of_reads hu (Keeps.refl [] [] u)) (by simp [pp_not_mem_bumped]) (by simp)
    (canonical_of_reads hu)

theorem StoresOnly.ran {n : Nat} {m : MemOp} {w : Width} {s t : State}
    (h : StoresOnly [] n m w s t) (hc : Canonical s → Canonical t) : Ran s t :=
  Ran.of_keeps h.1 (by simp [pp_not_mem_bumped]) (by simp) hc

theorem jumpIf_ran (taken : Bool) (d : Addr) (s : State) : Ran s (jumpIf taken d s) :=
  Ran.of_keeps (jumpIf_frame taken d s).1 (by simp) (by simp)
    fun h => canonical_of_env (jumpIf_frame taken d s).2.1 h

theorem Fetches.ran {n : Nat} {s t : State} (h : Fetches n s t) : Ran s t :=
  Ran.of_keeps h.keeps (by simp) (by simp) h.canonical

theorem updateReg_ran (f : Addr → Addr) (r : Reg) (s : State) :
    Ran s (updateReg f (rrrName r) s) :=
  Ran.of_keeps (updateReg_frame f _ s).1 (by simpa using (rrrName_ne_pp r).symm) (by simp) id

theorem updateRegMem_ran (f : Addr → Addr → Addr) (r : Reg) (m : MemOp) (w : Width) (s : State) :
    Ran s (updateRegMem f (rrrName r) m w s) :=
  Ran.of_keeps (updateRegMem_frame f _ m w s).1
    (by simp [pp_not_mem_bumped, (rrrName_ne_pp r).symm]) (by simp)
    fun c => canonical_of_env rfl (operandRead_canonical (w := w) (m := m) c)

theorem storePointer_ran (m : MemOp) (v : Addr) (sp : Space) (s : State) :
    Ran s (storePointer (eaSpace m s) (eaAddr m s) v sp (eaState m .word s)) :=
  StoresOnly.ran (storesOnly_of_store (ReadsOnly.refl _) (storePointer_frame _ _ _ _ _).1
    (storePointer_frame _ _ _ _ _).2)
    fun c => ((canonical_eaState c).memWrite16 _ _ _).memWrite8 _ _ _

/-- The carried value is stored and the obligation met. -/
theorem storeCarried_ran (m : MemOp) (w : Width) (v : Half) (s : State) :
    Ran s (storeCarried m w v s) ∧ (storeCarried m w v s).obligation = none := by
  have r := StoresOnly.ran (s := { s with obligation := none }) (storeCarried_frame m w v s)
    fun c => storeCarried_canonical m w v c
  exact ⟨⟨r.cur, r.dma, fun c hc => by rw [r.other c hc]; simp, r.pp, r.tagPp, r.schedule, r.params,
    r.canonical, r.xp, r.status, fun _ => r.obligation rfl⟩, r.obligation rfl⟩

theorem rejectWord_ran {obl : Bool} {r : Reason} {u : RawUnit} {s t : State}
    (h : rejectWord obl r u s = .next t) : Ran s t ∧ t.obligation = none := by
  unfold rejectWord at h
  split at h
  · cases h
    exact ⟨raise_ran _ s, rfl⟩
  · split at h
    · cases h
      exact ⟨raise_ran _ s, rfl⟩
    · cases h

/-- The second unit of `mov M,M` is stored, or stops the channel. -/
theorem runStoreHalf_ran {u : RawUnit} {s t : State} (h : runStoreHalf u s = .next t) :
    Ran s t ∧ t.obligation = none := by
  unfold runStoreHalf at h
  split at h
  · split at h
    · cases h
      exact storeCarried_ran _ _ _ s
    · cases h
      exact ⟨raise_ran _ s, rfl⟩
  · exact rejectWord_ran h
  · exact rejectWord_ran h

theorem execMovMMLoad_ran {m : MemOp} {w : Width} {s t : State}
    (h : execMovMMLoad m w s = .next t) : Ran s t := by
  have r1 : Ran s (operandRead w m s) := reads_ran (memRead_reads w _ _ _)
  have r2 := (fetchUnit_fetches
    { operandRead w m s with obligation := some (operandOf w m s) }).ran
  obtain ⟨r3, ho⟩ := runStoreHalf_ran h
  have q := r2.trans r3
  refine ⟨q.cur.trans r1.cur, q.dma.trans r1.dma, ?_, q.pp.trans r1.pp, q.tagPp.trans r1.tagPp,
    q.schedule.trans r1.schedule, q.params.trans r1.params, fun c => q.canonical (r1.canonical c),
    fun x => q.xp (r1.xp x), ?_, fun _ => ho⟩
  · intro c hc
    have hc' : c ≠ (operandRead w m s).cur := by rw [r1.cur]; exact hc
    rw [q.other c hc', ← r1.other c hc, State.obligation_chan]
  · rcases q.status with e | e | e
    · rw [e]; exact r1.status
    · exact .inr (.inl e)
    · exact .inr (.inr e)

/-- Every instruction, when it answers a next state. -/
theorem exec_ran (i : Instr) {s t : State} (h : exec i s = .next t) : Ran s t := by
  cases i <;> simp only [exec] at h
  case nop => cases h; exact Ran.refl s
  case sintr =>
    cases h
    split
    · exact Ran.of_keeps (rs := []) (ts := []) (keeps_logged s [_]) (by simp) (by simp) id
    · exact Ran.refl s
  case xfer =>
    cases h
    exact ⟨rfl, rfl, fun c hc => State.chan_setXp_other _ _ hc, by simp, by simp, rfl, rfl, id,
      by simp, by simp, id⟩
  case wid =>
    cases h
    exact ⟨rfl, rfl, fun c hc => State.chan_setWid_other _ _ _ hc, by simp, by simp, rfl, rfl, id,
      by simp, by simp, id⟩
  case hlt | tsl => cases h; exact raise_ran _ s
  case lpdi p _ _ => cases h; exact loadReg_ran (pppName_ne_pp p) _ _ s
  case moviR r _ _ => cases h; exact loadReg_ran (rrrName_ne_pp r) _ _ s
  case addiR | oriR | andiR | notR | incR | decR => cases h; exact updateReg_ran _ _ s
  case jmp | ljmp | jzR | jnzR => cases h; exact jumpIf_ran _ _ s
  case moviM | movMR =>
    cases h
    exact StoresOnly.ran (storesOnly_of_store (ReadsOnly.refl _) (keeps_memWrite _ _ _ _ _)
      (sameBytesBut_memWrite _ _ _ _ _)) fun c => (canonical_eaState c).memWrite _ _ _ _
  case movRM r m w =>
    cases h
    exact (reads_ran (memRead_reads w _ _ _)).trans (loadReg_ran (rrrName_ne_pp r) _ _ _)
  case lpd p m =>
    cases h
    exact (reads_ran (memRead32_reads _ _ _)).trans (loadReg_ran (pppName_ne_pp p) _ _ _)
  case movpPM p m =>
    cases h
    exact (reads_ran (loadPointer_reads _ _ _)).trans (loadReg_ran (pppName_ne_pp p) _ _ _)
  case addRM | orRM | andRM | notRM => cases h; exact updateRegMem_ran _ _ _ _ s
  case addiM | oriM | andiM | notM | incM | decM =>
    cases h
    exact StoresOnly.ran (updateMem_frame _ _ _ s) (updateMem_canonical _ _ _)
  case addMR | orMR | andMR =>
    cases h
    exact StoresOnly.ran (updateMemReg_frame _ _ _ _ s) (updateMemReg_canonical _ _ _ _)
  case setb | clr =>
    cases h
    exact StoresOnly.ran (updateByte_frame _ _ s) (updateByte_canonical _ _)
  case jnzM m _ w | jzM m _ w =>
    cases h
    rw [jumpOnMem_eq]
    exact (reads_ran (memRead_reads w _ _ _)).trans (jumpIf_ran _ _ _)
  case jmce m _ | jmcne m _ | jbt m _ _ | jnbt m _ _ =>
    cases h
    rw [jumpOnByte_eq]
    exact (reads_ran (memRead8_reads _ _ _)).trans (jumpIf_ran _ _ _)
  case movpMP m p => cases h; exact storePointer_ran m _ _ s
  case call m d => cases h; exact (storePointer_ran m _ _ s).trans (jumpIf_ran _ _ _)
  case movMMStore m w =>
    simp only [execMovMMStore] at h
    split at h
    · cases h
      exact (storeCarried_ran _ _ _ s).1
    · cases h
      exact raise_ran _ s
  case movMMLoad m w => exact execMovMMLoad_ran h

/-- One instruction with its fetch (R121). -/
theorem execOne_ran {s t : State} (h : execOne s = .next t) : Ran s t := by
  have f := (fetchUnit_fetches s).ran
  unfold execOne at h
  dsimp only at h
  split at h
  · split at h
    · exact f.trans (rejectWord_ran h).1
    · cases h
      exact f
  · split at h
    · exact f.trans (exec_ran _ h)
    · cases h
      exact f

/-! ## Activation -/

/-- The value of a 4-byte read on a plain host. -/
theorem memRead32_plain {s : State} (h : PlainHost s) (sp : Space) (a : Addr) :
    (memRead32 sp a s).1 = halfAt s sp (a + 2#20) ++ halfAt s sp a := by
  have h1 := memRead16_reads sp a s
  simp only [memRead32, memRead16_plain h, memRead16_plain (h1.plain h), halfAt, h1.byteAt]

/-- The register value of a segmented pointer read on a plain host (R22(a)). -/
theorem flat_memRead32_plain {s : State} (h : PlainHost s) (a : Addr) :
    flat (memRead32 .mem a s).1 = segmentedAt s a := by
  apply BitVec.eq_of_toNat_eq
  have h1 := (halfAt s .mem (a + 2#20)).isLt
  have h2 := (halfAt s .mem a).isLt
  rw [flat_toNat, memRead32_plain h, BitVec.toNat_append,
    ← Nat.shiftLeft_add_eq_or_of_lt (by omega), Nat.shiftLeft_eq]
  simp only [segmentedAt, BitVec.toNat_ofNat]
  omega

/-- The first four steps of the bootstrap only read (R292). -/
theorem bootControlBlock_reads (c : ChanId) (s : State) :
    ReadsOnly s (bootControlBlock c s).2 :=
  (((memRead8_reads _ _ s).trans (memRead32_reads _ _ _)).trans (memRead8_reads _ _ _)).trans
    (memRead32_reads _ _ _)

end Sys2Proof.Machine
end

