-- ==== Sys2Proof/Laws/PerInstr.lean ====
section
/-! SUPPORT. Statements about every instruction as syntax, one lemma per constructor. -/

namespace Sys2Proof.Laws.EncodedLength

open Sys2Proof

/-- R74: an instruction's bytes are as many as its first word alone tells, from 2 to 6. -/
def Statement (i : Instr) : Prop :=
  (encode i).length = (encodeFields i).length ∧ 2 ≤ (encode i).length ∧
    (encode i).length ≤ Config.maxLength

/-- An instruction without trailing bytes. -/
theorem of_none {i : Instr} (h : encodeTrail i = .none) (hk : (encodeFields i).trailKind = .none) :
    Statement i := by
  by_cases ha : (encodeFields i).aa = 1#2 <;>
    simp [Statement, encode_length, h, Fields.length, hk, TrailKind.size, Trail.bytes,
      Config.maxLength, ha]

/-- An instruction whose trailing bytes are an immediate or a displacement. -/
theorem of_imm {i : Instr} (d : Imm) (h : encodeTrail i = d.trail)
    (hk : (encodeFields i).trailKind.size = d.wb.toNat) : Statement i := by
  have hd : d.wb.toNat ≤ 2 := by cases d <;> simp [Imm.wb]
  by_cases ha : (encodeFields i).aa = 1#2 <;>
    simp [Statement, encode_length, h, Fields.length, hk, Config.maxLength, ha] <;> omega

/-- The trailing bytes that the `wb` of an immediate calls for, in a word of another opcode than
`lpdi`. -/
theorem size_of_imm (d : Imm) {f : Fields} (hw : f.wb = d.wb) (ho : f.opc ≠ 0x02#6) :
    f.trailKind.size = d.wb.toNat := by
  simp only [Fields.trailKind, hw]
  cases d <;> simp [Imm.wb, ho, TrailKind.size]

theorem nop : Statement .nop :=
  of_none rfl rfl

theorem sintr : Statement .sintr :=
  of_none rfl rfl

theorem xfer : Statement .xfer :=
  of_none rfl rfl

theorem wid (src : Width) (dst : Width) : Statement (.wid src dst) :=
  of_none rfl rfl

theorem lpdi (p : PReg) (off : Half) (seg : Half) : Statement (.lpdi p off seg) := by
  refine ⟨?_, ?_, ?_⟩ <;> simp [encode_length, encodeFields, encodeTrail, encReg, Trail.bytes,
    Fields.length, Fields.trailKind, TrailKind.size, Config.maxLength]

theorem addiR (r : Reg) (i : Imm) (w : Width) : Statement (.addiR r i w) :=
  of_imm i rfl (size_of_imm i rfl (by simp [encodeFields, encReg]))

theorem jmp (d : Byte) : Statement (.jmp d) :=
  of_imm (.byte d) rfl rfl

theorem ljmp (d : Half) : Statement (.ljmp d) :=
  of_imm (.word d) rfl rfl

theorem oriR (r : Reg) (i : Imm) (w : Width) : Statement (.oriR r i w) :=
  of_imm i rfl (size_of_imm i rfl (by simp [encodeFields, encReg]))

theorem andiR (r : Reg) (i : Imm) (w : Width) : Statement (.andiR r i w) :=
  of_imm i rfl (size_of_imm i rfl (by simp [encodeFields, encReg]))

theorem notR (r : Reg) : Statement (.notR r) :=
  of_none rfl rfl

theorem moviR (r : Reg) (i : Imm) (w : Width) : Statement (.moviR r i w) :=
  of_imm i rfl (size_of_imm i rfl (by simp [encodeFields, encReg]))

theorem incR (r : Reg) : Statement (.incR r) :=
  of_none rfl rfl

theorem decR (r : Reg) : Statement (.decR r) :=
  of_none rfl rfl

theorem jnzR (r : Reg) (d : Imm) : Statement (.jnzR r d) :=
  of_imm d rfl (size_of_imm d rfl (by simp [encodeFields, encReg]))

theorem jzR (r : Reg) (d : Imm) : Statement (.jzR r d) :=
  of_imm d rfl (size_of_imm d rfl (by simp [encodeFields, encReg]))

theorem hlt : Statement .hlt :=
  of_none rfl rfl

theorem moviM (m : MemOp) (i : Imm) (w : Width) : Statement (.moviM m i w) :=
  of_imm i rfl (size_of_imm i rfl (by simp [encodeFields, encMem]))

theorem movRM (r : Reg) (m : MemOp) (w : Width) : Statement (.movRM r m w) :=
  of_none rfl rfl

theorem movMR (m : MemOp) (r : Reg) (w : Width) : Statement (.movMR m r w) :=
  of_none rfl rfl

theorem lpd (p : PReg) (m : MemOp) : Statement (.lpd p m) :=
  of_none rfl rfl

theorem movpPM (p : PReg) (m : MemOp) : Statement (.movpPM p m) :=
  of_none rfl rfl

theorem movMMLoad (m : MemOp) (w : Width) : Statement (.movMMLoad m w) :=
  of_none rfl rfl

theorem tsl (m : MemOp) (i : Byte) (d : Byte) : Statement (.tsl m i d) := by
  by_cases ha : m.mode.bits = 1#2 <;>
    simp [Statement, encode_length, encodeFields, encodeTrail, encMem, Trail.bytes,
      Fields.length, Fields.trailKind, TrailKind.size, Config.maxLength, ha]

theorem movpMP (m : MemOp) (p : PReg) : Statement (.movpMP m p) :=
  of_none rfl rfl

theorem call (m : MemOp) (d : Imm) : Statement (.call m d) :=
  of_imm d rfl (size_of_imm d rfl (by simp [encodeFields, encMem]))

theorem addRM (r : Reg) (m : MemOp) (w : Width) : Statement (.addRM r m w) :=
  of_none rfl rfl

theorem orRM (r : Reg) (m : MemOp) (w : Width) : Statement (.orRM r m w) :=
  of_none rfl rfl

theorem andRM (r : Reg) (m : MemOp) (w : Width) : Statement (.andRM r m w) :=
  of_none rfl rfl

theorem notRM (r : Reg) (m : MemOp) (w : Width) : Statement (.notRM r m w) :=
  of_none rfl rfl

theorem jmce (m : MemOp) (d : Imm) : Statement (.jmce m d) :=
  of_imm d rfl (size_of_imm d rfl (by simp [encodeFields, encMem]))

theorem jmcne (m : MemOp) (d : Imm) : Statement (.jmcne m d) :=
  of_imm d rfl (size_of_imm d rfl (by simp [encodeFields, encMem]))

theorem jnbt (m : MemOp) (b : BitVec 3) (d : Imm) : Statement (.jnbt m b d) :=
  of_imm d rfl (size_of_imm d rfl (by simp [encodeFields, encMem]))

theorem jbt (m : MemOp) (b : BitVec 3) (d : Imm) : Statement (.jbt m b d) :=
  of_imm d rfl (size_of_imm d rfl (by simp [encodeFields, encMem]))

theorem addiM (m : MemOp) (i : Imm) (w : Width) : Statement (.addiM m i w) :=
  of_imm i rfl (size_of_imm i rfl (by simp [encodeFields, encMem]))

theorem oriM (m : MemOp) (i : Imm) (w : Width) : Statement (.oriM m i w) :=
  of_imm i rfl (size_of_imm i rfl (by simp [encodeFields, encMem]))

theorem andiM (m : MemOp) (i : Imm) (w : Width) : Statement (.andiM m i w) :=
  of_imm i rfl (size_of_imm i rfl (by simp [encodeFields, encMem]))

theorem movMMStore (m : MemOp) (w : Width) : Statement (.movMMStore m w) :=
  of_none rfl rfl

theorem addMR (m : MemOp) (r : Reg) (w : Width) : Statement (.addMR m r w) :=
  of_none rfl rfl

theorem orMR (m : MemOp) (r : Reg) (w : Width) : Statement (.orMR m r w) :=
  of_none rfl rfl

theorem andMR (m : MemOp) (r : Reg) (w : Width) : Statement (.andMR m r w) :=
  of_none rfl rfl

theorem notM (m : MemOp) (w : Width) : Statement (.notM m w) :=
  of_none rfl rfl

theorem jnzM (m : MemOp) (d : Imm) (w : Width) : Statement (.jnzM m d w) :=
  of_imm d rfl (size_of_imm d rfl (by simp [encodeFields, encMem]))

theorem jzM (m : MemOp) (d : Imm) (w : Width) : Statement (.jzM m d w) :=
  of_imm d rfl (size_of_imm d rfl (by simp [encodeFields, encMem]))

theorem incM (m : MemOp) (w : Width) : Statement (.incM m w) :=
  of_none rfl rfl

theorem decM (m : MemOp) (w : Width) : Statement (.decM m w) :=
  of_none rfl rfl

theorem setb (m : MemOp) (b : BitVec 3) : Statement (.setb m b) :=
  of_none rfl rfl

theorem clr (m : MemOp) (b : BitVec 3) : Statement (.clr m b) :=
  of_none rfl rfl

end Sys2Proof.Laws.EncodedLength
end

