-- ==== Sys2Proof/Tests/Slice0.lean ====
section
/-! SUPPORT. The model's own tests. The words and the expected results are those of
spec/95_test_vectors.md, section 0 of which gives the start state; a vector's id stands beside each
test. The last part shows that the hypotheses of the statements can be met. -/

namespace Sys2Proof.Tests.Slice0

open Sys2Proof Sys2Proof.Machine

/-! ## Well-formedness (R102) -/

theorem test_wf_refuses_addi_spelling_of_jmp :
    Instr.wf (.addiR .tp (.byte 0x04#8) .byte) = false := by decide

theorem test_wf_refuses_addi_spelling_of_ljmp :
    Instr.wf (.addiR .tp (.word 0x0200#16) .word) = false := by decide

theorem test_wf_accepts_the_other_addi_tp :
    Instr.wf (.addiR .tp (.byte 0x04#8) .word) = true ∧
      Instr.wf (.addiR .tp (.word 0x0200#16) .byte) = true := by decide

/-! ## Words numbered as the opcode table numbers them -/

theorem test_decodeTableWord_trailing_zeros :
    decodeTableWord 16 0x0831 = some (.lpdi .gb 0#16 0#16) := by decide

theorem test_decodeTableWord_store_half :
    decodeTableWord 24 0x02CD03 = some (.movMMStore ⟨.gb, .offset 0x02#8⟩ .word) := by decide

theorem test_decodeTableWord_reserved : decodeTableWord 16 0x0020 = none := by decide

/-! ## Decoding: one word per constructor, from section 2 to 9 of the vectors -/

theorem test_decode_nop :
    decode false [0x00#8, 0x00#8] = .ok (.nop, []) := by decide

theorem test_decode_sintr :
    decode false [0x40#8, 0x00#8] = .ok (.sintr, []) := by decide

theorem test_decode_xfer :
    decode false [0x60#8, 0x00#8] = .ok (.xfer, []) := by decide

theorem test_decode_wid :
    decode false [0xA0#8, 0x00#8] = .ok (.wid .byte .word, []) := by decide

theorem test_decode_lpdi :
    decode false [0x31#8, 0x08#8, 0x10#8, 0x00#8, 0x00#8, 0x20#8] =
      .ok (.lpdi .gb 0x0010#16 0x2000#16, []) := by decide

theorem test_decode_addi_register :
    decode false [0x68#8, 0x20#8, 0xFF#8] = .ok (.addiR .bc (.byte 0xFF#8) .byte, []) := by decide

theorem test_decode_jmp :
    decode false [0x88#8, 0x20#8, 0xFD#8] = .ok (.jmp 0xFD#8, []) := by decide

theorem test_decode_ljmp :
    decode false [0x91#8, 0x20#8, 0xFC#8, 0xFF#8] = .ok (.ljmp 0xFFFC#16, []) := by decide

theorem test_decode_ori_register :
    decode false [0xD1#8, 0x24#8, 0x08#8, 0xC0#8] =
      .ok (.oriR .cc (.word 0xC008#16) .word, []) := by decide

theorem test_decode_andi_register :
    decode false [0xA8#8, 0x28#8, 0x0F#8] = .ok (.andiR .ix (.byte 0x0F#8) .byte, []) := by decide

theorem test_decode_not_register :
    decode false [0xE0#8, 0x2C#8] = .ok (.notR .mc, []) := by decide

theorem test_decode_movi_register :
    decode false [0x50#8, 0x30#8, 0x34#8, 0x12#8] =
      .ok (.moviR .gc (.word 0x1234#16) .byte, []) := by decide

theorem test_decode_inc_register :
    decode false [0x80#8, 0x38#8] = .ok (.incR .tp, []) := by decide

theorem test_decode_dec_register :
    decode false [0x20#8, 0x3C#8] = .ok (.decR .gb, []) := by decide

theorem test_decode_jnz_register :
    decode false [0xB0#8, 0x40#8, 0x00#8, 0xFF#8] =
      .ok (.jnzR .ix (.word 0xFF00#16), []) := by decide

theorem test_decode_jz_register :
    decode false [0x08#8, 0x44#8, 0xFD#8] = .ok (.jzR .ga (.byte 0xFD#8), []) := by decide

theorem test_decode_hlt :
    decode false [0x20#8, 0x48#8] = .ok (.hlt, []) := by decide

theorem test_decode_movi_memory :
    decode false [0x17#8, 0x4C#8, 0xAA#8, 0x55#8] =
      .ok (.moviM ⟨.ga, .indexInc⟩ (.word 0x55AA#16) .word, []) := by decide

theorem test_decode_mov_load :
    decode false [0x63#8, 0x80#8, 0x02#8] =
      .ok (.movRM .bc ⟨.ga, .offset 0x02#8⟩ .word, []) := by decide

theorem test_decode_mov_store :
    decode false [0x02#8, 0x87#8, 0x04#8] =
      .ok (.movMR ⟨.pp, .offset 0x04#8⟩ .ga .byte, []) := by decide

theorem test_decode_lpd :
    decode false [0x47#8, 0x88#8] = .ok (.lpd .gc ⟨.ga, .indexInc⟩, []) := by decide

theorem test_decode_movp_load :
    decode false [0x81#8, 0x8E#8] = .ok (.movpPM .tp ⟨.gc, .base⟩, []) := by decide

theorem test_decode_mov_load_half :
    decode false [0x06#8, 0x90#8] = .ok (.movMMLoad ⟨.ga, .indexInc⟩ .byte, []) := by decide

theorem test_decode_tsl :
    decode false [0x18#8, 0x94#8, 0xFF#8, 0x05#8] =
      .ok (.tsl ⟨.ga, .base⟩ 0xFF#8 0x05#8, []) := by decide

theorem test_decode_movp_store :
    decode false [0x83#8, 0x9B#8, 0x04#8] = .ok (.movpMP ⟨.pp, .offset 0x04#8⟩ .tp, []) := by decide

theorem test_decode_call :
    decode false [0x93#8, 0x9F#8, 0x02#8, 0x00#8, 0x03#8] =
      .ok (.call ⟨.pp, .offset 0x02#8⟩ (.word 0x0300#16), []) := by decide

theorem test_decode_add_register :
    decode false [0xA7#8, 0xA0#8] = .ok (.addRM .ix ⟨.ga, .indexInc⟩ .word, []) := by decide

theorem test_decode_or_register :
    decode false [0x00#8, 0xA5#8] = .ok (.orRM .ga ⟨.gb, .base⟩ .byte, []) := by decide

theorem test_decode_and_register :
    decode false [0x01#8, 0xA9#8] = .ok (.andRM .ga ⟨.gb, .base⟩ .word, []) := by decide

theorem test_decode_not_register_memory :
    decode false [0x61#8, 0xAC#8] = .ok (.notRM .bc ⟨.ga, .base⟩ .word, []) := by decide

theorem test_decode_jmce :
    decode false [0x08#8, 0xB0#8, 0x08#8] = .ok (.jmce ⟨.ga, .base⟩ (.byte 0x08#8), []) := by decide

theorem test_decode_jmcne :
    decode false [0x08#8, 0xB4#8, 0x08#8] =
      .ok (.jmcne ⟨.ga, .base⟩ (.byte 0x08#8), []) := by decide

theorem test_decode_jnbt :
    decode false [0x08#8, 0xB8#8, 0xFD#8] =
      .ok (.jnbt ⟨.ga, .base⟩ 0#3 (.byte 0xFD#8), []) := by decide

theorem test_decode_jbt :
    decode false [0xF4#8, 0xBC#8, 0x00#8, 0x01#8] =
      .ok (.jbt ⟨.ga, .index⟩ 7#3 (.word 0x0100#16), []) := by decide

theorem test_decode_addi_memory :
    decode false [0x0A#8, 0xC1#8, 0x03#8, 0xFE#8] =
      .ok (.addiM ⟨.gb, .offset 0x03#8⟩ (.byte 0xFE#8) .byte, []) := by decide

theorem test_decode_ori_memory :
    decode false [0x11#8, 0xC6#8, 0x01#8, 0x80#8] =
      .ok (.oriM ⟨.gc, .base⟩ (.word 0x8001#16) .word, []) := by decide

theorem test_decode_andi_memory :
    decode false [0x13#8, 0xCB#8, 0x06#8, 0xF0#8, 0x0F#8] =
      .ok (.andiM ⟨.pp, .offset 0x06#8⟩ (.word 0x0FF0#16) .word, []) := by decide

theorem test_decode_mov_store_half :
    decode true [0x03#8, 0xCD#8, 0x02#8] =
      .ok (.movMMStore ⟨.gb, .offset 0x02#8⟩ .word, []) := by decide

theorem test_decode_add_memory :
    decode false [0x20#8, 0xD0#8] = .ok (.addMR ⟨.ga, .base⟩ .gb .byte, []) := by decide

theorem test_decode_or_memory :
    decode false [0x01#8, 0xD5#8] = .ok (.orMR ⟨.gb, .base⟩ .ga .word, []) := by decide

theorem test_decode_and_memory :
    decode false [0xE1#8, 0xD9#8] = .ok (.andMR ⟨.gb, .base⟩ .mc .word, []) := by decide

theorem test_decode_not_memory :
    decode false [0x04#8, 0xDC#8] = .ok (.notM ⟨.ga, .index⟩ .byte, []) := by decide

theorem test_decode_jnz_memory :
    decode false [0x16#8, 0xE1#8, 0x10#8, 0x00#8] =
      .ok (.jnzM ⟨.gb, .indexInc⟩ (.word 0x0010#16) .byte, []) := by decide

theorem test_decode_jz_memory :
    decode false [0x09#8, 0xE4#8, 0x04#8] =
      .ok (.jzM ⟨.ga, .base⟩ (.byte 0x04#8) .word, []) := by decide

theorem test_decode_inc_memory :
    decode false [0x06#8, 0xE8#8] = .ok (.incM ⟨.ga, .indexInc⟩ .byte, []) := by decide

theorem test_decode_dec_memory :
    decode false [0x01#8, 0xED#8] = .ok (.decM ⟨.gb, .base⟩ .word, []) := by decide

theorem test_decode_setb :
    decode false [0xE0#8, 0xF4#8] = .ok (.setb ⟨.ga, .base⟩ 7#3, []) := by decide

theorem test_decode_clr :
    decode false [0x62#8, 0xFB#8, 0x01#8] = .ok (.clr ⟨.pp, .offset 0x01#8⟩ 3#3, []) := by decide

/-! ## Steps -/

/-- The start state of section 0, with the bytes at `tp`, registers with tags, and contents. -/
def start (bytes : List Byte) (regs : List (RegName × Addr × Space))
    (cells : List (Space × Addr × List Byte)) : State :=
  let s0 := { State.reset with ch0 := { Channel.reset with tp := 0x100, status := .running } }
  let s1 := regs.foldl (fun s x => (s.setReg x.1 x.2.1).setTag x.1 x.2.2) s0
  let s2 := cells.foldl (fun s x => (x.2.2.zipIdx).foldl
    (fun t b => t.setByte x.1 (x.2.1 + BitVec.ofNat 20 b.2) b.1) s) s1
  placeBytes bytes (s2.reg .tp) s2

/-- A host without the 16-bit primitive for memory. -/
def without16 (s : State) : State :=
  { s with env := { s.env with params := { s.env.params with bus16Mem := false } } }

/-- A host that drives `EXT(0)` low. -/
def extLow (s : State) : State := s.setPin .ch0 ⟨false, []⟩

/-- The next state, if there is one, has a property. -/
def after (s : State) (p : State → Bool) : Bool :=
  match step s with
  | .next t => p t
  | .fault _ => false
  | .refused _ => false

/-- An event the vectors list: not a fetch, a sample or a stop. -/
def isData : Event → Bool
  | .read8 .mem a _ => !(0x100 ≤ a.toNat && a.toNat < 0x110)
  | .read16 .mem a _ => !(0x100 ≤ a.toNat && a.toNat < 0x110)
  | .read8 .io _ _ | .read16 .io _ _ => true
  | .write8 _ _ _ | .write16 _ _ _ | .sintr _ => true
  | .extSample _ _ | .stop _ _ => false

/-- One step ends in the given status, registers with tags, and data accesses in order. -/
def ends (s : State) (x : Status) (regs : List (RegName × Addr × Space)) (data : List Event) :
    Bool :=
  after s fun t => t.me.status == x &&
    regs.all (fun r => t.reg r.1 == r.2.1 && t.tag r.1 == r.2.2) &&
    (t.env.events.filter isData).reverse == data

theorem test_nop_advances_tp : -- E1
    ends (start [0x00, 0x00] [] [])
      .running [(.tp, 0x102, .mem)]
      [] = true := by decide

theorem test_sintr_signals : -- S1
    ends (start [0x40, 0x00] [] [])
      .running [(.tp, 0x102, .mem)]
      [.sintr .ch0] = true := by decide

theorem test_xfer_arms : -- S2
    after (start [0x60, 0x00] [] []) (fun t => t.me.xp) = true := by decide

theorem test_wid_sets_both_widths : -- S4
    after (start [0xA0, 0x00] [] []) (fun t => t.me.wsrc == .byte && t.me.wdst == .word) = true
      := by decide

theorem test_wid_is_not_swapped : -- S5
    after (start [0xC0, 0x00] [] []) (fun t => t.me.wsrc == .word && t.me.wdst == .byte) = true
      := by decide

theorem test_lpdi_flattens : -- T32
    ends (start [0x31, 0x08, 0x10, 0x00, 0x00, 0x20] [(.gb, 0x0, .io)] [])
      .running [(.tp, 0x106, .mem), (.gb, 0x20010, .mem)]
      [] = true := by decide

theorem test_lpdi_tp_is_a_far_jump : -- E12
    ends (start [0x91, 0x08, 0x00, 0x02, 0x00, 0x00] [] [])
      .running [(.tp, 0x200, .mem)]
      [] = true := by decide

theorem test_addi_wraps_at_20_bits : -- A1
    ends (start [0x11, 0x20, 0x34, 0x12] [(.ga, 0xff000, .mem)] [])
      .running [(.tp, 0x104, .mem), (.ga, 0x234, .mem)]
      [] = true := by decide

theorem test_addi_wraps_at_16_bits : -- A2
    ends (start [0x68, 0x20, 0xFF] [] [])
      .running [(.tp, 0x103, .mem), (.bc, 0xffff, .mem)]
      [] = true := by decide

theorem test_jmp_to_itself : -- J2
    ends (start [0x88, 0x20, 0xFD] [] [])
      .running [(.tp, 0x100, .mem)]
      [] = true := by decide

theorem test_ljmp_forward : -- J3
    ends (start [0x91, 0x20, 0x00, 0x02] [] [])
      .running [(.tp, 0x304, .mem)]
      [] = true := by decide

theorem test_ori_sign_extends : -- A6
    ends (start [0x08, 0x24, 0x80] [(.ga, 0x1, .mem)] [])
      .running [(.tp, 0x103, .mem), (.ga, 0xfff81, .mem)]
      [] = true := by decide

theorem test_andi_sign_extends : -- A8
    ends (start [0x31, 0x28, 0x00, 0xFF] [(.gb, 0xabcde, .mem)] [])
      .running [(.tp, 0x104, .mem), (.gb, 0xabc00, .mem)]
      [] = true := by decide

theorem test_not_register_keeps_tag : -- A10
    ends (start [0x00, 0x2C] [(.ga, 0x12345, .io)] [])
      .running [(.tp, 0x102, .mem), (.ga, 0xedcba, .io)]
      [] = true := by decide

theorem test_not_register_16_bits : -- A11
    ends (start [0xE0, 0x2C] [(.mc, 0xff, .mem)] [])
      .running [(.tp, 0x102, .mem), (.mc, 0xff00, .mem)]
      [] = true := by decide

theorem test_movi_sign_extends : -- T13
    ends (start [0x31, 0x30, 0x00, 0x80] [] [])
      .running [(.tp, 0x104, .mem), (.gb, 0xf8000, .mem)]
      [] = true := by decide

theorem test_movi_sets_tag : -- T12
    ends (start [0x11, 0x30, 0x34, 0x12] [(.ga, 0xfffff, .io)] [])
      .running [(.tp, 0x104, .mem), (.ga, 0x1234, .mem)]
      [] = true := by decide

theorem test_inc_bc_wraps : -- A13
    ends (start [0x60, 0x38] [(.bc, 0xffff, .mem)] [])
      .running [(.tp, 0x102, .mem), (.bc, 0x0, .mem)]
      [] = true := by decide

theorem test_inc_tp : -- A14
    ends (start [0x80, 0x38] [] [])
      .running [(.tp, 0x103, .mem)]
      [] = true := by decide

theorem test_dec_wraps : -- A15
    ends (start [0x20, 0x3C] [] [])
      .running [(.tp, 0x102, .mem), (.gb, 0xfffff, .mem)]
      [] = true := by decide

theorem test_jnz_taken : -- J6
    ends (start [0x68, 0x40, 0x06] [(.bc, 0x1, .mem)] [])
      .running [(.tp, 0x109, .mem)]
      [] = true := by decide

theorem test_jnz_not_taken : -- J7
    ends (start [0x68, 0x40, 0x06] [] [])
      .running [(.tp, 0x103, .mem)]
      [] = true := by decide

theorem test_jz_taken : -- J8
    ends (start [0x08, 0x44, 0xFD] [] [])
      .running [(.tp, 0x100, .mem)]
      [] = true := by decide

theorem test_jz_sees_bit_16 : -- J9
    ends (start [0x08, 0x44, 0xFD] [(.ga, 0x10000, .mem)] [])
      .running [(.tp, 0x103, .mem)]
      [] = true := by decide

theorem test_hlt_stops : -- S6
    ends (start [0x20, 0x48] [] [])
      .halted [(.tp, 0x102, .mem)]
      [] = true := by decide

theorem test_movi_byte_immediate_word_store : -- T20
    ends (start [0x09, 0x4E, 0xFF] [(.gc, 0x800, .mem)] [])
      .running [(.tp, 0x103, .mem)]
      [.write16 .mem 0x800 0xFFFF] = true := by decide

theorem test_movi_word_immediate_byte_store : -- T22
    ends (start [0x10, 0x4E, 0x34, 0x12] [(.gc, 0x800, .mem)] [])
      .running [(.tp, 0x104, .mem)]
      [.write8 .mem 0x800 0x34] = true := by decide

theorem test_mov_load_io_byte : -- T4
    ends (start [0x00, 0x81] [(.gb, 0x30050, .io)] [(.io, 0x50, [0x80])])
      .running [(.tp, 0x102, .mem), (.ga, 0xfff80, .io)]
      [.read8 .io 0x50 0x80] = true := by decide

theorem test_mov_load_index_register : -- T7
    ends (start [0xA7, 0x80] [(.ga, 0x2000, .mem), (.ix, 0x4, .mem)] [(.mem, 0x2004, [0x10,
      0x00])])
      .running [(.tp, 0x102, .mem), (.ix, 0x10, .mem)]
      [.read16 .mem 0x2004 0x10] = true := by decide

theorem test_mov_store_low_half : -- T9
    ends (start [0x01, 0x85] [(.ga, 0xabcde, .mem), (.gb, 0x3000, .mem)] [])
      .running [(.tp, 0x102, .mem)]
      [.write16 .mem 0x3000 0xBCDE] = true := by decide

theorem test_mov_store_after_increment : -- T11
    ends (start [0xA7, 0x84] [(.ga, 0x3000, .mem), (.ix, 0x6, .mem)] [])
      .running [(.tp, 0x102, .mem), (.ix, 0x8, .mem)]
      [.write16 .mem 0x3006 0x8] = true := by decide

theorem test_lpd_from_parameter_block : -- T28
    ends (start [0x03, 0x8B, 0x08] [(.ga, 0x7, .io), (.pp, 0x400, .mem)] [(.mem, 0x408, [0x34,
      0x12, 0x00, 0xF0])])
      .running [(.tp, 0x103, .mem), (.ga, 0xf1234, .mem)]
      [.read16 .mem 0x408 0x1234, .read16 .mem 0x40A 0xF000] = true := by decide

theorem test_lpd_wraps : -- T29
    ends (start [0x21, 0x88] [(.ga, 0x400, .mem)] [(.mem, 0x400, [0xFF, 0xFF, 0xFF, 0xFF])])
      .running [(.tp, 0x102, .mem), (.gb, 0xffef, .mem)]
      [.read16 .mem 0x400 0xFFFF, .read16 .mem 0x402 0xFFFF] = true := by decide

theorem test_movp_load_tag : -- T37
    ends (start [0x21, 0x8E] [(.gc, 0x600, .mem)] [(.mem, 0x600, [0x34, 0x12, 0xA8])])
      .running [(.tp, 0x102, .mem), (.gb, 0xa1234, .io)]
      [.read16 .mem 0x600 0x1234, .read8 .mem 0x602 0xA8] = true := by decide

theorem test_movp_load_ignores_low_bits : -- T38
    ends (start [0x21, 0x8E] [(.gb, 0x5, .io), (.gc, 0x600, .mem)] [(.mem, 0x600, [0x34, 0x12,
      0xF7])])
      .running [(.tp, 0x102, .mem), (.gb, 0xf1234, .mem)]
      [.read16 .mem 0x600 0x1234, .read8 .mem 0x602 0xF7] = true := by decide

theorem test_mov_memory_two_increments : -- T25
    ends (start [0x06, 0x90, 0x06, 0xCD] [(.ga, 0x1000, .mem), (.gb, 0x2000, .mem)] [(.mem,
      0x1000, [0x77]), (.mem, 0x2001, [0xEE])])
      .running [(.tp, 0x104, .mem), (.ix, 0x2, .mem)]
      [.read8 .mem 0x1000 0x77, .write8 .mem 0x2001 0x77] = true := by decide

theorem test_mov_memory_byte_to_word : -- T27
    ends (start [0x00, 0x90, 0x01, 0xCD] [(.ga, 0x1000, .mem), (.gb, 0x2000, .mem)] [(.mem,
      0x1000, [0x80])])
      .running [(.tp, 0x104, .mem)]
      [.read8 .mem 0x1000 0x80, .write16 .mem 0x2000 0x80] = true := by decide

theorem test_tsl_stops : -- J31
    ends (start [0x18, 0x94, 0xFF, 0x05] [(.ga, 0x2000, .mem)] [(.mem, 0x2000, [0x00])])
      (.faulted .unknownOpcode) [(.tp, 0x104, .mem)]
      [] = true := by decide

theorem test_movp_store_tag : -- T34
    ends (start [0x01, 0x9A] [(.ga, 0xa1234, .io), (.gc, 0x600, .mem)] [])
      .running [(.tp, 0x102, .mem)]
      [.write16 .mem 0x600 0x1234, .write8 .mem 0x602 0xA8] = true := by decide

theorem test_movp_store_odd_address : -- T35
    ends (start [0x21, 0x9A] [(.gb, 0xfffff, .mem), (.gc, 0x601, .mem)] [])
      .running [(.tp, 0x102, .mem)]
      [.write8 .mem 0x601 0xFF, .write8 .mem 0x602 0xFF, .write8 .mem 0x603 0xF0] = true := by
        decide

theorem test_call_stores_next_address : -- J28
    ends (start [0x93, 0x9F, 0x02, 0x00, 0x03] [(.pp, 0x700, .mem)] [])
      .running [(.tp, 0x405, .mem)]
      [.write16 .mem 0x702 0x105, .write8 .mem 0x704 0x0] = true := by decide

theorem test_call_stores_tp_tag : -- J29
    ends (start [0x89, 0x9E, 0x10] [(.gc, 0x600, .mem), (.tp, 0x100, .io)] [])
      .running [(.tp, 0x113, .io)]
      [.write16 .mem 0x600 0x103, .write8 .mem 0x602 0x8] = true := by decide

theorem test_add_sign_extends : -- A17
    ends (start [0x01, 0xA1] [(.ga, 0x10000, .mem), (.gb, 0x2000, .mem)] [(.mem, 0x2000, [0x00,
      0x80])])
      .running [(.tp, 0x102, .mem), (.ga, 0x8000, .mem)]
      [.read16 .mem 0x2000 0x8000] = true := by decide

theorem test_add_reads_register_after_increment : -- A19
    ends (start [0xA7, 0xA0] [(.ga, 0x2000, .mem), (.ix, 0x4, .mem)] [(.mem, 0x2004, [0x10,
      0x00])])
      .running [(.tp, 0x102, .mem), (.ix, 0x16, .mem)]
      [.read16 .mem 0x2004 0x10] = true := by decide

theorem test_or_io_byte : -- A21
    ends (start [0x00, 0xA5] [(.ga, 0x1, .mem), (.gb, 0x40, .io)] [(.io, 0x40, [0x80])])
      .running [(.tp, 0x102, .mem), (.ga, 0xfff81, .mem)]
      [.read8 .io 0x40 0x80] = true := by decide

theorem test_and_sign_extends : -- A23
    ends (start [0x00, 0xA9] [(.ga, 0xabcde, .mem), (.gb, 0x2000, .mem)] [(.mem, 0x2000, [0xF0])])
      .running [(.tp, 0x102, .mem), (.ga, 0xabcd0, .mem)]
      [.read8 .mem 0x2000 0xF0] = true := by decide

theorem test_not_loads_no_tag : -- A26
    ends (start [0x01, 0xAD] [(.ga, 0x1, .io), (.gb, 0x2000, .mem)] [(.mem, 0x2000, [0xFF,
      0xFF])])
      .running [(.tp, 0x102, .mem), (.ga, 0x0, .io)]
      [.read16 .mem 0x2000 0xFFFF] = true := by decide

theorem test_jmce_masked_equal : -- J17
    ends (start [0x08, 0xB0, 0x08] [(.ga, 0x2000, .mem), (.mc, 0xf05a, .mem)] [(.mem, 0x2000,
      [0x53])])
      .running [(.tp, 0x10b, .mem)]
      [.read8 .mem 0x2000 0x53] = true := by decide

theorem test_jmce_masked_differs : -- J18
    ends (start [0x08, 0xB0, 0x08] [(.ga, 0x2000, .mem), (.mc, 0xf05a, .mem)] [(.mem, 0x2000,
      [0x63])])
      .running [(.tp, 0x103, .mem)]
      [.read8 .mem 0x2000 0x63] = true := by decide

theorem test_jmcne_taken : -- J20
    ends (start [0x08, 0xB4, 0x08] [(.ga, 0x2000, .mem), (.mc, 0xff0d, .mem)] [(.mem, 0x2000,
      [0x0A])])
      .running [(.tp, 0x10b, .mem)]
      [.read8 .mem 0x2000 0xA] = true := by decide

theorem test_jmcne_not_taken : -- J21
    ends (start [0x08, 0xB4, 0x08] [(.ga, 0x2000, .mem), (.mc, 0xff0d, .mem)] [(.mem, 0x2000,
      [0x0D])])
      .running [(.tp, 0x103, .mem)]
      [.read8 .mem 0x2000 0xD] = true := by decide

theorem test_jnbt_taken : -- J24
    ends (start [0x08, 0xB8, 0xFD] [(.ga, 0x2000, .mem)] [(.mem, 0x2000, [0xFE])])
      .running [(.tp, 0x100, .mem)]
      [.read8 .mem 0x2000 0xFE] = true := by decide

theorem test_jnbt_not_taken : -- J25
    ends (start [0x08, 0xB8, 0xFD] [(.ga, 0x2000, .mem)] [(.mem, 0x2000, [0x01])])
      .running [(.tp, 0x103, .mem)]
      [.read8 .mem 0x2000 0x1] = true := by decide

theorem test_jbt_taken : -- J22
    ends (start [0x68, 0xBD, 0x04] [(.gb, 0x40, .io)] [(.io, 0x40, [0x08])])
      .running [(.tp, 0x107, .mem)]
      [.read8 .io 0x40 0x8] = true := by decide

theorem test_jbt_bit_7_long : -- J26
    ends (start [0xF4, 0xBC, 0x00, 0x01] [(.ga, 0x2000, .mem), (.ix, 0x3, .mem)] [(.mem, 0x2003,
      [0x80])])
      .running [(.tp, 0x204, .mem)]
      [.read8 .mem 0x2003 0x80] = true := by decide

theorem test_addi_memory_byte : -- B2
    ends (start [0x0A, 0xC1, 0x03, 0xFE] [(.gb, 0x2000, .mem)] [(.mem, 0x2003, [0x01])])
      .running [(.tp, 0x104, .mem)]
      [.read8 .mem 0x2003 0x1, .write8 .mem 0x2003 0xFF] = true := by decide

theorem test_addi_memory_sign_extends : -- B3
    ends (start [0x09, 0xC0, 0xFF] [(.ga, 0x2000, .mem)] [(.mem, 0x2000, [0x00, 0x01])])
      .running [(.tp, 0x103, .mem)]
      [.read16 .mem 0x2000 0x100, .write16 .mem 0x2000 0xFF] = true := by decide

theorem test_ori_io_byte : -- B5
    ends (start [0x08, 0xC4, 0x40] [(.ga, 0x10, .io)] [(.io, 0x10, [0x01])])
      .running [(.tp, 0x103, .mem)]
      [.read8 .io 0x10 0x1, .write8 .io 0x10 0x41] = true := by decide

theorem test_andi_word : -- B6
    ends (start [0x13, 0xCB, 0x06, 0xF0, 0x0F] [(.pp, 0x2000, .mem)] [(.mem, 0x2006, [0xFF,
      0xFF])])
      .running [(.tp, 0x105, .mem)]
      [.read16 .mem 0x2006 0xFFFF, .write16 .mem 0x2006 0xFF0] = true := by decide

theorem test_add_memory_low_byte : -- B9
    ends (start [0x20, 0xD0] [(.ga, 0x2000, .mem), (.gb, 0x12345, .mem)] [(.mem, 0x2000, [0x10])])
      .running [(.tp, 0x102, .mem)]
      [.read8 .mem 0x2000 0x10, .write8 .mem 0x2000 0x55] = true := by decide

theorem test_add_memory_after_increment : -- B10
    ends (start [0xA7, 0xD0] [(.ga, 0x2000, .mem), (.ix, 0x4, .mem)] [(.mem, 0x2004, [0x10,
      0x00])])
      .running [(.tp, 0x102, .mem), (.ix, 0x6, .mem)]
      [.read16 .mem 0x2004 0x10, .write16 .mem 0x2004 0x16] = true := by decide

theorem test_or_memory : -- B11
    ends (start [0x01, 0xD5] [(.ga, 0xf00f0, .mem), (.gb, 0x2000, .mem)] [(.mem, 0x2000, [0x0F,
      0x0F])])
      .running [(.tp, 0x102, .mem)]
      [.read16 .mem 0x2000 0xF0F, .write16 .mem 0x2000 0xFFF] = true := by decide

theorem test_and_memory : -- B12
    ends (start [0xE1, 0xD9] [(.gb, 0x2000, .mem), (.mc, 0xff, .mem)] [(.mem, 0x2000, [0x34,
      0x12])])
      .running [(.tp, 0x102, .mem)]
      [.read16 .mem 0x2000 0x1234, .write16 .mem 0x2000 0x34] = true := by decide

theorem test_not_memory_indexed : -- B14
    ends (start [0x04, 0xDC] [(.ga, 0x2000, .mem), (.ix, 0x5, .mem)] [(.mem, 0x2005, [0x0F])])
      .running [(.tp, 0x102, .mem)]
      [.read8 .mem 0x2005 0xF, .write8 .mem 0x2005 0xF0] = true := by decide

theorem test_jnz_memory_taken : -- J15
    ends (start [0x0A, 0xE1, 0x01, 0xFB] [(.gb, 0x2000, .mem)] [(.mem, 0x2001, [0x02])])
      .running [(.tp, 0xff, .mem)]
      [.read8 .mem 0x2001 0x2] = true := by decide

theorem test_jnz_memory_increments_when_not_taken : -- J16
    ends (start [0x16, 0xE1, 0x10, 0x00] [(.gb, 0x2000, .mem)] [(.mem, 0x2000, [0x00])])
      .running [(.tp, 0x104, .mem), (.ix, 0x1, .mem)]
      [.read8 .mem 0x2000 0x0] = true := by decide

theorem test_jz_memory_byte : -- J13
    ends (start [0x08, 0xE4, 0x04] [(.ga, 0x2000, .mem)] [(.mem, 0x2000, [0x00, 0x01])])
      .running [(.tp, 0x107, .mem)]
      [.read8 .mem 0x2000 0x0] = true := by decide

theorem test_jz_memory_word_not_taken : -- J14
    ends (start [0x09, 0xE4, 0x04] [(.ga, 0x2000, .mem)] [(.mem, 0x2000, [0x00, 0x01])])
      .running [(.tp, 0x103, .mem)]
      [.read16 .mem 0x2000 0x100] = true := by decide

theorem test_inc_memory_odd_address : -- B16
    ends (start [0x01, 0xE8] [(.ga, 0x2001, .mem)] [(.mem, 0x2001, [0xFF, 0x00])])
      .running [(.tp, 0x102, .mem)]
      [.read8 .mem 0x2001 0xFF, .read8 .mem 0x2002 0x0, .write8 .mem 0x2001 0x0, .write8 .mem
        0x2002 0x1] = true := by decide

theorem test_inc_memory_index_wraps : -- B17
    ends (start [0x06, 0xE8] [(.ga, 0x2000, .mem), (.ix, 0xffff, .mem)] [(.mem, 0x11fff, [0x7F])])
      .running [(.tp, 0x102, .mem), (.ix, 0x0, .mem)]
      [.read8 .mem 0x11FFF 0x7F, .write8 .mem 0x11FFF 0x80] = true := by decide

theorem test_dec_memory_wraps : -- B18
    ends (start [0x01, 0xED] [(.gb, 0x2000, .mem)] [(.mem, 0x2000, [0x00, 0x00])])
      .running [(.tp, 0x102, .mem)]
      [.read16 .mem 0x2000 0x0, .write16 .mem 0x2000 0xFFFF] = true := by decide

theorem test_setb_keeps_the_others : -- K1
    ends (start [0xE0, 0xF4] [(.ga, 0x2000, .mem)] [(.mem, 0x2000, [0x01])])
      .running [(.tp, 0x102, .mem)]
      [.read8 .mem 0x2000 0x1, .write8 .mem 0x2000 0x81] = true := by decide

theorem test_setb_increments_index_by_one : -- K4
    ends (start [0x26, 0xF4] [(.ga, 0x2000, .mem), (.ix, 0x2, .mem)] [(.mem, 0x2002, [0x00])])
      .running [(.tp, 0x102, .mem), (.ix, 0x3, .mem)]
      [.read8 .mem 0x2002 0x0, .write8 .mem 0x2002 0x2] = true := by decide

theorem test_clr_one_bit : -- K6
    ends (start [0x62, 0xFB, 0x01] [(.pp, 0x2000, .mem)] [(.mem, 0x2001, [0x08])])
      .running [(.tp, 0x103, .mem)]
      [.read8 .mem 0x2001 0x8, .write8 .mem 0x2001 0x0] = true := by decide

theorem test_word_at_the_end_of_io : -- M8
    ends (start [0x61, 0x80] [(.ga, 0x3ffff, .io)] [(.io, 0xffff, [0xCD]), (.io, 0x0, [0xAB])])
      .running [(.tp, 0x102, .mem), (.bc, 0xabcd, .io)]
      [.read8 .io 0xFFFF 0xCD, .read8 .io 0x0 0xAB] = true := by decide

theorem test_no_16_bit_primitive : -- M3
    ends (without16 (start [0x61, 0x80] [(.ga, 0x2000, .mem)] [(.mem, 0x2000, [0x34, 0x12])]))
      .running [(.tp, 0x102, .mem), (.bc, 0x1234, .mem)]
      [.read8 .mem 0x2000 0x34, .read8 .mem 0x2001 0x12] = true := by decide

theorem test_store_half_missing : -- E20
    ends (start [0x01, 0x90, 0x00, 0x00] [(.ga, 0x1000, .mem)] [(.mem, 0x1000, [0x01, 0x02])])
      (.faulted (.invalidEncoding .storeHalfMissing)) [(.tp, 0x104, .mem)]
      [.read16 .mem 0x1000 0x201] = true := by decide

theorem test_store_half_at_top : -- E19
    ends (start [0x01, 0xCD] [(.gb, 0x2000, .mem)] [])
      (.faulted (.invalidEncoding .storeHalfAtTop)) [(.tp, 0x102, .mem)]
      [] = true := by decide

theorem test_unknown_opcode_before_selector : -- E22
    ends (start [0x00, 0x05] [] [])
      (.faulted (.invalidEncoding .unknownOpcode)) [(.tp, 0x102, .mem)]
      [] = true := by decide

theorem test_selector_without_mode : -- E7
    ends (start [0x00, 0x2D] [] [])
      (.faulted (.invalidEncoding .selectorWithoutMode)) [(.tp, 0x102, .mem)]
      [] = true := by decide

theorem test_reserved_pointer_register : -- E23
    ends (start [0x69, 0x08, 0x09] [] [])
      (.faulted (.invalidEncoding .illegalRegister)) [(.tp, 0x103, .mem)]
      [] = true := by decide

theorem test_missing_immediate : -- E13
    ends (start [0x01, 0x20] [] [])
      (.faulted (.invalidEncoding .illegalWidth)) [(.tp, 0x102, .mem)]
      [] = true := by decide

theorem test_reserved_width : -- E29
    ends (start [0x09, 0x08, 0x09] [] [])
      (.faulted (.invalidEncoding .reservedBits)) [(.tp, 0x103, .mem)]
      [] = true := by decide

theorem test_dma_memory_to_io_port : -- X1
    ends ((start [0x00, 0x00] [(.ga, 0x2000, .mem), (.gb, 0x40, .io), (.bc, 0x4, .mem), (.cc,
      0x4008, .mem)] [(.mem, 0x2000, [0x01, 0x02, 0x03, 0x04, 0x05])]).setXp true)
      .running [(.tp, 0x102, .mem), (.ga, 0x2004, .mem), (.bc, 0x0, .mem)]
      [.read8 .mem 0x2000 0x1, .write8 .io 0x40 0x1, .read8 .mem 0x2001 0x2, .write8 .io 0x40
        0x2, .read8 .mem 0x2002 0x3, .write8 .io 0x40 0x3, .read8 .mem 0x2003 0x4, .write8 .io
        0x40 0x4] = true := by decide

theorem test_dma_words_then_byte : -- X5
    ends (((start [0x00, 0x00] [(.ga, 0x2000, .mem), (.gb, 0x3000, .mem), (.bc, 0x3, .mem),
      (.cc, 0xc018, .mem)] [(.mem, 0x2000, [0x01, 0x02, 0x03, 0x04])]).setXp true).setWid .word
      .word)
      .running [(.tp, 0x10a, .mem), (.ga, 0x2003, .mem), (.gb, 0x3003, .mem), (.bc, 0x0, .mem)]
      [.read16 .mem 0x2000 0x201, .write16 .mem 0x3000 0x201, .read8 .mem 0x2002 0x3, .write8
        .mem 0x3002 0x3] = true := by decide

theorem test_dma_single_transfer : -- X7
    ends ((start [0x00, 0x00] [(.ga, 0x2000, .mem), (.gb, 0x3000, .mem), (.cc, 0xc098, .mem)]
      [(.mem, 0x2000, [0x77])]).setXp true)
      .running [(.tp, 0x102, .mem), (.ga, 0x2001, .mem), (.gb, 0x3001, .mem), (.bc, 0xffff, .mem)]
      [.read8 .mem 0x2000 0x77, .write8 .mem 0x3000 0x77] = true := by decide

theorem test_dma_until_mismatch : -- X10
    ends ((start [0x00, 0x00] [(.ga, 0x2000, .mem), (.gb, 0x3000, .mem), (.bc, 0x10, .mem),
      (.cc, 0xc00f, .mem), (.mc, 0xff20, .mem)] [(.mem, 0x2000, [0x20, 0x20, 0x41, 0x20])]).setXp
      true)
      .running [(.tp, 0x10a, .mem), (.ga, 0x2003, .mem), (.gb, 0x3003, .mem), (.bc, 0xd, .mem)]
      [.read8 .mem 0x2000 0x20, .write8 .mem 0x3000 0x20, .read8 .mem 0x2001 0x20, .write8 .mem
        0x3001 0x20, .read8 .mem 0x2002 0x41, .write8 .mem 0x3002 0x41] = true := by decide

theorem test_dma_external_first : -- X13
    ends (extLow ((start [0x00, 0x00] [(.ga, 0x2000, .mem), (.gb, 0x3000, .mem), (.bc, 0x4,
      .mem), (.cc, 0xc068, .mem)] [(.mem, 0x2000, [0x01, 0x02, 0x03, 0x04])]).setXp true))
      .running [(.tp, 0x10a, .mem)]
      [] = true := by decide

theorem test_dma_byte_count_before_masked : -- X15
    ends ((start [0x00, 0x00] [(.ga, 0x2000, .mem), (.gb, 0x3000, .mem), (.bc, 0x1, .mem), (.cc,
      0xc071, .mem), (.mc, 0xff01, .mem)] [(.mem, 0x2000, [0x01])]).setXp true)
      .running [(.tp, 0x106, .mem), (.ga, 0x2001, .mem), (.gb, 0x3001, .mem), (.bc, 0x0, .mem)]
      [.read8 .mem 0x2000 0x1, .write8 .mem 0x3000 0x1] = true := by decide

theorem test_dma_translate : -- X16
    ends ((start [0x00, 0x00] [(.ga, 0x2000, .mem), (.gb, 0x3000, .mem), (.bc, 0x4, .mem), (.cc,
      0xe008, .mem)] []).setXp true)
      (.faulted .unsupportedFeature) [(.tp, 0x102, .mem)]
      [] = true := by decide

theorem test_dma_gb_to_ga : -- X17
    ends ((start [0x00, 0x00] [(.ga, 0x3000, .mem), (.gb, 0x2000, .mem), (.bc, 0x2, .mem), (.cc,
      0xc408, .mem)] [(.mem, 0x2000, [0x09, 0x08])]).setXp true)
      .running [(.tp, 0x102, .mem), (.ga, 0x3002, .mem), (.gb, 0x2002, .mem), (.bc, 0x0, .mem)]
      [.read8 .mem 0x2000 0x9, .write8 .mem 0x3000 0x9, .read8 .mem 0x2001 0x8, .write8 .mem
        0x3001 0x8] = true := by decide

theorem test_dma_io_pointer_keeps_20_bits : -- X20
    ends ((start [0x00, 0x00] [(.ga, 0x2000, .mem), (.gb, 0x1ffff, .io), (.bc, 0x2, .mem), (.cc,
      0xc008, .mem)] [(.mem, 0x2000, [0x11, 0x22])]).setXp true)
      .running [(.tp, 0x102, .mem), (.ga, 0x2002, .mem), (.gb, 0x20001, .io), (.bc, 0x0, .mem)]
      [.read8 .mem 0x2000 0x11, .write8 .io 0xFFFF 0x11, .read8 .mem 0x2001 0x22, .write8 .io
        0x0 0x22] = true := by decide

theorem test_dma_reads_the_width_after_wid : -- X27
    ends ((start [0xE0, 0x00] [(.ga, 0x2000, .mem), (.gb, 0x3000, .mem), (.bc, 0x2, .mem), (.cc,
      0xc008, .mem)] [(.mem, 0x2000, [0x11, 0x22])]).setXp true)
      .running [(.tp, 0x102, .mem), (.ga, 0x2002, .mem), (.gb, 0x3002, .mem), (.bc, 0x0, .mem)]
      [.read16 .mem 0x2000 0x2211, .write16 .mem 0x3000 0x2211] = true := by decide

theorem test_fault_leaves_transfer_pending : -- X29
    ends ((start [0x00, 0x04] [(.ga, 0x2000, .mem), (.gb, 0x3000, .mem), (.bc, 0x2, .mem), (.cc,
      0xc008, .mem)] [(.mem, 0x2000, [0x11, 0x22])]).setXp true)
      (.faulted (.invalidEncoding .unknownOpcode)) [(.tp, 0x102, .mem)]
      [] = true := by decide

/-! ## Placing an instruction -/

theorem test_withFetchWord_is_fetched_next :
    after (State.reset.withFetchWord 32 0x12342011) (fun t => t.ch0.ga == 0x1234 &&
      t.ch0.tp == 4 && t.ch1 == Channel.reset && t.env.schedule == []) = true := by decide

/-! ## Activation (R294) -/

/-- The contents of the worked example. -/
def chain : State :=
  [((0xFFFF6 : Addr), ([0x01, 0x00] : List Byte)), (0xFFFF8, [0x00, 0x00, 0x50, 0x00]),
    (0x00500, [0x01, 0x00, 0x10, 0x00, 0x50, 0x00]),
    (0x00510, [0x03, 0xFF, 0x00, 0x00, 0x60, 0x00, 0x00, 0x00]),
    (0x00518, [0x03, 0xFF, 0x00, 0x01, 0x60, 0x00, 0x00, 0x00]),
    (0x00600, [0x00, 0x00, 0x70, 0x00]), (0x00700, [0x03, 0x8B, 0x04, 0x23])].foldl
    (fun s x => placeBytes x.2 x.1 s) State.reset

/-- A state in which the host does the given things next. -/
def acting (as : List HostAction) (s : State) : State :=
  { s with env := { s.env with schedule := as } }

theorem test_activate_channel_0 :
    after (acting [.activate .ch0] chain) (fun t => t.ch0.pp == 0x00600 && t.ch0.tp == 0x00700 &&
      t.ch0.status == .running && t.ch1 == Channel.reset && t.env.events.length == 12) = true := by
  decide

theorem test_activate_channel_1 :
    after (acting [.activate .ch1] chain) (fun t => t.ch1.pp == 0x00700 && t.ch1.tp == 0x2BB43 &&
      t.ch1.status == .running && t.ch0 == Channel.reset && t.env.events.length == 12) = true := by
  decide

/-! ## The hypotheses of the statements can be met -/

/-- A next state was answered. -/
def isNext : Result → Bool
  | .next _ => true
  | .fault _ => false
  | .refused _ => false

/-- The state answered. -/
def nextOf : Result → State
  | .next t => t
  | .fault _ => State.reset
  | .refused _ => State.reset

theorem eq_next_nextOf {r : Result} (h : isNext r = true) : r = .next (nextOf r) := by
  cases r <;> simp_all [isNext, nextOf]

/-- `nop` at `tp`; the four bytes 1, 2, 3, 4 at `ga`; `gb` and `gc` point at free memory. -/
def bench (cc bc mc : Addr) : State :=
  start [0x00, 0x00] [(.ga, 0x2000, .mem), (.gb, 0x3000, .mem), (.gc, 0x600, .mem),
    (.cc, cc, .mem), (.bc, bc, .mem), (.mc, mc, .mem)] [(.mem, 0x2000, [1, 2, 3, 4])]

/-- The same, with a store half `mov [gb],_` at `tp` instead of `nop`. -/
def benchStore : State :=
  start [0x01, 0xCD] [(.ga, 0x2000, .mem), (.gb, 0x3000, .mem)] [(.mem, 0x2000, [1, 2, 3, 4])]

/-- A host with validation, execution switched on or off. -/
def switched (v x : Bool) (s : State) : State :=
  { s with env := { s.env with params := { s.env.params with validate := v, execute := x } } }

theorem witness_EncodedInstructionsDecode :
    Instr.wf (.lpdi .tp 0xFFFF#16 0x0000#16) = true ∧
      isHalf (.lpdi .tp 0xFFFF#16 0x0000#16) = false ∧
      Instr.wf (.movMMStore ⟨.pp, .offset 0xFF#8⟩ .byte) = true ∧
      isHalf (.movMMStore ⟨.pp, .offset 0xFF#8⟩ .byte) = true := by decide

theorem witness_DecodedBytesAreTheEncoding :
    decode false [0x00#8, 0x00#8] = .ok (.nop, []) ∧
      decode true [0x01#8, 0xCD#8, 0xFF#8] = .ok (.movMMStore ⟨.gb, .base⟩ .word, [0xFF#8]) := by
  decide

/-- The one premise of `PlainStores`, `StorePointer`, `MemoryArithmetic`, `MemoryLogic`,
`MemoryWithRegister`, `BitManipulation` and `CallStoresTheReturnPointer`. -/
theorem witness_Canonical_premise : Canonical (bench 0 0 0) ∧ Canonical State.reset := by decide

/-- The one premise of `FetchReadsOneUnit`. -/
theorem witness_PlainHost_premise : PlainHost (bench 0 0 0) := by decide

/-- The external class off, and on with the largest field value. -/
theorem witness_TerminationChecks :
    fieldTx (bench 0xC008 4 0).me.cc = 0 ∧ fieldTx (bench 0xC068 4 0).me.cc = 3 := by decide

theorem witness_StoredValuesAreReadBack :
    Canonical (bench 0 0 0) ∧ PlainHost (bench 0 0 0) := by decide

theorem witness_StoredPointerRoundTrip_store_first :
    let s := bench 0 0 0
    let m : MemOp := ⟨.gc, .base⟩
    ∃ t u, Canonical s ∧ PlainHost s ∧ exec (.movpMP m .ga) s = .next t ∧
      eaSpace m t = eaSpace m s ∧ eaAddr m t = eaAddr m s ∧ exec (.movpPM .gb m) t = .next u :=
  ⟨_, _, by decide, by decide, eq_next_nextOf (by decide), by decide, by decide,
    eq_next_nextOf (by decide)⟩

theorem witness_StoredPointerRoundTrip_load_first :
    let s := start [] [(.gc, 0x600, .mem)] [(.mem, 0x600, [0x34, 0x12, 0xA8])]
    let m : MemOp := ⟨.gc, .base⟩
    ∃ t u, Canonical s ∧ PlainHost s ∧ exec (.movpPM .gb m) s = .next t ∧
      exec (.movpMP ⟨.gc, .offset 4#8⟩ .gb) t = .next u ∧
      (s.byteAt (eaSpace m s) (eaAddr m s + 2#20)).toNat % 8 = 0 :=
  ⟨_, _, by decide, by decide, eq_next_nextOf (by decide), eq_next_nextOf (by decide), by decide⟩

theorem witness_MemoryToMemoryMove :
    Canonical benchStore ∧ PlainHost benchStore ∧
      bytesAt benchStore .mem (benchStore.reg .tp)
          (encode (.movMMStore ⟨.gb, .base⟩ .word)).length =
        encode (.movMMStore ⟨.gb, .base⟩ .word) := by decide

theorem witness_MissingStoreHalfStops :
    PlainHost (bench 0 0 0) ∧ (bench 0 0 0).env.params.validate = true ∧
      parseUnit (bytesAt (bench 0 0 0) .mem ((bench 0 0 0).reg .tp) 7) =
        some (⟨0x0000#16, 0x00#8, .none⟩, [0, 0, 0, 0, 0]) ∧
      decodeUnit true ⟨0x0000#16, 0x00#8, .none⟩ = .error .storeHalfMissing := by decide

theorem witness_StoreHalf :
    ({ benchStore with obligation := some 0xFFFF#16 } : State).obligation = some 0xFFFF#16 ∧
      benchStore.obligation = none ∧ Canonical benchStore := by decide

theorem witness_StepRunsTheDecodedInstruction :
    let s := (bench 0xC008 3 0).setXp true
    StepsNext .ch0 [] s ∧ (s.chan .ch0).status = .running ∧ PlainHost s ∧
      s.env.params.execute = true ∧
      decode s.obligation.isSome (bytesAt s .mem (s.chan .ch0).tp 6) =
        .ok (.nop, [0, 0, 0, 0]) := by decide

theorem witness_StepRunsTheDecodedInstruction_store_half :
    let s := acting [.step .ch0, .reset] { benchStore with obligation := some 7#16 }
    StepsNext .ch0 [.reset] s ∧ (s.chan .ch0).status = .running ∧ PlainHost s ∧
      s.env.params.execute = true ∧
      decode s.obligation.isSome (bytesAt s .mem (s.chan .ch0).tp 6) =
        .ok (.movMMStore ⟨.gb, .base⟩ .word, [0, 0, 0, 0]) := by decide

/-- The word is rejected with validation on. -/
theorem witness_RejectedWords_validated :
    let s := start [0x00, 0x04] [] []
    StepsNext .ch0 [] s ∧ (s.chan .ch0).status = .running ∧ s.env.params.validate = true ∧
      decodeUnit s.obligation.isSome (fetchUnit (entered .ch0 [] s)).1 = .error .unknownOpcode := by
  decide

/-- With validation off, a word without an execution rule. -/
theorem witness_RejectedWords_no_handler :
    let s := switched false true (start [0x01, 0xCD] [] [])
    let f := fetchUnit (entered .ch0 [] s)
    StepsNext .ch0 [] s ∧ (s.chan .ch0).status = .running ∧ s.env.params.validate = false ∧
      s.env.params.execute = true ∧
      decodeUnit s.obligation.isSome f.1 = .error .storeHalfAtTop ∧
      (Fields.ofWord f.1.word).opc = 0x33#6 ∧ s.obligation = none := by decide

/-- With validation off, a rejected word whose opcode has an execution rule. -/
theorem witness_RejectedWords_refused :
    let s := switched false true (start [0x20, 0x00] [] [])
    let f := fetchUnit (entered .ch0 [] s)
    StepsNext .ch0 [] s ∧ (s.chan .ch0).status = .running ∧ s.env.params.validate = false ∧
      s.env.params.execute = true ∧
      decodeUnit s.obligation.isSome f.1 = .error .reservedBits ∧
      descriptor (Fields.ofWord f.1.word).opc ≠ none ∧ (Fields.ofWord f.1.word).opc ≠ 0x25#6 ∧
      (Fields.ofWord f.1.word).opc ≠ 0x33#6 := by decide

/-- With both off, a word that validation would reject. -/
theorem witness_RejectedWords_only_fetched :
    let s := switched false false (start [0x20, 0x00] [] [])
    StepsNext .ch0 [] s ∧ (s.chan .ch0).status = .running ∧ s.env.params.validate = false ∧
      s.env.params.execute = false := by decide

/-- R125, with both off: the word is only fetched. -/
theorem test_both_off_only_fetches :
    after (switched false false (start [0x20, 0x00] [] []))
      (fun t => t.me.status == .running && t.me.tp == 0x102) = true := by decide

/-- With execution off, a legal word. -/
theorem witness_RejectedWords_not_executed :
    let s := switched true false (bench 0 0 0)
    StepsNext .ch0 [] s ∧ (s.chan .ch0).status = .running ∧ s.env.params.execute = false ∧
      decodeUnit s.obligation.isSome (fetchUnit (entered .ch0 [] s)).1 = .ok .nop := by decide

theorem witness_StoppedChannelTakesNoStep :
    StepsNext .ch0 [] State.reset ∧ (State.reset.chan .ch0).status ≠ .running := by decide

theorem witness_TranslateModeIsUnsupported : (bench 0xE008 4 0).me.cc.getLsbD 13 = true := by
  decide

/-- The external class with skip 8, and the byte count with skip 0. -/
theorem witness_RunCanEndBeforeTheFirstUnit :
    let s := extLow (bench 0xC068 4 0)
    let u := bench 0xC008 0 0
    s.me.cc.getLsbD 13 = false ∧ s.me.cc.getLsbD 7 = false ∧ (dmaCheck none s).1 = some 8#20 ∧
      u.me.cc.getLsbD 13 = false ∧ u.me.cc.getLsbD 7 = false ∧ (dmaCheck none u).1 = some 0#20 := by
  decide

theorem witness_SingleTransfer :
    (bench 0xC098 0 0).me.cc.getLsbD 13 = false ∧ (bench 0xC098 0 0).me.cc.getLsbD 7 = true := by
  decide

/-- An 8-bit destination without increment, in mode 16/8, and a destination with increment. -/
theorem witness_UnitCopiesItsBytes :
    let s := (bench 0x4008 4 0).setWid .word .byte
    let u := bench 0xC008 4 0
    Canonical s ∧ PlainHost s ∧ (s.me.wdst = .byte ∧ s.me.cc.getLsbD 15 = false) ∧
      unitBytes s = 2 ∧ Canonical u ∧ PlainHost u ∧
      ¬ (u.me.wdst = .byte ∧ u.me.cc.getLsbD 15 = false) := by decide

/-- The premises of `ByteCountRun`, and that no other class is enabled. -/
abbrev ByteCountPremises (s : State) : Prop :=
  s.dma = .idle ∧ s.me.cc.getLsbD 13 = false ∧ s.me.cc.getLsbD 7 = false ∧
    s.me.cc.getLsbD 14 = true ∧ s.me.cc.getLsbD 15 = true ∧ fieldTbc s.me.cc ≠ 0 ∧
    s.me.bc ≠ 0#16 ∧ fieldTx s.me.cc = 0 ∧ fieldTmc s.me.cc = 0

theorem witness_ByteCountRun_smallest_count : ByteCountPremises (bench 0xC008 1 0) := by decide

theorem witness_ByteCountRun_largest_count : ByteCountPremises (bench 0xC018 0xFFFF 0) := by
  decide

theorem witness_BlockCopy :
    let s := bench 0xC018 3 0
    Canonical s ∧ PlainHost s ∧ s.dma = .idle ∧ s.me.cc.getLsbD 13 = false ∧
      s.me.cc.getLsbD 7 = false ∧ s.me.cc.getLsbD 14 = true ∧ s.me.cc.getLsbD 15 = true ∧
      fieldTx s.me.cc = 0 ∧ fieldTmc s.me.cc = 0 ∧ fieldTbc s.me.cc ≠ 0 ∧
      ∀ j, j < s.me.bc.toNat → ∀ k, k < s.me.bc.toNat → ¬ (s.tag .ga = s.tag .gb ∧
        mask (s.tag .ga) (s.reg .ga + BitVec.ofNat 20 j) =
          mask (s.tag .ga) (s.reg .gb + BitVec.ofNat 20 k)) :=
  ⟨by decide, by decide, by decide, by decide, by decide, by decide, by decide, by decide,
    by decide, by decide, by decide⟩

/-- The first byte matches and `TMCN` is 0; the first byte does not match and `TMCN` is 1. -/
theorem witness_MaskedCompareEndsTheRun :
    ∀ s ∈ [bench 0xC001 4 0xFF01, bench 0xC007 4 0xFF02],
      s.me.cc.getLsbD 13 = false ∧ s.me.cc.getLsbD 7 = false ∧ fieldTx s.me.cc = 0 ∧
        fieldTbc s.me.cc = 0 ∧ fieldTmc s.me.cc ≠ 0 ∧
        (MaskMatches ((moveUnit s).value.extractLsb' 0 8) s.me.mc ↔
          s.me.cc.getLsbD 2 = false) := by decide

theorem witness_CutRunsGoOn : (bench 0xC000 0 0).dma = .idle := by decide

theorem witness_HostActions :
    ActsNext .reset [] (acting [.reset] (bench 0 0 0)) ∧
      ActsNext (.resume .ch0) [] (acting [.resume .ch0] ((bench 0 0 0).setStatus
        (.faulted .unknownOpcode))) ∧
      ActsNext (.store .io 0xFFFFF#20 0xFF#8) []
        (acting [.store .io 0xFFFFF#20 0xFF#8] (bench 0 0 0)) ∧ Canonical (bench 0 0 0) ∧
      ActsNext (.drive .ch1 false) [] (acting [.drive .ch1 false] (bench 0 0 0)) := by decide

theorem witness_BootstrapLoadsTheChannel :
    ActsNext (.activate .ch0) [] (acting [.activate .ch0] chain) ∧
      ActsNext (.activate .ch1) [] (acting [.activate .ch1] chain) ∧ PlainHost chain := by decide

/-- A step of an instruction, and a DMA run that goes on. -/
theorem witness_InvariantKeptByEveryStep :
    let s := (bench 0xC008 3 0).setXp true
    (Inv s ∧ ∃ t, step s = .next t) ∧
      (Inv { s with dma := .suspended none } ∧
        ∃ t, step { s with dma := .suspended none } = .next t) :=
  ⟨⟨⟨by decide, by decide, by decide, by decide, trivial⟩, _, eq_next_nextOf (by decide)⟩,
    ⟨by decide, by decide, by decide, by decide, by decide, by decide, by decide, by decide⟩,
    _, eq_next_nextOf (by decide)⟩

theorem witness_EveryValidatedStepCompletes : State.reset.env.params.validate = true := by decide

theorem witness_OnlyLoadsWriteTags :
    let s := start [] [(.ga, 0x40, .io)] []
    ∃ t, exec (.moviR .ga (.byte 0#8) .byte) s = .next t ∧ t.tag .ga ≠ s.tag .ga :=
  ⟨_, eq_next_nextOf (by decide), by decide⟩

theorem witness_OnlyActivationWritesPp :
    let s := acting [.activate .ch1] chain
    let u := acting [.reset] (start [] [(.pp, 0x500, .mem)] [])
    (∃ t, step s = .next t ∧ (t.chan .ch1).pp ≠ (s.chan .ch1).pp) ∧
      ∃ t, step u = .next t ∧ (t.chan .ch0).pp ≠ (u.chan .ch0).pp :=
  ⟨⟨_, eq_next_nextOf (by decide), by decide⟩, _, eq_next_nextOf (by decide), by decide⟩

theorem witness_OnlyStopsStopTheChannel :
    ∃ t, exec (.movMMLoad ⟨.ga, .base⟩ .word) (bench 0 0 0) = .next t ∧
      (bench 0 0 0).me.status = .running ∧ t.me.status ≠ .running :=
  ⟨_, eq_next_nextOf (by decide), by decide, by decide⟩

/-- A step of the other channel, an empty schedule, a host action that touches no channel, and a run
that goes on. -/
theorem witness_ChannelsShareNoState :
    (bench 0 0 0).dma = .idle ∧ (bench 0 0 0).env.schedule = [] ∧ ChanId.ch1 ≠ (bench 0 0 0).cur ∧
      (acting [.step .ch0] (bench 0 0 0)).env.schedule = [.step .ch0] ∧
      isNext (step (bench 0 0 0)) = true ∧
      isNext (step (acting [.step .ch0] (bench 0 0 0))) = true ∧
      isNext (step (acting [.activate .ch0] (bench 0 0 0))) = true ∧
      isNext (step (acting [.resume .ch0] (bench 0 0 0))) = true ∧
      isNext (step (acting [.store .mem 0#20 1#8] (bench 0 0 0))) = true ∧
      isNext (step (acting [.drive .ch0 true] (bench 0 0 0))) = true ∧
      isNext (step { bench 0xC008 3 0 with dma := .suspended none }) = true := by decide

end Sys2Proof.Tests.Slice0
end

/-! ## The state of a channel

Pointer loads and stores, masked compares, activation, and what every step leaves alone: the lemmas
here, then the statements they settle. -/

namespace Sys2Proof.Machine

/-! ### Loads of a register and its tag -/

/-- A load that reads an operand and then writes one register and its tag. -/
theorem loadReg_loadsOnly {r : RegName} {m : MemOp} {w : Width} {s u : State}
    (hu : ReadsOnly (eaState m w s) u) (v : Addr) (sp : Space) :
    LoadsOnly r [r] m w u s (loadReg r v sp u) :=
  loadsOnly_of_reads hu (loadReg_frame r v sp u).1 (loadReg_frame r v sp u).2.1

/-- A pointer register holds all of the value loaded. -/
theorem loadReg_reg_pppName (p : PReg) (v : Addr) (sp : Space) (s : State) :
    (loadReg (pppName p) v sp s).reg (pppName p) = v := by
  rw [loadReg_reg, cutReg_pppName]

/-- A concatenation as a number: the low part below the high part. -/
theorem toNat_append_eq {n k : Nat} (x : BitVec n) (y : BitVec k) :
    (x ++ y).toNat = x.toNat * 2 ^ k + y.toNat := by
  rw [BitVec.toNat_append, ← Nat.shiftLeft_add_eq_or_of_lt y.isLt, Nat.shiftLeft_eq]

/-- The two halves of a segmented pointer put together, segment above offset. -/
theorem flat_append_toNat (seg off : Half) :
    (flat (seg ++ off)).toNat = (seg.toNat * 16 + off.toNat) % 2 ^ 20 := by
  have := off.isLt
  rw [flat_toNat, toNat_append_eq]
  omega

/-- The value of a stored pointer: bits 7:4 of the third byte above the 16 bits (R158). -/
theorem pointerValue_toNat (lo : Half) (b2 : Byte) :
    (pointerValue lo b2).toNat = b2.toNat / 16 * 65536 + lo.toNat := by
  have := b2.isLt
  rw [pointerValue, toNat_append_eq, BitVec.extractLsb'_toNat, Nat.shiftRight_eq_div_pow]
  omega

/-- The tag of a stored pointer: bit 3 of the third byte (R158). -/
theorem pointerTag_eq (b2 : Byte) :
    pointerTag b2 = if b2.toNat / 8 % 2 = 1 then .io else .mem := by
  simp [pointerTag, tagOfBit, BitVec.getLsbD, Nat.testBit_eq_decide_div_mod_eq]

/-! ### Stores of a pointer and its tag -/

/-- The third byte of a stored pointer, as a number (R22(b)). -/
theorem pointerTail_toNat (v : Addr) (sp : Space) :
    (pointerTail v sp).toNat = v.toNat / 65536 * 16 + (if sp = .io then 8 else 0) := by
  have hlt := v.isLt
  have hv : (v.extractLsb' 16 4).toNat = v.toNat / 65536 := by
    rw [BitVec.extractLsb'_toNat, Nat.shiftRight_eq_div_pow]
    omega
  have ht : (tagBit sp).toNat = if sp = .io then 1 else 0 := by cases sp <;> rfl
  rw [pointerTail, toNat_append_eq, toNat_append_eq, hv, ht, BitVec.toNat_zero]
  split <;> omega

/-- The two bytes of a 16-bit value that stands in memory are its quotient and remainder (R44). -/
theorem byteAt_toNat_of_halfAt {t : State} {sp : Space} {a : Addr} {v : Half}
    (h : halfAt t sp a = v) :
    (t.byteAt sp a).toNat = v.toNat % 256 ∧ (t.byteAt sp (a + 1#20)).toNat = v.toNat / 256 := by
  have := (t.byteAt sp a).isLt
  rw [← h, halfAt, toNat_append_eq]
  omega

/-- Storing a pointer in a canonical memory leaves its 3-byte form there (R22(b)). -/
theorem storePointer_storedPointer {s : State} (h : Canonical s) (sp : Space) (a v : Addr)
    (sq : Space) : StoredPointer sp a v sq (storePointer sp a v sq s) := by
  obtain ⟨hhalf, htail⟩ := storePointer_bytes h sp a v sq
  obtain ⟨hlo, hhi⟩ := byteAt_toNat_of_halfAt hhalf
  have hv : (v.extractLsb' 0 16).toNat = v.toNat % 65536 := by
    simp
  refine ⟨?_, ?_, ?_⟩
  · rw [hlo, hv]
    omega
  · rw [hhi, hv]
    omega
  · rw [htail, pointerTail_toNat]

/-- Storing a pointer at an operand writes at most three bytes there, beside the post-increment. -/
theorem storePointer_storesOnly (m : MemOp) (v : Addr) (sp : Space) (s : State) :
    StoresOnly [] 3 m .word s
      (storePointer (eaSpace m s) (eaAddr m s) v sp (eaState m .word s)) :=
  storesOnly_of_store (ReadsOnly.refl _) (storePointer_frame _ _ _ _ _).1
    (storePointer_frame _ _ _ _ _).2

/-- Computing an address changes no tag. -/
theorem eaState_tag (m : MemOp) (w : Width) (s : State) (r : RegName) :
    (eaState m w s).tag r = s.tag r :=
  (keeps_eaState m w s).tags r (by simp)

theorem pppName_ne_ix (p : PReg) : pppName p ≠ .ix := by cases p <;> decide

/-! ### Jumps -/

/-- A jump keeps a stored pointer that stands in memory. -/
theorem StoredPointer.congr {sp : Space} {a v : Addr} {sq : Space} {t u : State}
    (h : StoredPointer sp a v sq t) (hs : SameBytes t u) : StoredPointer sp a v sq u := by
  simp only [StoredPointer, hs sp]
  exact h

/-- A store at an operand, then a jump. -/
theorem StoresOnly.jumpIf {n : Nat} {m : MemOp} {w : Width} {s t : State}
    (h : StoresOnly [] n m w s t) (taken : Bool) (d : Addr) :
    StoresOnly [.tp] n m w s (jumpIf taken d t) := by
  obtain ⟨hk, hix, hb⟩ := h
  obtain ⟨jk, _, jb⟩ := jumpIf_frame taken d t
  exact ⟨hk.trans jk (by simp [or_comm]) (by simp), (jk.regs _ (by simp)).trans hix, hb.before jb⟩

/-- A jump on the byte at `M` adds the displacement to `tp` exactly when the test holds (R205). -/
theorem jumpOnByte_tp (test : Byte → Half → Bool) (m : MemOp) (d : Imm) (s : State) :
    HoldsInt .tp (if test (operandByte m s) s.me.mc = true then (s.reg .tp).toNat + immInt d
      else (s.reg .tp).toNat) (jumpOnByte test m d s) := by
  rw [jumpOnByte_eq, ← operandRead_reg (w := .byte) (m := m) (by decide)]
  exact jumpIf_tp _ d _

/-! ### The masked compare ends a run -/

/-- The termination fields of a control word, as numbers (R18). -/
theorem ccTx_toNat (cc : Half) : (ccTx cc).toNat = fieldTx cc := by
  rw [ccTx, BitVec.extractLsb'_toNat, Nat.shiftRight_eq_div_pow, fieldTx]

theorem ccTbc_toNat (cc : Half) : (ccTbc cc).toNat = fieldTbc cc := by
  rw [ccTbc, BitVec.extractLsb'_toNat, Nat.shiftRight_eq_div_pow, fieldTbc]

theorem ccTmc_toNat (cc : Half) : (ccTmc cc).toNat = fieldTmc cc := by
  rw [ccTmc, BitVec.extractLsb'_toNat, Nat.shiftRight_eq_div_pow, fieldTmc, pow_zero, Nat.div_one]

/-- The skip of an enabled class is four bytes for each step of its field above 1 (R251). -/
theorem skip_eq_skipOf {f : BitVec 2} (h : f.toNat ≠ 0) : skip f = skipOf f.toNat := by
  revert f; decide

/-- Where the external check is disabled, a check samples nothing (R272). -/
theorem dmaCheck_of_no_tx {s : State} (h : fieldTx s.me.cc = 0) (latch : Option Bool) :
    dmaCheck latch s = (innerCheck latch s, s) := by
  have hx : ccTx s.me.cc = 0#2 := BitVec.eq_of_toNat_eq ((ccTx_toNat _).trans h)
  simp [dmaCheck, hx]

/-- Where the byte count is disabled, what is left of the check is the masked compare (R240). -/
theorem innerCheck_of_no_tbc {s : State} (h : fieldTbc s.me.cc = 0) (latch : Option Bool) :
    innerCheck latch s =
      if maskedStop s.me.cc latch then some (skip (ccTmc s.me.cc)) else none := by
  have hx : ccTbc s.me.cc = 0#2 := BitVec.eq_of_toNat_eq ((ccTbc_toNat _).trans h)
  simp [innerCheck, hx]

/-- The masked compare fires when the latch agrees with the sense that `TMCN` asks for (R240). -/
theorem maskedStop_some {cc : Half} (h : fieldTmc cc ≠ 0) {b : Bool}
    (hb : b = true ↔ cc.getLsbD 2 = false) : maskedStop cc (some b) = true := by
  have hne : ccTmc cc ≠ 0#2 := fun e => h (by rw [← ccTmc_toNat, e]; rfl)
  have xor_of_iff : ∀ x y : Bool, (x = true ↔ y = false) → (x ^^ y) = true := by decide
  have hx : (b ^^ ccTmcn cc) = true := xor_of_iff _ _ hb
  simp only [maskedStop, bne_iff_ne.2 hne, hx, Bool.and_self]

/-- The executing channel after a counted unit: what the unit left, `bc` counted down (R248). -/
theorem countUnit_me (s : State) : (countUnit s).st.me =
    { (moveUnit s).st.me with bc := s.me.bc - BitVec.ofNat 16 (unitBytes s) } := by
  have hme : (countUnit s).st.me = { (moveUnit s).st.me with bc := (countUnit s).st.me.bc } := by
    unfold countUnit
    dsimp only
    rw [State.setReg_me]
    rfl
  rw [hme, countUnit_bc]

/-- A run in which the first check lets a unit pass and the second check fires. -/
theorem dmaLoop_one_unit (n : Nat) {s : State} {sk : Addr} (hts : ccTs s.me.cc = false)
    (hfirst : dmaCheck none s = (none, s))
    (hsecond : dmaCheck (some (maskedEq ((moveUnit s).value.setWidth 8) s.me.mc)) (countUnit s).st =
      (some sk, (countUnit s).st)) :
    dmaLoop (n + 2) none s = terminate sk (countUnit s).st := by
  have hk := countUnit_frame s
  have hts' : ccTs (countUnit s).st.me.cc = false := by rw [hk.cc (by simp), hts]
  rw [← hk.mc (by simp)] at hsecond
  rw [dmaLoop_go (n + 1) hts (by rw [hfirst]), hfirst, countUnit_value,
    dmaLoop_stop n hts' (by rw [hsecond]), hsecond]

/-- With only the masked compare enabled, a run whose first unit meets the condition is that unit,
counted, and the end of the run with the class's skip (R240, R250). -/
theorem dmaRun_of_masked_unit {s : State} (htr : s.me.cc.getLsbD 13 = false)
    (hts : s.me.cc.getLsbD 7 = false) (htx : fieldTx s.me.cc = 0) (htbc : fieldTbc s.me.cc = 0)
    (htmc : fieldTmc s.me.cc ≠ 0)
    (hmatch : MaskMatches ((moveUnit s).value.extractLsb' 0 8) s.me.mc ↔
      s.me.cc.getLsbD 2 = false) :
    dmaRun s = terminate (skip (ccTmc s.me.cc)) (countUnit s).st := by
  have hcc : (countUnit s).st.me.cc = s.me.cc := (countUnit_frame s).cc (by simp)
  have hlow : (moveUnit s).value.setWidth 8 = (moveUnit s).value.extractLsb' 0 8 := by
    apply BitVec.eq_of_toNat_eq; simp
  have hfirst : dmaCheck none s = (none, s) := by
    rw [dmaCheck_of_no_tx htx, innerCheck_of_no_tbc htbc]
    rfl
  have hstop : maskedStop s.me.cc
      (some (maskedEq ((moveUnit s).value.setWidth 8) s.me.mc)) = true :=
    maskedStop_some htmc (by rw [maskedEq_iff, hlow, hmatch])
  have hsecond : dmaCheck (some (maskedEq ((moveUnit s).value.setWidth 8) s.me.mc))
      (countUnit s).st = (some (skip (ccTmc s.me.cc)), (countUnit s).st) := by
    rw [dmaCheck_of_no_tx (by rw [hcc, htx]), innerCheck_of_no_tbc (by rw [hcc, htbc]), hcc, hstop,
      if_pos rfl]
  have hfuel : Config.dmaFuel = 65534 + 2 := rfl
  rw [dmaRun, show ccTr s.me.cc = false from htr, if_neg Bool.false_ne_true, hfuel]
  exact dmaLoop_one_unit _ hts hfirst hsecond

/-! ### Activation -/

/-- What a register load leaves in the executing channel. -/
theorem loadReg_me (r : RegName) (v : Addr) (sp : Space) (s : State) :
    (loadReg r v sp s).me = { s.me.write r v with tags := s.me.tags.set r sp } := by
  simp [loadReg]

/-- Reads of memory space that add up to `n` bytes stand in the log of `t` above that of `s`. -/
def LogsMemReads (n : Nat) (s t : State) : Prop :=
  ∃ es, t.env.events = es ++ s.env.events ∧ (∀ e ∈ es, e.isMemRead = true) ∧ bytesRead es = n

theorem LogsMemReads.trans {n k : Nat} {s t u : State} (h : LogsMemReads n s t)
    (j : LogsMemReads k t u) : LogsMemReads (n + k) s u := by
  obtain ⟨es, hes, hr, hb⟩ := h
  obtain ⟨fs, hfs, jr, jb⟩ := j
  refine ⟨fs ++ es, by rw [hfs, hes, List.append_assoc], fun e he => ?_, ?_⟩
  · exact (List.mem_append.1 he).elim (jr e) (hr e)
  · rw [bytesRead_append, hb, jb, Nat.add_comm]

theorem memRead8_logs (a : Addr) (s : State) : LogsMemReads 1 s (memRead8 .mem a s).2 :=
  ⟨[_], rfl, by simp [Event.isMemRead], rfl⟩

theorem memRead16_logs (a : Addr) (s : State) : LogsMemReads 2 s (memRead16 .mem a s).2 := by
  unfold memRead16
  split
  · exact ⟨[_], rfl, by simp [Event.isMemRead], rfl⟩
  · exact (memRead8_logs _ s).trans (memRead8_logs _ _)

theorem memRead32_logs (a : Addr) (s : State) : LogsMemReads 4 s (memRead32 .mem a s).2 :=
  (memRead16_logs _ s).trans (memRead16_logs _ _)

theorem bootControlBlock_logs (c : ChanId) (s : State) :
    LogsMemReads 10 s (bootControlBlock c s).2 :=
  (((memRead8_logs _ s).trans (memRead32_logs _ _)).trans (memRead8_logs _ _)).trans
    (memRead32_logs _ _)

/-- The pointer read at an address changes only with the bytes of memory. -/
theorem segmentedAt_congr {s t : State} (h : SameBytes s t) (a : Addr) :
    segmentedAt t a = segmentedAt s a := by
  simp only [segmentedAt, halfAt, h .mem]

/-- On a host that plays RAM the control block is found through the chain of pointers (R292). -/
theorem bootControlBlock_plain {s : State} (h : PlainHost s) (c : ChanId) :
    (bootControlBlock c s).1 =
      segmentedAt s (segmentedAt s Config.bootScpAddr + 2#20) + chanOffset c := by
  have r1 := memRead8_reads .mem Config.bootSysbusAddr s
  have r3 := (r1.trans (memRead32_reads .mem Config.bootScpAddr _)).trans
    (memRead8_reads .mem (segmentedAt s Config.bootScpAddr) _)
  simp only [bootControlBlock, flat_memRead32_plain (r3.plain h), flat_memRead32_plain (r1.plain h),
    segmentedAt_congr r3.sameBytes, segmentedAt_congr r1.sameBytes]

/-- The state in which the bootstrap reads the pointer for `pp`: the control word and the busy flag
have been read and discarded (R292 steps 5 and 6). -/
def bootDiscard (ccb : Addr) (s : State) : State :=
  (memRead8 .mem (ccb + 1#20) (memRead8 .mem ccb s).2).2

/-- The state after `pp` is loaded (R292 step 7). -/
def bootPp (ccb : Addr) (s : State) : State :=
  let p := memRead32 .mem (ccb + 2#20) (bootDiscard ccb s)
  loadReg .pp (flat p.1) .mem p.2

/-- The state after `tp` is loaded through the `pp` just loaded (R292 step 8). -/
def bootTp (ccb : Addr) (s : State) : State :=
  let p := memRead32 .mem ((bootPp ccb s).reg .pp) (bootPp ccb s)
  loadReg .tp (flat p.1) .mem p.2

theorem bootLoad_eq (ccb : Addr) (s : State) :
    bootLoad ccb s = (bootTp ccb s).setStatus .running := rfl

theorem bootDiscard_reads (ccb : Addr) (s : State) : ReadsOnly s (bootDiscard ccb s) :=
  (memRead8_reads _ _ s).trans (memRead8_reads _ _ _)

/-- The 4-byte read for `pp`, after what is discarded. -/
theorem bootPp_reads (ccb : Addr) (s : State) :
    ReadsOnly s (memRead32 .mem (ccb + 2#20) (bootDiscard ccb s)).2 :=
  (bootDiscard_reads ccb s).trans (memRead32_reads _ _ _)

theorem bootLoad_logs (ccb : Addr) (s : State) : LogsMemReads 10 s (bootLoad ccb s) :=
  (((memRead8_logs _ s).trans (memRead8_logs _ _)).trans (memRead32_logs _ _)).trans
    (memRead32_logs _ (bootPp ccb s))

/-- The bootstrap loads the channel with nothing but `pp`, `tp`, their tags and the status. -/
theorem bootLoad_me (ccb : Addr) (s : State) : (bootLoad ccb s).me = { s.me with
    pp := flat (memRead32 .mem (ccb + 2#20) (bootDiscard ccb s)).1
    tp := flat (memRead32 .mem ((bootPp ccb s).reg .pp) (bootPp ccb s)).1
    tags := { s.me.tags with pp := .mem, tp := .mem }
    status := .running } := by
  have hpp : (bootPp ccb s).me = _ := loadReg_me _ _ _ _
  have htp : (bootTp ccb s).me = _ := loadReg_me _ _ _ _
  rw [bootLoad_eq, State.setStatus_me, htp, (memRead32_reads _ _ _).me, hpp,
    (bootPp_reads ccb s).me]
  rfl

/-- Loading a register after reads, beside the register and its tag. -/
theorem loadReg_keeps_of_reads {s u : State} (h : ReadsOnly s u) (r : RegName) (v : Addr)
    (sp : Space) : Keeps [r] [r] s (loadReg r v sp u) :=
  h.keeps.trans (loadReg_frame r v sp u).1 (by simp) (by simp)

theorem bootTp_keeps (ccb : Addr) (s : State) : Keeps [.pp, .tp] [.pp, .tp] s (bootTp ccb s) :=
  (loadReg_keeps_of_reads (bootPp_reads ccb s) .pp _ .mem).trans
    (loadReg_keeps_of_reads (memRead32_reads _ _ (bootPp ccb s)) .tp _ .mem) (by simp) (by simp)

/-- The contents of both spaces are the same lists. -/
def SameContents (s t : State) : Prop := t.env.mem = s.env.mem ∧ t.env.io = s.env.io

theorem SameContents.trans {s t u : State} (h : SameContents s t) (k : SameContents t u) :
    SameContents s u :=
  ⟨k.1.trans h.1, k.2.trans h.2⟩

theorem SameContents.sameBytes {s t : State} (h : SameContents s t) : SameBytes s t :=
  fun sp a => State.byteAt_congr sp h.1 h.2 a

theorem ReadsOnly.sameContents {s t : State} (h : ReadsOnly s t) : SameContents s t := by
  obtain ⟨_, _, rfl, _, _⟩ := h
  exact ⟨rfl, rfl⟩

theorem bootLoad_sameContents (ccb : Addr) (s : State) : SameContents s (bootLoad ccb s) :=
  (bootPp_reads ccb s).sameContents.trans (memRead32_reads _ _ (bootPp ccb s)).sameContents

/-- On a host that plays RAM the bootstrap loads the pointer two bytes into the control block, and
then the one that stands where that points (R292 steps 7 and 8). -/
theorem bootLoad_plain {s : State} (h : PlainHost s) (ccb : Addr) :
    (bootLoad ccb s).me.pp = segmentedAt s (ccb + 2#20) ∧
      (bootLoad ccb s).me.tp = segmentedAt s (bootLoad ccb s).me.pp := by
  have hd := bootDiscard_reads ccb s
  have hpp : flat (memRead32 .mem (ccb + 2#20) (bootDiscard ccb s)).1 =
      segmentedAt s (ccb + 2#20) := by
    rw [flat_memRead32_plain (hd.plain h), segmentedAt_congr hd.sameBytes]
  have hreg : (bootPp ccb s).reg .pp = segmentedAt s (ccb + 2#20) := (loadReg_reg _ _ _ _).trans hpp
  have hplain : PlainHost (bootPp ccb s) := (bootPp_reads ccb s).plain h
  have hbytes : SameBytes s (bootPp ccb s) := (bootPp_reads ccb s).sameContents.sameBytes
  rw [bootLoad_me]
  dsimp only
  rw [hreg, flat_memRead32_plain hplain, segmentedAt_congr hbytes, hpp]
  exact ⟨rfl, rfl⟩

/-- Loading the channel leaves the rest of the core as it was. -/
theorem bootLoad_core (ccb : Addr) (s : State) :
    (bootLoad ccb s).cur = s.cur ∧ (bootLoad ccb s).obligation = s.obligation ∧
      (bootLoad ccb s).dma = s.dma ∧ ∀ d, d ≠ s.cur → (bootLoad ccb s).chan d = s.chan d := by
  have hk := bootTp_keeps ccb s
  refine ⟨hk.cur, hk.obligation, hk.dma, fun d hd => ?_⟩
  rw [bootLoad_eq, State.chan_setStatus_other _ _ (by rw [hk.cur]; exact hd), hk.other d hd]

/-- Activating a channel is loading it once its control block has been found. -/
theorem bootstrap_eq (c : ChanId) (rest : List HostAction) (s : State) :
    bootstrap c { s with env := { s.env with schedule := rest } } =
      bootLoad (bootControlBlock c (entered c rest s)).1
        (bootControlBlock c (entered c rest s)).2 :=
  rfl

/-- What an activation changes of its channel, and that it changes nothing else of the core and no
byte of the contents (R291). -/
theorem bootstrap_frame (c : ChanId) (rest : List HostAction) {s t : State}
    (ht : t = bootstrap c { s with env := { s.env with schedule := rest } }) :
    t.chan c = t.me ∧
    t.chan c = { s.chan c with
      pp := (t.chan c).pp
      tp := (t.chan c).tp
      tags := { (s.chan c).tags with pp := .mem, tp := .mem }
      status := .running } ∧
    (∀ d, d ≠ c → t.chan d = s.chan d) ∧ t.obligation = s.obligation ∧ t.dma = s.dma ∧
    SameContents s t := by
  rw [bootstrap_eq] at ht
  have hr := bootControlBlock_reads c (entered c rest s)
  have hk := hr.keeps
  have hme : (bootControlBlock c (entered c rest s)).2.me = s.chan c := by rw [hr.me, entered_me]
  obtain ⟨hcur, hobl, hdma, hother⟩ := bootLoad_core (bootControlBlock c (entered c rest s)).1
    (bootControlBlock c (entered c rest s)).2
  have hload := bootLoad_me (bootControlBlock c (entered c rest s)).1
    (bootControlBlock c (entered c rest s)).2
  rw [← ht] at hcur hobl hdma hother hload
  have hc : t.cur = c := hcur.trans hk.cur
  have hchan : t.chan c = t.me := by rw [State.me, hc]
  refine ⟨hchan, ?_, fun d hd => ?_, hobl.trans hk.obligation, hdma.trans hk.dma, ?_⟩
  · rw [hchan, hload, hme]
  · rw [hother d (by rw [hk.cur]; exact hd), hk.other d hd, entered_chan]
  · rw [ht]
    exact hr.sameContents.trans (bootLoad_sameContents _ _)

/-- An activation reads 20 bytes of memory space (R292). -/
theorem bootstrap_logs (c : ChanId) (rest : List HostAction) (s : State) :
    LogsMemReads 20 s (bootstrap c { s with env := { s.env with schedule := rest } }) :=
  (bootControlBlock_logs c (entered c rest s)).trans (bootLoad_logs _ _)

/-- On a host that plays RAM an activation loads what the chain of pointers gives (R292). -/
theorem bootstrap_plain {s t : State} (h : PlainHost s) {c : ChanId} {rest : List HostAction}
    (ht : t = bootstrap c { s with env := { s.env with schedule := rest } }) :
    t.me.pp = segmentedAt s
        (segmentedAt s (segmentedAt s Config.bootScpAddr + 2#20) + chanOffset c + 2#20) ∧
      t.me.tp = segmentedAt s t.me.pp := by
  rw [bootstrap_eq] at ht
  have hplain : PlainHost (entered c rest s) := h
  have hr := bootControlBlock_reads c (entered c rest s)
  have hbytes : SameBytes s (entered c rest s) := entered_sameBytes c rest s
  have hload := bootLoad_plain (hr.plain hplain) (bootControlBlock c (entered c rest s)).1
  rw [← ht, segmentedAt_congr hr.sameBytes, segmentedAt_congr hr.sameBytes,
    segmentedAt_congr hbytes, segmentedAt_congr hbytes, bootControlBlock_plain hplain,
    segmentedAt_congr hbytes, segmentedAt_congr hbytes] at hload
  exact hload

/-! ### What a step of a channel leaves alone -/

/-- What every step of the executing channel leaves as it was, the DMA run it makes included: the
other channel, `pp` and its tag; it keeps the memories canonical and puts up no obligation, and it
leaves the status as it was or stops the channel. -/
structure ChannelFrame (s t : State) : Prop where
  cur : t.cur = s.cur
  other : ∀ c, c ≠ s.cur → t.chan c = s.chan c
  pp : t.reg .pp = s.reg .pp
  tagPp : t.tag .pp = s.tag .pp
  canonical : Canonical s → Canonical t
  obligation : s.obligation = none → t.obligation = none
  status : t.me.status = s.me.status ∨ t.me.status = .halted ∨ ∃ f, t.me.status = .faulted f

theorem Ran.channelFrame {s t : State} (h : Ran s t) : ChannelFrame s t :=
  ⟨h.cur, h.other, h.pp, h.tagPp, h.canonical, h.obligation, h.status⟩

theorem ChannelFrame.refl (s : State) : ChannelFrame s s := (Ran.refl s).channelFrame

theorem ChannelFrame.trans {s t u : State} (h : ChannelFrame s t) (k : ChannelFrame t u) :
    ChannelFrame s u where
  cur := k.cur.trans h.cur
  other c hc := (k.other c (by rw [h.cur]; exact hc)).trans (h.other c hc)
  pp := k.pp.trans h.pp
  tagPp := k.tagPp.trans h.tagPp
  canonical x := k.canonical (h.canonical x)
  obligation x := k.obligation (h.obligation x)
  status := by
    rcases k.status with e | e | e
    · rw [e]; exact h.status
    · exact .inr (.inl e)
    · exact .inr (.inr e)

/-- A counted unit writes the pointers and the count (R242, R248). -/
theorem countUnit_channelFrame (s : State) : ChannelFrame s (countUnit s).st :=
  (Ran.of_keeps (countUnit_frame s) (by simp) (by simp) countUnit_canonical).channelFrame

/-- A check changes nothing of the core. -/
theorem dmaCheck_channelFrame (latch : Option Bool) (s : State) :
    ChannelFrame s (dmaCheck latch s).2 := by
  obtain ⟨h0, h1, hcur, hobl, _⟩ := dmaCheck_core latch s
  have hme := dmaCheck_me latch s
  refine ⟨hcur, fun c _ => ?_, ?_, ?_, dmaCheck_canonical, hobl.trans, .inl (by rw [hme])⟩
  · cases c
    · exact h0
    · exact h1
  · rw [State.reg, hme, State.reg]
  · rw [State.tag, hme, State.tag]

/-- The end of a run writes `xp` and `tp` (R250). -/
theorem terminate_channelFrame (sk : Addr) (s : State) : ChannelFrame s (terminate sk s) := by
  have hme := terminate_me sk s
  refine ⟨rfl, fun c hc => terminate_chan_other sk s hc, ?_, ?_, id, id, .inl (by rw [hme])⟩
  · rw [State.reg, hme]; rfl
  · rw [State.tag, hme]; rfl

theorem dmaLoop_channelFrame (n : Nat) : ∀ (latch : Option Bool) (s : State),
    ChannelFrame s (dmaLoop n latch s) := by
  induction n with
  | zero => exact fun _ s => ⟨rfl, fun c _ => by cases c <;> rfl, rfl, rfl, id, id, .inl rfl⟩
  | succ n ih =>
    intro latch s
    have hcheck := dmaCheck_channelFrame latch s
    cases ht : ccTs s.me.cc with
    | true =>
      rw [dmaLoop_single _ _ ht]
      exact (countUnit_channelFrame s).trans (terminate_channelFrame _ _)
    | false =>
      cases hc : (dmaCheck latch s).1 with
      | some sk =>
        rw [dmaLoop_stop _ ht hc]
        exact hcheck.trans (terminate_channelFrame _ _)
      | none =>
        rw [dmaLoop_go _ ht hc]
        exact (hcheck.trans (countUnit_channelFrame _)).trans (ih _ _)

theorem dmaRun_channelFrame (s : State) : ChannelFrame s (dmaRun s) := by
  unfold dmaRun
  split
  · exact (raise_ran _ s).channelFrame
  · exact dmaLoop_channelFrame _ _ s

theorem dmaResume_channelFrame (latch : Option Bool) (s : State) :
    ChannelFrame s (dmaResume latch s) :=
  ChannelFrame.trans (t := { s with dma := .idle })
    ⟨rfl, fun c _ => by cases c <;> rfl, rfl, rfl, id, id, .inl rfl⟩ (dmaLoop_channelFrame _ _ _)

theorem afterInstr_channelFrame (armed : Bool) (s : State) :
    ChannelFrame s (afterInstr armed s) := by
  unfold afterInstr
  split
  · exact dmaRun_channelFrame s
  · exact ChannelFrame.refl s

/-- What a step of a channel can do: nothing where it is not running, else an instruction with the
run that `xp` had armed before it (R120, R29). -/
theorem stepChannel_cases {s t : State} (h : stepChannel s = .next t) :
    (s.me.status ≠ .running ∧ t = s) ∨
      (s.me.status = .running ∧
        ∃ u, Ran s u ∧ t = afterInstr (s.me.xp && s.env.params.execute) u) := by
  unfold stepChannel at h
  split at h
  · next hrun =>
    refine .inr ⟨hrun, ?_⟩
    split at h
    · next u hu =>
      cases h
      exact ⟨u, execOne_ran hu, rfl⟩
    · cases h
    · cases h
  · next hrun =>
    cases h
    exact .inl ⟨hrun, rfl⟩

theorem stepChannel_channelFrame {s t : State} (h : stepChannel s = .next t) :
    ChannelFrame s t := by
  obtain ⟨_, rfl⟩ | ⟨_, u, hu, rfl⟩ := stepChannel_cases h
  · exact ChannelFrame.refl _
  · exact hu.channelFrame.trans (afterInstr_channelFrame _ u)

/-- The channels after a step of channel `c`: the other one as before, and `pp` of both. -/
theorem ChannelFrame.pp_of_chan {s t : State} (h : ChannelFrame s t) (c : ChanId) :
    (t.chan c).pp = (s.chan c).pp := by
  by_cases hc : c = s.cur
  · have hpp := h.pp
    rwa [State.reg, State.reg, State.me, State.me, h.cur, ← hc] at hpp
  · rw [h.other c hc]

/-! ### Cut runs -/

/-- A run that goes on, of a running channel with a transfer pending and in neither translate nor
single-transfer mode, is still such a run wherever it is cut. -/
theorem dmaLoop_dmaInv_of_no_ts (n : Nat) : ∀ (latch : Option Bool) {s : State},
    s.me.status = .running → s.me.xp = true → ccTr s.me.cc = false → ccTs s.me.cc = false →
    DmaInv (dmaLoop n latch s) := by
  induction n with
  | zero => exact fun _ _ hrun hxp htr hts => ⟨hrun, hxp, htr, hts⟩
  | succ n ih =>
    intro latch s hrun hxp htr hts
    cases hc : (dmaCheck latch s).1 with
    | some sk =>
      rw [dmaLoop_stop _ hts hc]
      trivial
    | none =>
      have hk := countUnit_frame (dmaCheck latch s).2
      have hme := dmaCheck_me latch s
      have hcc : (countUnit (dmaCheck latch s).2).st.me.cc = s.me.cc := by
        rw [hk.cc (by simp), hme]
      rw [dmaLoop_go _ hts hc]
      exact ih _ (by rw [hk.status, hme, hrun]) (by rw [hk.xp, hme, hxp]) (by rw [hcc, htr])
        (by rw [hcc, hts])

/-- In single-transfer mode a run ends with its first unit, so a run that is cut is in another mode
(R241). -/
theorem dmaLoop_dmaInv {n : Nat} (hn : 0 < n) (latch : Option Bool) {s : State}
    (hrun : s.me.status = .running) (hxp : s.me.xp = true) (htr : ccTr s.me.cc = false) :
    DmaInv (dmaLoop n latch s) := by
  cases hts : ccTs s.me.cc with
  | false => exact dmaLoop_dmaInv_of_no_ts n latch hrun hxp htr hts
  | true =>
    obtain ⟨k, rfl⟩ := Nat.exists_eq_add_one.2 hn
    rw [dmaLoop_single _ _ hts]
    trivial

theorem dmaFuel_pos : 0 < Config.dmaFuel := by decide

/-- Where no run is under way there is nothing to say of one. -/
theorem DmaInv.of_idle {s : State} (h : s.dma = .idle) : DmaInv s := by
  simp [DmaInv, h]

theorem afterInstr_dmaInv {armed : Bool} {s : State} (hidle : s.dma = .idle)
    (hxp : armed = true → s.me.xp = true) : DmaInv (afterInstr armed s) := by
  unfold afterInstr
  split
  · next h =>
    simp only [Bool.and_eq_true, beq_iff_eq] at h
    obtain ⟨harmed, hrun⟩ := h
    unfold dmaRun
    split
    · exact DmaInv.of_idle hidle
    · next htr => exact dmaLoop_dmaInv dmaFuel_pos none hrun (hxp harmed) (by simpa using htr)
  · exact DmaInv.of_idle hidle

theorem stepChannel_dmaInv {s t : State} (h : stepChannel s = .next t) (hidle : s.dma = .idle) :
    DmaInv t := by
  obtain ⟨_, rfl⟩ | ⟨_, u, hu, rfl⟩ := stepChannel_cases h
  · exact DmaInv.of_idle hidle
  · refine afterInstr_dmaInv (hu.dma.trans hidle) fun harmed => hu.xp ?_
    rw [Bool.and_eq_true] at harmed
    exact harmed.1

/-! ### The invariant -/

/-- The invariant, with the two channels said at once. -/
theorem inv_iff (s : State) : Inv s ↔
    Canonical s ∧ s.obligation = none ∧ (∀ c, ChannelInv (s.chan c)) ∧ DmaInv s := by
  constructor
  · rintro ⟨hcan, hobl, h0, h1, hdma⟩
    exact ⟨hcan, hobl, fun c => by cases c; exacts [h0, h1], hdma⟩
  · rintro ⟨hcan, hobl, hchan, hdma⟩
    exact ⟨hcan, hobl, hchan .ch0, hchan .ch1, hdma⟩

/-- A channel that is not idle keeps its part of the invariant while the tag of `pp` is `MEM`. -/
theorem ChannelInv.of_not_idle {x : Channel} (hs : x.status ≠ .idle) (ht : x.tags.pp = .mem) :
    ChannelInv x :=
  ⟨fun h => absurd h hs, ht⟩

/-- A step of a running channel keeps what the invariant says of both channels. -/
theorem ChannelFrame.channelInv {s t : State} (h : ChannelFrame s t)
    (hrun : s.me.status = .running) (hi : ∀ c, ChannelInv (s.chan c)) (c : ChanId) :
    ChannelInv (t.chan c) := by
  by_cases hc : c = s.cur
  · have hme : t.chan c = t.me := by rw [State.me, h.cur, hc]
    rw [hme]
    refine ChannelInv.of_not_idle ?_ (h.tagPp.trans (hi s.cur).2)
    rcases h.status with e | e | ⟨f, e⟩ <;> simp [e, hrun]
  · rw [h.other c hc]
    exact hi c

/-- A step of a running channel keeps the invariant, up to what is to be said of a cut run. -/
theorem ChannelFrame.inv {s t : State} (h : ChannelFrame s t) (hrun : s.me.status = .running)
    (hs : Inv s) (hdma : DmaInv t) : Inv t := by
  obtain ⟨hcan, hobl, hchan, _⟩ := (inv_iff s).1 hs
  exact (inv_iff t).2 ⟨h.canonical hcan, h.obligation hobl, h.channelInv hrun hchan, hdma⟩

theorem stepChannel_inv {s t : State} (h : stepChannel s = .next t) (hidle : s.dma = .idle)
    (hs : Inv s) : Inv t := by
  obtain ⟨_, rfl⟩ | ⟨hrun, _⟩ := stepChannel_cases h
  · exact hs
  · exact (stepChannel_channelFrame h).inv hrun hs (stepChannel_dmaInv h hidle)

/-- A run that goes on keeps the invariant. -/
theorem dmaResume_inv {latch : Option Bool} {s : State} (hsusp : s.dma = .suspended latch)
    (hs : Inv s) : Inv (dmaResume latch s) := by
  obtain ⟨_, _, _, hdma⟩ := (inv_iff s).1 hs
  simp only [DmaInv, hsusp] at hdma
  obtain ⟨hrun, hxp, htr, _⟩ := hdma
  exact (dmaResume_channelFrame latch s).inv hrun hs
    (dmaLoop_dmaInv (s := { s with dma := .idle }) dmaFuel_pos latch hrun hxp htr)

/-- Where no run is under way the invariant does not depend on the current channel, on the schedule
or on the rest of the host's side but the contents. -/
theorem Inv.congr_of_idle {s t : State} (hs : Inv s) (h0 : t.ch0 = s.ch0) (h1 : t.ch1 = s.ch1)
    (hobl : t.obligation = s.obligation) (hcan : Canonical s → Canonical t)
    (hidle : t.dma = .idle) : Inv t := by
  obtain ⟨hc, ho, hi0, hi1, _⟩ := hs
  exact ⟨hcan hc, hobl.trans ho, by rw [h0]; exact hi0, by rw [h1]; exact hi1, DmaInv.of_idle hidle⟩

theorem ChannelInv.reset : ChannelInv Channel.reset := ⟨fun _ => rfl, rfl⟩

/-- Setting a faulted channel running keeps what the invariant says of it (R268). -/
theorem ChannelInv.resume {x : Channel} (h : ChannelInv x) :
    ChannelInv { x with status := resumeStatus x.status } := by
  refine ⟨fun hidle => ?_, h.2⟩
  have hx : x.status = .idle := by
    cases hst : x.status <;> simp [hst, resumeStatus] at hidle ⊢
  rw [h.1 hx]
  rfl

/-- An activation keeps the invariant (R291). -/
theorem bootstrap_inv {s : State} (c : ChanId) (rest : List HostAction) (hidle : s.dma = .idle)
    (hs : Inv s) : Inv (bootstrap c { s with env := { s.env with schedule := rest } }) := by
  obtain ⟨_, hchan, hother, hobl, hdma, hmem, hio⟩ := bootstrap_frame c rest (s := s) rfl
  obtain ⟨hc, ho, hi, _⟩ := (inv_iff s).1 hs
  refine (inv_iff _).2 ⟨hc.congr hmem hio, hobl.trans ho, fun d => ?_,
    DmaInv.of_idle (hdma.trans hidle)⟩
  by_cases hd : d = c
  · rw [hd, hchan]
    exact ChannelInv.of_not_idle (by simp) rfl
  · rw [hother d hd]
    exact hi d

/-- Each host action keeps the invariant. -/
theorem hostAct_inv {a : HostAction} {rest : List HostAction} {s t : State} (hidle : s.dma = .idle)
    (hs : Inv s) (h : hostAct a { s with env := { s.env with schedule := rest } } = .next t) :
    Inv t := by
  cases a with
  | step c =>
    exact stepChannel_inv (s := entered c rest s) h hidle (hs.congr_of_idle rfl rfl rfl id hidle)
  | activate c =>
    cases h
    exact bootstrap_inv c rest hidle hs
  | resume c =>
    cases h
    obtain ⟨hc, ho, hi, _⟩ := (inv_iff s).1 hs
    refine (inv_iff _).2 ⟨hc, ho, fun d => ?_, DmaInv.of_idle hidle⟩
    by_cases hd : d = c
    · rw [hd, State.chan_setChan_same]
      exact (hi c).resume
    · rw [State.chan_setChan_other _ _ hd]
      exact hi d
  | reset =>
    cases h
    exact ⟨hs.1, rfl, ChannelInv.reset, ChannelInv.reset, trivial⟩
  | store sp x b =>
    cases h
    exact hs.congr_of_idle rfl rfl rfl (fun hc => hc.setByte sp x b) hidle
  | drive c b =>
    cases h
    exact hs.congr_of_idle rfl rfl rfl id hidle

/-! ### The channel a host action is not for -/

/-- A host action is not for channel `c` (R277): a reset is for both, and what the host does to the
contents or to a pin is for neither. -/
def HostAction.Spares (c : ChanId) : HostAction → Prop
  | .step d | .activate d | .resume d => c ≠ d
  | .reset => False
  | .store _ _ _ | .drive _ _ => True

/-- A host action leaves a channel alone that it is not for. -/
theorem hostAct_chan_of_spares {a : HostAction} {rest : List HostAction} {s t : State} {c : ChanId}
    (h : hostAct a { s with env := { s.env with schedule := rest } } = .next t)
    (hc : a.Spares c) : t.chan c = s.chan c := by
  cases a with
  | step d => rw [(stepChannel_channelFrame (s := entered d rest s) h).other c hc, entered_chan]
  | activate d =>
    obtain ⟨_, _, hother, _⟩ := bootstrap_frame d rest (s := s) rfl
    cases h
    exact hother c hc
  | resume d =>
    cases h
    exact State.chan_setChan_other _ _ hc
  | reset => exact hc.elim
  | store sp x b =>
    cases h
    exact State.chan_setByte _ _ _ _ _
  | drive d b =>
    cases h
    cases c <;> rfl

/-- A host action that neither activates a channel nor resets the core leaves its `pp` alone. -/
theorem hostAct_pp {a : HostAction} {rest : List HostAction} {s t : State} {c : ChanId}
    (h : hostAct a { s with env := { s.env with schedule := rest } } = .next t)
    (hact : a ≠ .activate c) (hreset : a ≠ .reset) : (t.chan c).pp = (s.chan c).pp := by
  by_cases hc : a.Spares c
  · rw [hostAct_chan_of_spares h hc]
  · cases a with
    | step d => rw [(stepChannel_channelFrame (s := entered d rest s) h).pp_of_chan c, entered_chan]
    | activate d =>
      have hcd : c = d := not_not.1 hc
      exact absurd (hcd ▸ rfl) hact
    | resume d =>
      obtain rfl : c = d := not_not.1 hc
      cases h
      rw [State.chan_setChan_same]
      cases c <;> rfl
    | reset => exact absurd rfl hreset
    | store sp x b => exact absurd trivial hc
    | drive d b => exact absurd trivial hc

/-! ### The tags an instruction writes -/

/-- The register whose tag an instruction writes (R136). -/
def tagWritten : Instr → Option RegName
  | .moviR r _ _ | .movRM r _ _ => some (rrrName r)
  | .lpd p _ | .lpdi p _ _ | .movpPM p _ => some (pppName p)
  | _ => none

/-- The instructions that write the tag of a register are the five loads. -/
theorem load_of_tagWritten {i : Instr} {r : RegName} (h : tagWritten i = some r) :
    (∃ q i' w, i = .moviR q i' w ∧ r = rrrName q) ∨ (∃ q m w, i = .movRM q m w ∧ r = rrrName q) ∨
    (∃ p m, i = .lpd p m ∧ r = pppName p) ∨ (∃ p o g, i = .lpdi p o g ∧ r = pppName p) ∨
    (∃ p m, i = .movpPM p m ∧ r = pppName p) := by
  cases i
  case moviR q i' w => exact .inl ⟨q, i', w, rfl, (Option.some.inj h).symm⟩
  case movRM q m w => exact .inr (.inl ⟨q, m, w, rfl, (Option.some.inj h).symm⟩)
  case lpd p m => exact .inr (.inr (.inl ⟨p, m, rfl, (Option.some.inj h).symm⟩))
  case lpdi p o g => exact .inr (.inr (.inr (.inl ⟨p, o, g, rfl, (Option.some.inj h).symm⟩)))
  case movpPM p m => exact .inr (.inr (.inr (.inr ⟨p, m, rfl, (Option.some.inj h).symm⟩)))
  all_goals exact absurd h (Option.some_ne_none r).symm

/-- Every tag of the executing channel is as before. -/
def SameTags (s t : State) : Prop := ∀ r, t.tag r = s.tag r

theorem SameTags.refl (s : State) : SameTags s s := fun _ => rfl

theorem SameTags.trans {s t u : State} (h : SameTags s t) (k : SameTags t u) : SameTags s u :=
  fun r => (k r).trans (h r)

theorem Keeps.sameTags {rs : List RegName} {s t : State} (h : Keeps rs [] s t) : SameTags s t :=
  fun r => h.tags r (by simp)

theorem raise_sameTags (x : Stop) (s : State) : SameTags s (raise x s) := by
  intro r
  obtain ⟨hme, _⟩ := raise_stops x s
  rw [State.tag, hme, State.tag]

theorem rejectWord_sameTags {obl : Bool} {r : Reason} {u : RawUnit} {s t : State}
    (h : rejectWord obl r u s = .next t) : SameTags s t := by
  unfold rejectWord at h
  split at h
  · cases h
    exact raise_sameTags _ s
  · split at h
    · cases h
      exact raise_sameTags _ s
    · cases h

/-- The store of a carried value is a store: it writes no tag. -/
theorem storeCarried_sameTags (m : MemOp) (w : Width) (v : Half) (s : State) :
    SameTags s (storeCarried m w v s) :=
  (storeCarried_frame m w v s).1.sameTags

theorem runStoreHalf_sameTags {u : RawUnit} {s t : State} (h : runStoreHalf u s = .next t) :
    SameTags s t := by
  unfold runStoreHalf at h
  split at h
  · split at h <;> cases h
    · exact storeCarried_sameTags _ _ _ s
    · exact raise_sameTags _ s
  · exact rejectWord_sameTags h
  · exact rejectWord_sameTags h

/-- Computing an address and reading there writes no tag. -/
theorem reads_sameTags {m : MemOp} {w : Width} {s u : State} (hu : ReadsOnly (eaState m w s) u) :
    SameTags s u :=
  (keeps_of_reads hu (Keeps.refl [] [] u)).sameTags

theorem execMovMMLoad_sameTags {m : MemOp} {w : Width} {s t : State}
    (h : execMovMMLoad m w s = .next t) : SameTags s t := by
  have hread : SameTags s (operandRead w m s) := reads_sameTags (memRead_reads w _ _ _)
  have hfetch := (fetchUnit_fetches
    { operandRead w m s with obligation := some (operandOf w m s) }).keeps.sameTags
  exact (hread.trans hfetch).trans (runStoreHalf_sameTags h)

theorem jumpIf_sameTags (taken : Bool) (d : Addr) (s : State) : SameTags s (jumpIf taken d s) :=
  (jumpIf_frame taken d s).1.sameTags

/-- A load of a register leaves the tag of every other register alone. -/
theorem loadReg_tag_other {q r : RegName} (v : Addr) (sp : Space) (s : State)
    (h : some q ≠ some r) : (loadReg q v sp s).tag r = s.tag r :=
  (loadReg_frame q v sp s).1.tags r (by simpa [eq_comm] using h)

/-- An instruction leaves alone every tag but that of the register it loads. -/
theorem exec_tag {i : Instr} {s t : State} {r : RegName} (h : exec i s = .next t)
    (hr : tagWritten i ≠ some r) : t.tag r = s.tag r := by
  cases i <;> simp only [exec] at h
  case lpdi | moviR =>
    cases h
    exact loadReg_tag_other _ _ _ hr
  case movRM r m w =>
    cases h
    exact (loadReg_tag_other _ _ _ hr).trans (reads_sameTags (memRead_reads w _ _ _) _)
  case lpd p m =>
    cases h
    exact (loadReg_tag_other _ _ _ hr).trans (reads_sameTags (memRead32_reads _ _ _) _)
  case movpPM p m =>
    cases h
    exact (loadReg_tag_other _ _ _ hr).trans (reads_sameTags (loadPointer_reads _ _ _) _)
  case nop => cases h; rfl
  case sintr => cases h; split <;> rfl
  case xfer => cases h; exact State.tag_setXp s r true
  case wid src dst => cases h; exact State.tag_setWid s r src dst
  case hlt | tsl => cases h; exact raise_sameTags _ s r
  case addiR | oriR | andiR | notR | incR | decR =>
    cases h
    exact (updateReg_frame _ _ s).1.sameTags r
  case jmp | ljmp | jzR | jnzR => cases h; exact jumpIf_sameTags _ _ s r
  case moviM | movMR =>
    cases h
    exact (storesOnly_of_store (ReadsOnly.refl _) (keeps_memWrite _ _ _ _ _)
      (sameBytesBut_memWrite _ _ _ _ _)).1.sameTags r
  case addRM | orRM | andRM | notRM => cases h; exact (updateRegMem_frame _ _ _ _ s).1.sameTags r
  case addiM | oriM | andiM | notM | incM | decM =>
    cases h
    exact (updateMem_frame _ _ _ s).1.sameTags r
  case addMR | orMR | andMR => cases h; exact (updateMemReg_frame _ _ _ _ s).1.sameTags r
  case setb | clr => cases h; exact (updateByte_frame _ _ s).1.sameTags r
  case jnzM | jzM => cases h; exact (jumpOnMem_frame _ _ _ _ s).1.sameTags r
  case jmce | jmcne | jbt | jnbt => cases h; exact (jumpOnByte_frame _ _ _ s).1.sameTags r
  case movpMP => cases h; exact (storePointer_storesOnly _ _ _ s).1.sameTags r
  case call =>
    cases h
    exact ((storePointer_storesOnly _ _ _ s).1.sameTags.trans (jumpIf_sameTags _ _ _)) r
  case movMMStore =>
    simp only [execMovMMStore] at h
    split at h <;> cases h
    · exact storeCarried_sameTags _ _ _ s r
    · exact raise_sameTags _ s r
  case movMMLoad => exact execMovMMLoad_sameTags h r

end Sys2Proof.Machine

namespace Sys2Proof.Certificates

open Sys2Proof.Machine

/-- Settles O50: both channels are `Channel.reset`. -/
theorem resetValues : Obligations.ResetValues := by
  intro c x
  have hx : x = Channel.reset := by cases c <;> rfl
  rw [hx]
  exact ⟨fun r => by cases r <;> rfl, fun r => by cases r <;> rfl, rfl, rfl, rfl, rfl, rfl, rfl⟩

/-- Settles O53. -/
theorem invariantAtReset : Obligations.InvariantAtReset :=
  ⟨⟨rfl, rfl⟩, rfl, ChannelInv.reset, ChannelInv.reset, trivial⟩

/-- Settles O39: the status is tested before anything else. -/
theorem stoppedChannelTakesNoStep : Obligations.StoppedChannelTakesNoStep := by
  intro c rest s hstep hstop
  rw [step_of_stepsNext hstep, stepChannel, entered_me, if_neg hstop]

/-- Settles O16: both are one register load with the tag `MEM`. -/
theorem immediateLoads : Obligations.ImmediateLoads := by
  intro r i w p off seg s
  refine ⟨⟨loadReg (rrrName r) (immValue i) .mem s, rfl, ?_, loadReg_tag _ _ _ _,
      loadReg_frame _ _ _ _⟩,
    ⟨loadReg (pppName p) (flat (seg ++ off)) .mem s, rfl, ?_, loadReg_tag _ _ _ _,
      loadReg_frame _ _ _ _⟩⟩
  · refine holdsInt_of_reg (loadReg_reg _ _ _ _) ?_
    rw [toNat_emod_toInt, immValue_toInt]
  · rw [loadReg_reg_pppName, flat_append_toNat]

/-- Settles O18: four bytes are read, then one register and its tag are loaded. -/
theorem loadSegmentedPointer : Obligations.LoadSegmentedPointer := by
  intro p m s v
  refine ⟨loadReg (pppName p) (flat v.1) (eaSpace m s) v.2, rfl, ?_, loadReg_tag _ _ _ _,
    loadReg_loadsOnly (memRead32_reads _ _ _) _ _⟩
  rw [loadReg_reg_pppName, flat_toNat]

/-- Settles O19: three bytes are read, then one register and its tag are loaded. -/
theorem loadStoredPointer : Obligations.LoadStoredPointer := by
  intro p m s lo b2
  refine ⟨loadReg (pppName p) (pointerValue lo.1 b2.1) (pointerTag b2.1) b2.2, rfl, ?_, ?_,
    loadReg_loadsOnly (loadPointer_reads _ _ _) _ _⟩
  · rw [loadReg_reg_pppName, pointerValue_toNat]
  · rw [loadReg_tag, pointerTag_eq]

/-- Settles O22: the pointer and its tag are read after the address is computed, which changes
neither. -/
theorem storePointer : Obligations.StorePointer := by
  intro m p s
  refine ⟨_, rfl, storePointer_storesOnly m _ _ s, fun hc => ?_⟩
  rw [← eaState_reg (pppName_ne_ix p), ← eaState_tag m .word s]
  exact storePointer_storedPointer (canonical_eaState hc) _ _ _ _

/-- Settles O33: both are the jump on a byte, with the masked compare as its test. -/
theorem maskedCompareJumps : Obligations.MaskedCompareJumps := by
  intro m d s tp
  refine ⟨⟨_, rfl, ?_, jumpOnByte_frame _ m d s⟩, ⟨_, rfl, ?_, jumpOnByte_frame _ m d s⟩⟩
  · simpa only [maskedEq_iff] using jumpOnByte_tp (fun x mc => maskedEq x mc) m d s
  · simpa only [Bool.not_eq_true', ← Bool.not_eq_true, maskedEq_iff, ite_not] using
      jumpOnByte_tp (fun x mc => !maskedEq x mc) m d s

/-- Settles O35: the pointer is stored as by `movp M,P`, and the jump changes no byte. -/
theorem callStoresTheReturnPointer : Obligations.CallStoresTheReturnPointer := by
  intro m d s
  have hst := storePointer_storesOnly m ((eaState m .word s).reg .tp)
    ((eaState m .word s).tag .tp) s
  refine ⟨_, rfl, ?_, hst.jumpIf _ _, fun hc => ?_⟩
  · have htp := hst.1.regs .tp (by obtain ⟨b, mode⟩ := m; cases mode <;> simp [bumped])
    rw [← htp]
    exact jumpIf_tp true d _
  · rw [← eaState_reg (m := m) (w := .word) (by decide), ← eaState_tag m .word s]
    exact (storePointer_storedPointer (canonical_eaState hc) _ _ _ _).congr (jumpIf_frame _ _ _).2.2

/-- Settles O47: the run is one counted unit and the end that the second check asks for. -/
theorem maskedCompareEndsTheRun : Obligations.MaskedCompareEndsTheRun := by
  intro s htr hts htx htbc htmc hmatch t
  have htp : (countUnit s).st.me.tp = s.me.tp := (countUnit_frame s).regs .tp (by simp)
  have hskip : skip (ccTmc s.me.cc) = skipOf (fieldTmc s.me.cc) := by
    rw [skip_eq_skipOf (by rw [ccTmc_toNat]; exact htmc), ccTmc_toNat]
  have hrun : t = terminate (skip (ccTmc s.me.cc)) (countUnit s).st :=
    dmaRun_of_masked_unit htr hts htx htbc htmc hmatch
  rw [hrun]
  refine ⟨?_, terminate_env _ _, terminate_dma _ _⟩
  rw [terminate_me, htp, countUnit_me, hskip]

/-- Settles O52. -/
theorem bootstrapLoadsTheChannel : Obligations.BootstrapLoadsTheChannel := by
  intro c rest s hact
  obtain ⟨hme, hchan, hother, hobl, hdma, hcont⟩ := bootstrap_frame c rest (s := s) rfl
  refine ⟨_, step_of_actsNext hact, hchan, hother, hcont.sameBytes, hobl, hdma.trans hact.1,
    bootstrap_logs c rest s, fun hp => ?_⟩
  have h := bootstrap_plain hp (c := c) (rest := rest) rfl
  rw [hme]
  cases c <;> exact h

/-- Settles O56: a tag that differs is the tag of the register that is loaded. -/
theorem onlyLoadsWriteTags : Obligations.OnlyLoadsWriteTags :=
  fun _ _ _ _ h hne => load_of_tagWritten (by_contra fun hr => hne (exec_tag h hr))

/-- Settles O57: a step of a channel leaves `pp` alone, and so does every other host action. -/
theorem onlyActivationWritesPp : Obligations.OnlyActivationWritesPp := by
  intro s t c h hne
  obtain ⟨latch, hsusp⟩ | ⟨d, rest, hstep⟩ | ⟨a, rest, hact, _⟩ := step_cases s
  · rw [step_of_suspended hsusp] at h
    cases h
    exact absurd ((dmaResume_channelFrame latch s).pp_of_chan c) hne
  · rw [step_of_stepsNext hstep] at h
    have hpp := (stepChannel_channelFrame h).pp_of_chan c
    rw [entered_chan] at hpp
    exact absurd hpp hne
  · rw [step_of_actsNext hact] at h
    refine ⟨rest, ?_⟩
    by_cases hreset : a = .reset
    · exact .inr (hreset ▸ hact)
    · by_cases ha : a = .activate c
      · exact .inl (ha ▸ hact)
      · exact absurd (hostAct_pp h ha hreset) hne

/-- Settles O59: whatever the step is, the channel it is not for is outside its frame. -/
theorem channelsShareNoState : Obligations.ChannelsShareNoState := by
  intro s t c h hc
  obtain ⟨latch, hsusp⟩ | ⟨d, rest, hidle, hstep⟩ | ⟨a, rest, hact, _⟩ := step_cases s
  · simp only [hsusp] at hc
    rw [step_of_suspended hsusp] at h
    cases h
    exact (dmaResume_channelFrame latch s).other c hc
  · rw [step_of_stepsNext ⟨hidle, hstep⟩] at h
    have hother := (stepChannel_channelFrame h).other c
    rw [entered_chan] at hother
    obtain hsched | ⟨hsched, rfl, rfl⟩ := hstep
    all_goals
      simp only [hidle, hsched] at hc
      exact hother hc
  · rw [step_of_actsNext hact] at h
    obtain ⟨hidle, hsched⟩ := hact
    simp only [hidle, hsched] at hc
    refine hostAct_chan_of_spares h ?_
    cases a <;> exact hc

/-- Settles O54: a run that goes on, a step of a channel and a host action each keep the
invariant. -/
theorem invariantKeptByEveryStep : Obligations.InvariantKeptByEveryStep := by
  intro s t hs h
  obtain ⟨latch, hsusp⟩ | ⟨c, rest, hstep⟩ | ⟨a, rest, hact, _⟩ := step_cases s
  · rw [step_of_suspended hsusp] at h
    cases h
    exact dmaResume_inv hsusp hs
  · rw [step_of_stepsNext hstep] at h
    exact stepChannel_inv h hstep.1 (hs.congr_of_idle rfl rfl rfl id hstep.1)
  · rw [step_of_actsNext hact] at h
    exact hostAct_inv hact.1 hs h

end Sys2Proof.Certificates

/-! ## Memory accesses and totality

The calls that a read and a write make, a stored value that is read back, and a next state for every
validated step: the lemmas here, then the statements they settle. -/

namespace Sys2Proof.Machine

/-! ### Masked addresses -/

/-- Masking keeps the parity of an address: both spaces have an even size (R41). -/
theorem mask_toNat_mod_two (sp : Space) (a : Addr) : (mask sp a).toNat % 2 = a.toNat % 2 := by
  have heven : 2 ∣ spaceSize sp := by cases sp <;> decide
  rw [mask_toNat, Nat.mod_mod_of_dvd _ heven]

/-- A 2-byte access is one call at an even address of a space with the 16-bit primitive (R43). -/
theorem wideAccess_iff (sp : Space) (a : Addr) (s : State) :
    wideAccess sp a s = true ↔ a.toNat % 2 = 0 ∧ s.bus16 sp = true := by
  have hbit : (mask sp a).getLsbD 0 = decide (a.toNat % 2 = 1) := by
    rw [BitVec.getLsbD, Nat.testBit_zero, mask_toNat_mod_two]
  rw [wideAccess, hbit]
  simp

/-! ### Reads -/

/-- A little-endian concatenation as a number: the low part, then the high part above it (R44). -/
theorem toNat_append_low_first {n k : Nat} (hi : BitVec n) (lo : BitVec k) :
    (hi ++ lo).toNat = lo.toNat + 2 ^ k * hi.toNat := by
  rw [toNat_append_eq, Nat.mul_comm, Nat.add_comm]

theorem halfAt_mask (s : State) (sp : Space) (a : Addr) :
    halfAt s sp (mask sp a) = halfAt s sp a := by
  rw [halfAt, byteAt_mask_succ, State.byteAt_mask, halfAt]

@[simp] theorem memRead8_mask (sp : Space) (a : Addr) (s : State) :
    memRead8 sp (mask sp a) s = memRead8 sp a s := by
  rw [memRead8, mask_mask, memRead8]

@[simp] theorem memRead8_mask_succ (sp : Space) (a : Addr) (s : State) :
    memRead8 sp (mask sp a + 1#20) s = memRead8 sp (a + 1#20) s := by
  rw [memRead8, mask_mask_add, memRead8]

/-- The host's own answer to a byte read is cut to a byte (R53). -/
theorem memRead8_answered {s : State} {x : Half} (h : s.answer = some x) (sp : Space) (a : Addr) :
    (memRead8 sp a s).1 = x.setWidth 8 := by
  simp [memRead8, primRead8, h]

/-- Without an answer of the host's own a byte read gives the plain contents (R53). -/
theorem memRead8_unanswered {s : State} (h : s.answer = none) (sp : Space) (a : Addr) :
    (memRead8 sp a s).1 = s.byteAt sp a := by
  simp [memRead8, primRead8, h]

theorem primRead16_answered {s : State} {x : Half} (h : s.answer = some x) (sp : Space)
    (a : Addr) : (primRead16 sp a s).1 = x := by
  simp [primRead16, h]

theorem primRead16_unanswered {s : State} (h : s.answer = none) (sp : Space) (a : Addr) :
    (primRead16 sp a s).1 = halfAt s sp a := by
  simp [primRead16, h, halfAt]

/-- A wide 2-byte read is one call at the masked address (R43). -/
theorem memRead16_wide {sp : Space} {a : Addr} {s : State}
    (h : a.toNat % 2 = 0 ∧ s.bus16 sp = true) :
    memRead16 sp a s = primRead16 sp (mask sp a) s := by
  rw [memRead16, if_pos ((wideAccess_iff sp a s).2 h)]

/-- Any other 2-byte read is two byte reads, the low byte first (R43). -/
theorem memRead16_split {sp : Space} {a : Addr} {s : State}
    (h : ¬ (a.toNat % 2 = 0 ∧ s.bus16 sp = true)) :
    memRead16 sp a s =
      ((memRead8 sp (a + 1#20) (memRead8 sp a s).2).1 ++ (memRead8 sp a s).1,
        (memRead8 sp (a + 1#20) (memRead8 sp a s).2).2) := by
  rw [memRead16, if_neg fun hwide => h ((wideAccess_iff sp a s).1 hwide)]
  simp only [memRead8_mask, memRead8_mask_succ]

/-! ### Writes -/

theorem memWrite8_events (sp : Space) (a : Addr) (v : Byte) (s : State) :
    (memWrite8 sp a v s).env.events = .write8 sp (mask sp a) v :: s.env.events := rfl

/-- A wide 2-byte write is one call at the masked address (R46). -/
theorem memWrite16_wide {sp : Space} {a : Addr} {s : State}
    (h : a.toNat % 2 = 0 ∧ s.bus16 sp = true) (v : Half) :
    memWrite16 sp a v s = primWrite16 sp (mask sp a) v s := by
  rw [memWrite16, if_pos ((wideAccess_iff sp a s).2 h)]

/-- Any other 2-byte write is two byte writes, the low byte first (R46). -/
theorem memWrite16_split {sp : Space} {a : Addr} {s : State}
    (h : ¬ (a.toNat % 2 = 0 ∧ s.bus16 sp = true)) (v : Half) :
    memWrite16 sp a v s = memWrite8 sp (a + 1#20) (hiByte v) (memWrite8 sp a (loByte v) s) := by
  rw [memWrite16, if_neg fun hwide => h ((wideAccess_iff sp a s).1 hwide)]
  simp only [memWrite8, mask_mask, mask_mask_add, hiByte, loByte]

/-! ### Reading back on a plain host -/

theorem memRead_byte_plain {s : State} (h : PlainHost s) (sp : Space) (a : Addr) :
    (memRead .byte sp a s).1.toNat = (s.byteAt sp a).toNat := by
  have hlt := (s.byteAt sp a).isLt
  have hread : (memRead .byte sp a s).1 = (s.byteAt sp a).setWidth 16 :=
    congrArg (BitVec.setWidth 16) (memRead8_plain h sp a)
  rw [hread, BitVec.toNat_setWidth, Nat.mod_eq_of_lt (by omega)]

/-! ### Every validated step has a next state

The only operation that can refuse is the rejection of a word, and not while the host validates. -/

/-- With validation on a rejected word stops the channel, which is a next state (R124, R263). -/
theorem rejectWord_completes {s : State} (h : s.env.params.validate = true) (obl : Bool)
    (r : Reason) (u : RawUnit) : ∃ t, rejectWord obl r u s = .next t :=
  ⟨_, if_pos h⟩

theorem execMovMMStore_completes (m : MemOp) (w : Width) (s : State) :
    ∃ t, execMovMMStore m w s = .next t := by
  cases ho : s.obligation <;> simp [execMovMMStore, ho]

theorem runStoreHalf_completes {s : State} (h : s.env.params.validate = true) (u : RawUnit) :
    ∃ t, runStoreHalf u s = .next t := by
  unfold runStoreHalf
  split
  · split <;> exact ⟨_, rfl⟩
  · exact rejectWord_completes h _ _ u
  · exact rejectWord_completes h _ _ u

/-- Fetching a unit leaves the host's parameters alone. -/
theorem fetchUnit_params (s : State) : (fetchUnit s).2.env.params = s.env.params :=
  (fetchUnit_fetches s).keeps.params

/-- The parameters outlast the load half and the fetch of the store half. -/
theorem execMovMMLoad_completes {s : State} (h : s.env.params.validate = true) (m : MemOp)
    (w : Width) : ∃ t, execMovMMLoad m w s = .next t := by
  have hread : (operandRead w m s).env.params = s.env.params :=
    (keeps_of_reads (memRead_reads w _ _ _) (Keeps.refl [] [] _)).params
  refine runStoreHalf_completes ?_ _
  rw [fetchUnit_params]
  exact hread ▸ h

/-- Every instruction completes: all but `mov M,M` answer a next state outright. -/
theorem exec_completes {s : State} (h : s.env.params.validate = true) (i : Instr) :
    ∃ t, exec i s = .next t := by
  cases i
  case movMMLoad m w => exact execMovMMLoad_completes h m w
  case movMMStore m w => exact execMovMMStore_completes m w s
  all_goals exact ⟨_, rfl⟩

theorem execOne_completes {s : State} (h : s.env.params.validate = true) :
    ∃ t, execOne s = .next t := by
  have hfetched : (fetchUnit s).2.env.params.validate = true := by rw [fetchUnit_params, h]
  simp only [execOne]
  split
  · split
    · exact rejectWord_completes hfetched _ _ _
    · exact ⟨_, rfl⟩
  · split
    · exact exec_completes hfetched _
    · exact ⟨_, rfl⟩

theorem stepChannel_completes {s : State} (h : s.env.params.validate = true) :
    ∃ t, stepChannel s = .next t := by
  obtain ⟨u, hu⟩ := execOne_completes h
  unfold stepChannel
  split
  · exact ⟨_, by rw [hu]⟩
  · exact ⟨s, rfl⟩

/-- A host action between steps always has a next state (R273). -/
theorem hostAct_completes {a : HostAction} (ha : ∀ c, a ≠ .step c) (s : State) :
    ∃ t, hostAct a s = .next t := by
  cases a
  case step c => exact absurd rfl (ha c)
  all_goals exact ⟨_, rfl⟩

end Sys2Proof.Machine

namespace Sys2Proof.Certificates

open Sys2Proof.Machine

/-- Settles O7: a 1-byte read is one call by definition, a 2-byte read is the wide call or the split
pair, and a 4-byte read is two halves put together. -/
theorem readsMakeTheSpecifiedCalls : Obligations.ReadsMakeTheSpecifiedCalls := by
  intro sp a s
  refine ⟨⟨?_, rfl⟩, ?_, toNat_append_low_first _ _, rfl⟩
  · split
    · next x hx => exact memRead8_answered hx sp a
    · next hnone => exact memRead8_unanswered hnone sp a
  · dsimp only
    split
    · next hwide =>
      rw [memRead16_wide hwide]
      refine ⟨?_, rfl⟩
      split
      · next x hx => exact primRead16_answered hx sp _
      · next hnone => rw [primRead16_unanswered hnone, halfAt_mask]
    · next hsplit =>
      rw [memRead16_split hsplit]
      exact ⟨toNat_append_low_first _ _, rfl⟩

/-- Settles O8: the calls are read off the two forms of a 2-byte write. -/
theorem writesMakeTheSpecifiedCalls : Obligations.WritesMakeTheSpecifiedCalls := by
  refine fun sp a s => ⟨fun v => memWrite8_events sp a v s, fun v => ?_, fun _ => rfl⟩
  split
  · next hwide =>
    rw [memWrite16_wide hwide]
    rfl
  · next hsplit => rw [memWrite16_split hsplit, memWrite8_events, memWrite8_events]

/-- Settles O9: a store leaves its bytes in the contents, and a plain host reads the contents. -/
theorem storedValuesAreReadBack : Obligations.StoredValuesAreReadBack := by
  intro sp a v s hc hp
  have hword : halfAt (memWrite .word sp a v s) sp a = v := halfAt_memWrite16 hc sp a v
  have hbyte : (memWrite .byte sp a v s).byteAt sp a = v.setWidth 8 := byteAt_memWrite8 hc sp a _
  have hplain := fun w => hp.memWrite w sp a v
  obtain ⟨hlo, hhi⟩ := byteAt_toNat_of_halfAt hword
  refine ⟨(memRead16_plain (hplain .word) sp a).trans hword, ?_, ?_, ?_⟩
  · rw [memRead_byte_plain (hplain .word), hlo]
  · rw [memRead_byte_plain (hplain .word), hhi]
  · rw [memRead_byte_plain (hplain .byte), hbyte, BitVec.toNat_setWidth]

/-- Settles O55: a run that goes on and a host action have a next state whatever the parameters are,
a step of a channel has one because validation is on. -/
theorem everyValidatedStepCompletes : Obligations.EveryValidatedStepCompletes := by
  intro s h
  obtain ⟨latch, hsusp⟩ | ⟨c, rest, hstep⟩ | ⟨a, rest, hact, hother⟩ := step_cases s
  · exact ⟨_, step_of_suspended hsusp⟩
  · rw [step_of_stepsNext hstep]
    exact stepChannel_completes h
  · rw [step_of_actsNext hact]
    exact hostAct_completes hother _

end Sys2Proof.Certificates

/-! ## Encodings, logic and fetched units

A unit and its bytes, the legal words descriptor by descriptor, what the validator answers and why,
the unit that a fetch takes from memory, and results bit by bit: the lemmas here, then the statements
they settle. -/

namespace Sys2Proof

/-! ### Units and their bytes -/

/-- Which kind some trailing bytes are. -/
def Trail.kind : Trail → TrailKind
  | .none => .none
  | .byte _ => .byte
  | .word _ => .word
  | .pointer _ _ => .pointer
  | .pair _ _ => .pair

/-- A unit holds the trailing bytes that its word calls for, and no offset byte that its word does
not call for (R73, R74, R123). -/
structure RawUnit.Shaped (u : RawUnit) : Prop where
  off : (Fields.ofWord u.word).aa ≠ 1#2 → u.off = 0#8
  trail : u.trail.kind = (Fields.ofWord u.word).trailKind

theorem Trail.bytes_length (t : Trail) : t.bytes.length = t.kind.size := by
  cases t <;> rfl

/-- A unit has as many bytes as its word tells (R74). -/
theorem RawUnit.Shaped.bytes_length {u : RawUnit} (h : u.Shaped) :
    u.bytes.length = (Fields.ofWord u.word).length := by
  simp only [RawUnit.bytes, Fields.length, List.length_cons, List.length_append,
    Trail.bytes_length, h.trail]
  split <;> simp <;> omega

/-- No unit, legal or not, is longer than seven bytes (R74). -/
theorem Fields.length_le (f : Fields) : f.length ≤ 7 := by
  have hk : f.trailKind.size ≤ 4 := by cases f.trailKind <;> decide
  unfold Fields.length
  split <;> omega

theorem Fields.takeOff_eq_some_iff {f : Fields} {bs rest : List Byte} {off : Byte} :
    f.takeOff bs = some (off, rest) ↔
      (f.aa ≠ 1#2 → off = 0#8) ∧ (if f.aa = 1#2 then [off] else []) ++ rest = bs := by
  by_cases h : f.aa = 1#2
  · cases bs <;> simp [Fields.takeOff, h, eq_comm (a := off), eq_comm (a := rest)]
  · simp [Fields.takeOff, h, eq_comm (a := off), eq_comm (a := rest)]

theorem TrailKind.take_eq_some_iff {k : TrailKind} {bs rest : List Byte} {t : Trail} :
    k.take bs = some (t, rest) ↔ t.kind = k ∧ t.bytes ++ rest = bs := by
  constructor
  · intro h
    unfold TrailKind.take at h
    split at h <;> cases h <;> simp [Trail.kind, Trail.bytes]
  · rintro ⟨rfl, rfl⟩
    cases t <;> simp [TrailKind.take, Trail.kind, Trail.bytes]

/-- Parsing is the converse of putting a unit in memory order (R70, R73). -/
theorem parseUnit_eq_some_iff {bs rest : List Byte} {u : RawUnit} :
    parseUnit bs = some (u, rest) ↔ u.Shaped ∧ u.bytes ++ rest = bs := by
  constructor
  · intro h
    unfold parseUnit at h
    split at h
    next lo hi tail =>
      dsimp only at h
      split at h
      next off afterOff hoff =>
        split at h
        next trail afterTrail htrail =>
          cases h
          obtain ⟨ho, rfl⟩ := Fields.takeOff_eq_some_iff.1 hoff
          obtain ⟨ht, rfl⟩ := TrailKind.take_eq_some_iff.1 htrail
          exact ⟨⟨ho, ht⟩, by simp [RawUnit.bytes]⟩
        next => cases h
      next => cases h
    next => cases h
  · rintro ⟨⟨ho, ht⟩, rfl⟩
    have hoff : (Fields.ofWord u.word).takeOff _ = some (u.off, u.trail.bytes ++ rest) :=
      Fields.takeOff_eq_some_iff.2 ⟨ho, rfl⟩
    have htrail : (Fields.ofWord u.word).trailKind.take _ = some (u.trail, rest) :=
      TrailKind.take_eq_some_iff.2 ⟨ht, rfl⟩
    simp [parseUnit, RawUnit.bytes, hoff, htrail]

/-! ### Legal words -/

/-! The opcodes that share a descriptor (R81). -/

def regImmOpcodes : List (BitVec 6) := [0x08#6, 0x09#6, 0x0A#6, 0x0C#6]
def regOnlyOpcodes : List (BitVec 6) := [0x0B#6, 0x0E#6, 0x0F#6]
def regDispOpcodes : List (BitVec 6) := [0x10#6, 0x11#6]
def memImmOpcodes : List (BitVec 6) := [0x13#6, 0x30#6, 0x31#6, 0x32#6]
def regMemOpcodes : List (BitVec 6) :=
  [0x20#6, 0x21#6, 0x28#6, 0x29#6, 0x2A#6, 0x2B#6, 0x34#6, 0x35#6, 0x36#6]
def ptrMemOpcodes : List (BitVec 6) := [0x22#6, 0x23#6, 0x26#6]
def memOnlyOpcodes : List (BitVec 6) := [0x24#6, 0x33#6, 0x37#6, 0x3A#6, 0x3B#6]
def memDispOpcodes : List (BitVec 6) := [0x2C#6, 0x2D#6]
def bitDispOpcodes : List (BitVec 6) := [0x2E#6, 0x2F#6]
def memDispWOpcodes : List (BitVec 6) := [0x38#6, 0x39#6]
def bitMemOpcodes : List (BitVec 6) := [0x3D#6, 0x3E#6]

theorem descriptor_regImm : ∀ opc ∈ regImmOpcodes, descriptor opc = some .regImm := by decide
theorem descriptor_regOnly : ∀ opc ∈ regOnlyOpcodes, descriptor opc = some .regOnly := by decide
theorem descriptor_regDisp : ∀ opc ∈ regDispOpcodes, descriptor opc = some .regDisp := by decide
theorem descriptor_memImm : ∀ opc ∈ memImmOpcodes, descriptor opc = some .memImm := by decide
theorem descriptor_regMem : ∀ opc ∈ regMemOpcodes, descriptor opc = some .regMem := by decide
theorem descriptor_ptrMem : ∀ opc ∈ ptrMemOpcodes, descriptor opc = some .ptrMem := by decide
theorem descriptor_memOnly : ∀ opc ∈ memOnlyOpcodes, descriptor opc = some .memOnly := by decide
theorem descriptor_memDisp : ∀ opc ∈ memDispOpcodes, descriptor opc = some .memDisp := by decide
theorem descriptor_bitDisp : ∀ opc ∈ bitDispOpcodes, descriptor opc = some .bitDisp := by decide
theorem descriptor_memDispW : ∀ opc ∈ memDispWOpcodes, descriptor opc = some .memDispW := by decide
theorem descriptor_bitMem : ∀ opc ∈ bitMemOpcodes, descriptor opc = some .bitMem := by decide

/-- Five opcodes have a descriptor of their own. -/
theorem assigned_cases : ∀ {opc : BitVec 6}, descriptor opc ≠ none →
    opc = 0x00#6 ∨ opc = 0x02#6 ∨ opc = 0x12#6 ∨ opc = 0x25#6 ∨ opc = 0x27#6 ∨
      opc ∈ regImmOpcodes ∨ opc ∈ regOnlyOpcodes ∨ opc ∈ regDispOpcodes ∨ opc ∈ memImmOpcodes ∨
      opc ∈ regMemOpcodes ∨ opc ∈ ptrMemOpcodes ∨ opc ∈ memOnlyOpcodes ∨ opc ∈ memDispOpcodes ∨
      opc ∈ bitDispOpcodes ∨ opc ∈ memDispWOpcodes ∨ opc ∈ bitMemOpcodes := by decide

/-- The word has a descriptor, and the descriptor finds no fault in it (R84 to R88). -/
def Fields.Legal (f : Fields) : Prop :=
  ∃ d, descriptor f.opc = some d ∧ d.firstViolation f = none

/-- A word passes validation when it is legal and the store obligation fits its opcode (R90). -/
theorem validate_eq_none_iff {obl : Bool} {f : Fields} :
    validate obl f = none ↔ obl = (f.opc == 0x33#6) ∧ f.Legal := by
  unfold validate Fields.Legal
  cases obl <;> by_cases h : f.opc = 0x33#6 <;> cases descriptor f.opc <;> simp [h]

/-- The codes of a width that are neither 0 nor 3 (R87). -/
theorem widthCode_iff {b : BitVec 2} : ¬ (b = 0#2 ∨ b = 3#2) ↔ b = 1#2 ∨ b = 2#2 := by
  revert b; decide

theorem Descriptor.firstViolation_eq_none_iff {d : Descriptor} {f : Fields} :
    d.firstViolation f = none ↔
      (d.aa = false → f.mm = 0#2) ∧ (d.ppp = true → (PReg.ofBits f.rrr).isSome = true) ∧
        (d.wb = true ∨ d.disp = true → f.wb = 1#2 ∨ f.wb = 2#2) ∧
        d.reservedMismatch f = false := by
  rw [← widthCode_iff]
  unfold Descriptor.firstViolation
  split_ifs <;> simp_all [Option.isSome_iff_ne_none]

section
variable {f : Fields}

theorem Fields.legal_iff {d : Descriptor} (h : descriptor f.opc = some d) : f.Legal ↔
    (d.aa = false → f.mm = 0#2) ∧ (d.ppp = true → (PReg.ofBits f.rrr).isSome = true) ∧
      (d.wb = true ∨ d.disp = true → f.wb = 1#2 ∨ f.wb = 2#2) ∧
      d.reservedMismatch f = false := by
  simp [Fields.Legal, h, Descriptor.firstViolation_eq_none_iff]

theorem legal_special_iff (ho : f.opc = 0x00#6) : f.Legal ↔
    f.mm = 0#2 ∧ f.wb = 0#2 ∧ f.aa = 0#2 ∧ f.w = 0#1 ∧ f.rrr ≠ 1#3 := by
  rw [Fields.legal_iff (by rw [ho]; rfl)]
  simp [Descriptor.reservedMismatch, misses, and_assoc]

theorem legal_lpdi_iff (ho : f.opc = 0x02#6) : f.Legal ↔
    f.mm = 0#2 ∧ (PReg.ofBits f.rrr).isSome = true ∧ f.wb = 2#2 ∧ f.aa = 0#2 ∧ f.w = 1#1 := by
  rw [Fields.legal_iff (by rw [ho]; rfl)]
  simp [Descriptor.reservedMismatch, misses, and_assoc]

theorem legal_hlt_iff (ho : f.opc = 0x12#6) : f.Legal ↔
    f.mm = 0#2 ∧ f.rrr = 1#3 ∧ f.wb = 0#2 ∧ f.aa = 0#2 ∧ f.w = 0#1 := by
  rw [Fields.legal_iff (by rw [ho]; rfl)]
  simp [Descriptor.reservedMismatch, misses, and_assoc]

theorem legal_tsl_iff (ho : f.opc = 0x25#6) : f.Legal ↔
    f.rrr = 0#3 ∧ f.wb = 3#2 ∧ f.w = 0#1 := by
  rw [Fields.legal_iff (by rw [ho]; rfl)]
  simp [Descriptor.reservedMismatch, misses, and_assoc]

theorem legal_call_iff (ho : f.opc = 0x27#6) : f.Legal ↔
    (f.wb = 1#2 ∨ f.wb = 2#2) ∧ f.rrr = 4#3 ∧ f.w = 1#1 := by
  rw [Fields.legal_iff (by rw [ho]; rfl)]
  simp [Descriptor.reservedMismatch, misses]

theorem legal_regImm_iff (ho : f.opc ∈ regImmOpcodes) : f.Legal ↔
    f.mm = 0#2 ∧ (f.wb = 1#2 ∨ f.wb = 2#2) ∧ f.aa = 0#2 := by
  simp [Fields.legal_iff (descriptor_regImm _ ho), Descriptor.regImm, Descriptor.reservedMismatch,
    misses]

theorem legal_regOnly_iff (ho : f.opc ∈ regOnlyOpcodes) : f.Legal ↔
    f.mm = 0#2 ∧ f.wb = 0#2 ∧ f.aa = 0#2 ∧ f.w = 0#1 := by
  simp [Fields.legal_iff (descriptor_regOnly _ ho), Descriptor.regOnly,
    Descriptor.reservedMismatch, misses, and_assoc]

theorem legal_regDisp_iff (ho : f.opc ∈ regDispOpcodes) : f.Legal ↔
    f.mm = 0#2 ∧ (f.wb = 1#2 ∨ f.wb = 2#2) ∧ f.aa = 0#2 ∧ f.w = 0#1 := by
  simp [Fields.legal_iff (descriptor_regDisp _ ho), Descriptor.regDisp,
    Descriptor.reservedMismatch, misses]

theorem legal_memImm_iff (ho : f.opc ∈ memImmOpcodes) : f.Legal ↔
    (f.wb = 1#2 ∨ f.wb = 2#2) ∧ f.rrr = 0#3 := by
  simp [Fields.legal_iff (descriptor_memImm _ ho), Descriptor.memImm, Descriptor.reservedMismatch,
    misses]

theorem legal_regMem_iff (ho : f.opc ∈ regMemOpcodes) : f.Legal ↔ f.wb = 0#2 := by
  simp [Fields.legal_iff (descriptor_regMem _ ho), Descriptor.regMem, Descriptor.reservedMismatch,
    misses]

theorem legal_ptrMem_iff (ho : f.opc ∈ ptrMemOpcodes) : f.Legal ↔
    (PReg.ofBits f.rrr).isSome = true ∧ f.wb = 0#2 ∧ f.w = 1#1 := by
  simp [Fields.legal_iff (descriptor_ptrMem _ ho), Descriptor.ptrMem, Descriptor.reservedMismatch,
    misses]

theorem legal_memOnly_iff (ho : f.opc ∈ memOnlyOpcodes) : f.Legal ↔
    f.rrr = 0#3 ∧ f.wb = 0#2 := by
  simp [Fields.legal_iff (descriptor_memOnly _ ho), Descriptor.memOnly,
    Descriptor.reservedMismatch, misses]

theorem legal_memDisp_iff (ho : f.opc ∈ memDispOpcodes) : f.Legal ↔
    (f.wb = 1#2 ∨ f.wb = 2#2) ∧ f.rrr = 0#3 ∧ f.w = 0#1 := by
  simp [Fields.legal_iff (descriptor_memDisp _ ho), Descriptor.memDisp,
    Descriptor.reservedMismatch, misses]

theorem legal_bitDisp_iff (ho : f.opc ∈ bitDispOpcodes) : f.Legal ↔
    (f.wb = 1#2 ∨ f.wb = 2#2) ∧ f.w = 0#1 := by
  simp [Fields.legal_iff (descriptor_bitDisp _ ho), Descriptor.bitDisp,
    Descriptor.reservedMismatch, misses]

theorem legal_memDispW_iff (ho : f.opc ∈ memDispWOpcodes) : f.Legal ↔
    (f.wb = 1#2 ∨ f.wb = 2#2) ∧ f.rrr = 0#3 := by
  simp [Fields.legal_iff (descriptor_memDispW _ ho), Descriptor.memDispW,
    Descriptor.reservedMismatch, misses]

theorem legal_bitMem_iff (ho : f.opc ∈ bitMemOpcodes) : f.Legal ↔ f.wb = 0#2 ∧ f.w = 0#1 := by
  simp [Fields.legal_iff (descriptor_bitMem _ ho), Descriptor.bitMem, Descriptor.reservedMismatch,
    misses]

end

/-! ### The word of every instruction is legal -/

theorem Imm.wb_cases (i : Imm) : i.wb = 1#2 ∨ i.wb = 2#2 := by
  cases i <;> simp [Imm.wb]

theorem isHalf_eq (i : Instr) : Machine.isHalf i = ((encodeFields i).opc == 0x33#6) := by
  cases i <;> rfl

/-- The word of every instruction meets the conditions of its opcode's descriptor (R81, R82). -/
theorem legal_encodeFields (i : Instr) : (encodeFields i).Legal := by
  cases i
  case nop | sintr | xfer => exact (legal_special_iff rfl).2 (by decide)
  case wid s d =>
    refine (legal_special_iff rfl).2 ⟨rfl, rfl, rfl, rfl, ?_⟩
    cases s <;> cases d <;> decide
  case lpdi p _ _ => exact (legal_lpdi_iff rfl).2 (by simp [encodeFields, encReg])
  case hlt => exact (legal_hlt_iff rfl).2 (by decide)
  case tsl => exact (legal_tsl_iff rfl).2 ⟨rfl, rfl, rfl⟩
  case call m d => exact (legal_call_iff rfl).2 ⟨d.wb_cases, rfl, rfl⟩
  case jmp d => exact (legal_regImm_iff (List.mem_of_elem_eq_true rfl)).2 ⟨rfl, .inl rfl, rfl⟩
  case ljmp d => exact (legal_regImm_iff (List.mem_of_elem_eq_true rfl)).2 ⟨rfl, .inr rfl, rfl⟩
  case addiR _ i _ | oriR _ i _ | andiR _ i _ | moviR _ i _ =>
    exact (legal_regImm_iff (List.mem_of_elem_eq_true rfl)).2 ⟨rfl, i.wb_cases, rfl⟩
  case notR | incR | decR =>
    exact (legal_regOnly_iff (List.mem_of_elem_eq_true rfl)).2 ⟨rfl, rfl, rfl, rfl⟩
  case jnzR _ d | jzR _ d =>
    exact (legal_regDisp_iff (List.mem_of_elem_eq_true rfl)).2 ⟨rfl, d.wb_cases, rfl, rfl⟩
  case moviM _ i _ | addiM _ i _ | oriM _ i _ | andiM _ i _ =>
    exact (legal_memImm_iff (List.mem_of_elem_eq_true rfl)).2 ⟨i.wb_cases, rfl⟩
  case movRM | movMR | addRM | orRM | andRM | notRM | addMR | orMR | andMR =>
    exact (legal_regMem_iff (List.mem_of_elem_eq_true rfl)).2 rfl
  case lpd | movpPM | movpMP =>
    exact (legal_ptrMem_iff (List.mem_of_elem_eq_true rfl)).2 (by simp [encodeFields, encMem])
  case movMMLoad | movMMStore | notM | incM | decM =>
    exact (legal_memOnly_iff (List.mem_of_elem_eq_true rfl)).2 ⟨rfl, rfl⟩
  case jmce _ d | jmcne _ d =>
    exact (legal_memDisp_iff (List.mem_of_elem_eq_true rfl)).2 ⟨d.wb_cases, rfl, rfl⟩
  case jnbt _ _ d | jbt _ _ d =>
    exact (legal_bitDisp_iff (List.mem_of_elem_eq_true rfl)).2 ⟨d.wb_cases, rfl⟩
  case jnzM _ d _ | jzM _ d _ =>
    exact (legal_memDispW_iff (List.mem_of_elem_eq_true rfl)).2 ⟨d.wb_cases, rfl⟩
  case setb | clr => exact (legal_bitMem_iff (List.mem_of_elem_eq_true rfl)).2 ⟨rfl, rfl⟩

theorem validate_encodeFields (i : Instr) :
    validate (Machine.isHalf i) (encodeFields i) = none :=
  validate_eq_none_iff.2 ⟨isHalf_eq i, legal_encodeFields i⟩

/-! ### The unit of an instruction is read back -/

theorem encodeUnit_fields (i : Instr) :
    Fields.ofWord (encodeUnit i).word = encodeFields i :=
  Fields.ofWord_toWord _

section
variable (opc : BitVec 6) (m : MemOp) (r : BitVec 3) (wb : BitVec 2) (w : BitVec 1)

@[simp] theorem encReg_opc : (encReg opc r wb w).opc = opc := rfl
@[simp] theorem encReg_rrr : (encReg opc r wb w).rrr = r := rfl
@[simp] theorem encReg_w : (encReg opc r wb w).w = w := rfl
@[simp] theorem encMem_opc : (encMem opc m r wb w).opc = opc := rfl
@[simp] theorem encMem_rrr : (encMem opc m r wb w).rrr = r := rfl
@[simp] theorem encMem_w : (encMem opc m r wb w).w = w := rfl

/-- The addressed location is read back from its codes and its offset byte (R96, R97). -/
theorem RawUnit.memOp_encMem {u : RawUnit} (h : u.off = m.mode.offByte) :
    u.memOp (encMem opc m r wb w) = m := by
  simp [RawUnit.memOp, encMem, h]

end

theorem RawUnit.withImm_trail {u : RawUnit} {i : Imm} (h : u.trail = i.trail) (k : Imm → Instr) :
    u.withImm k = .ok (k i) := by
  cases i <;> simp [RawUnit.withImm, h, Imm.trail]

theorem mkAddiR_of_wf {r : Reg} {i : Imm} {w : Width} (h : (Instr.addiR r i w).wf = true) :
    mkAddiR r i w = .addiR r i w := by
  unfold mkAddiR
  split <;> first | rfl | cases h

/-- What is built from the unit of a well-formed instruction is the instruction (R72, R102). -/
theorem build_encodeUnit {i : Instr} (h : i.wf = true) :
    build (encodeFields i) (encodeUnit i) = .ok i := by
  cases i
  case wid s d => cases s <;> cases d <;> rfl
  case nop | sintr | xfer | hlt | jmp | ljmp => rfl
  case notR | incR | decR => simp [build, encodeFields]
  case lpdi => simp [build, encodeFields, Fields.withPReg, encodeUnit, encodeTrail]
  case addiR r i w =>
    simp [build, encodeFields, encodeUnit, encodeTrail, RawUnit.withImm_trail (i := i),
      mkAddiR_of_wf h]
  case oriR _ i _ | andiR _ i _ | moviR _ i _ | jnzR _ i | jzR _ i =>
    simp [build, encodeFields, encodeUnit, encodeTrail, RawUnit.withImm_trail (i := i)]
  case tsl => simp [build, encodeFields, encodeUnit, encodeTrail, RawUnit.memOp_encMem,
      Instr.memOp?]
  case lpd | movpPM | movpMP =>
    simp [build, encodeFields, encodeUnit, Fields.withPReg, RawUnit.memOp_encMem, Instr.memOp?]
  case movRM | movMR | addRM | orRM | andRM | notRM | addMR | orMR | andMR | movMMLoad |
      movMMStore | notM | incM | decM | setb | clr =>
    simp [build, encodeFields, encodeUnit, RawUnit.memOp_encMem, Instr.memOp?]
  case moviM _ i _ | addiM _ i _ | oriM _ i _ | andiM _ i _ | call _ i | jmce _ i | jmcne _ i |
      jnbt _ _ i | jbt _ _ i | jnzM _ i _ | jzM _ i _ =>
    simp [build, encodeFields, encodeUnit, encodeTrail, RawUnit.withImm_trail (i := i),
      RawUnit.memOp_encMem, Instr.memOp?]

/-- Decoding is the converse of encoding, unit by unit. -/
theorem decodeUnit_encodeUnit {i : Instr} (h : i.wf = true) :
    decodeUnit (Machine.isHalf i) (encodeUnit i) = .ok i := by
  simp only [decodeUnit, encodeUnit_fields, validate_encodeFields, build_encodeUnit h]

theorem encodeTrail_kind (i : Instr) : (encodeTrail i).kind = (encodeFields i).trailKind := by
  cases i
  case addiR _ i _ | oriR _ i _ | andiR _ i _ | moviR _ i _ | jnzR _ i | jzR _ i |
      moviM _ i _ | addiM _ i _ | oriM _ i _ | andiM _ i _ | call _ i | jmce _ i | jmcne _ i |
      jnbt _ _ i | jbt _ _ i | jnzM _ i _ | jzM _ i _ => cases i <;> rfl
  all_goals rfl

theorem encodeFields_aa {i : Instr} {m : MemOp} (h : i.memOp? = some m) :
    (encodeFields i).aa = m.mode.bits := by
  cases i <;> cases h <;> rfl

theorem AddrMode.offByte_of_bits_ne {m : AddrMode} (h : m.bits ≠ 1#2) : m.offByte = 0#8 := by
  cases m
  case offset => exact absurd rfl h
  all_goals rfl

theorem encodeUnit_shaped (i : Instr) : (encodeUnit i).Shaped where
  off h := by
    rw [encodeUnit_fields] at h
    cases hm : i.memOp? with
    | none => simp [encodeUnit, hm]
    | some m =>
      rw [encodeFields_aa hm] at h
      simp [encodeUnit, hm, AddrMode.offByte_of_bits_ne h]
  trail := by rw [encodeUnit_fields]; exact encodeTrail_kind i

/-! ### Every legal unit is the unit of an instruction -/

/-- A unit is what some well-formed instruction encodes to. -/
def RawUnit.Encoded (u : RawUnit) : Prop := ∃ i : Instr, i.wf = true ∧ encodeUnit i = u

/-- A unit without an addressed location. -/
def regUnit (opc : BitVec 6) (r : BitVec 3) (wb : BitVec 2) (w : BitVec 1) (t : Trail) : RawUnit :=
  ⟨(encReg opc r wb w).toWord, 0#8, t⟩

/-- A unit with an addressed location. -/
def memUnit (opc : BitVec 6) (m : MemOp) (r : BitVec 3) (wb : BitVec 2) (w : BitVec 1) (t : Trail) :
    RawUnit :=
  ⟨(encMem opc m r wb w).toWord, m.mode.offByte, t⟩

theorem encReg_eq {f : Fields} (hmm : f.mm = 0#2) (haa : f.aa = 0#2) :
    encReg f.opc f.rrr f.wb f.w = f := by
  cases f
  cases hmm
  cases haa
  rfl

theorem encMem_memOp (u : RawUnit) (f : Fields) :
    encMem f.opc (u.memOp f) f.rrr f.wb f.w = f := by
  simp [encMem, RawUnit.memOp]

section
variable {u : RawUnit} (hu : u.Shaped)
include hu

theorem RawUnit.Shaped.eq_regUnit (hmm : (Fields.ofWord u.word).mm = 0#2)
    (haa : (Fields.ofWord u.word).aa = 0#2) :
    u = regUnit (Fields.ofWord u.word).opc (Fields.ofWord u.word).rrr (Fields.ofWord u.word).wb
      (Fields.ofWord u.word).w u.trail := by
  have hoff : u.off = 0#8 := hu.off (by simp [haa])
  rw [regUnit, encReg_eq hmm haa, Fields.toWord_ofWord, ← hoff]

theorem RawUnit.Shaped.eq_memUnit :
    u = memUnit (Fields.ofWord u.word).opc (u.memOp (Fields.ofWord u.word))
      (Fields.ofWord u.word).rrr (Fields.ofWord u.word).wb (Fields.ofWord u.word).w u.trail := by
  have hoff : (u.memOp (Fields.ofWord u.word)).mode.offByte = u.off := by
    by_cases haa : (Fields.ofWord u.word).aa = 1#2
    · simp [RawUnit.memOp, haa, AddrMode.ofBits, AddrMode.offByte]
    · rw [hu.off haa]
      exact AddrMode.offByte_of_bits_ne (by simpa [RawUnit.memOp] using haa)
  rw [memUnit, encMem_memOp, Fields.toWord_ofWord, hoff]

/-- The trailing bytes that `wb = 0` calls for. -/
theorem RawUnit.Shaped.trail_of_zero (hwb : (Fields.ofWord u.word).wb = 0#2) :
    u.trail = .none := by
  have h := hu.trail
  cases ht : u.trail <;> simp [ht, Trail.kind, Fields.trailKind, hwb] at h ⊢

theorem RawUnit.Shaped.trail_of_three (hwb : (Fields.ofWord u.word).wb = 3#2) :
    ∃ b0 b1, u.trail = .pair b0 b1 := by
  have h := hu.trail
  cases ht : u.trail <;> simp [ht, Trail.kind, Fields.trailKind, hwb] at h ⊢

theorem RawUnit.Shaped.trail_of_lpdi (hwb : (Fields.ofWord u.word).wb = 2#2)
    (ho : (Fields.ofWord u.word).opc = 0x02#6) : ∃ off seg, u.trail = .pointer off seg := by
  have h := hu.trail
  cases ht : u.trail <;> simp [ht, Trail.kind, Fields.trailKind, hwb, ho] at h ⊢

/-- The immediate or displacement that `wb = 1` and `wb = 2` call for, but for `lpdi`. -/
theorem RawUnit.Shaped.exists_imm
    (hwb : (Fields.ofWord u.word).wb = 1#2 ∨ (Fields.ofWord u.word).wb = 2#2)
    (ho : (Fields.ofWord u.word).opc ≠ 0x02#6) :
    ∃ i : Imm, (Fields.ofWord u.word).wb = i.wb ∧ u.trail = i.trail := by
  have h := hu.trail
  rcases hwb with hwb | hwb
  · cases ht : u.trail <;> simp [ht, Trail.kind, Fields.trailKind, hwb] at h
    next b => exact ⟨.byte b, hwb, rfl⟩
  · cases ht : u.trail <;> simp [ht, Trail.kind, Fields.trailKind, hwb, ho] at h
    next v => exact ⟨.word v, hwb, rfl⟩

end

/-! One lemma per descriptor: with the operands its flags allow, the unit is an instruction's. -/

theorem Reg.exists_bits (b : BitVec 3) : ∃ r : Reg, r.bits = b := ⟨_, Reg.bits_ofBits b⟩

theorem Width.exists_bit (b : BitVec 1) : ∃ w : Width, w.bit = b := ⟨_, Width.bit_ofBit b⟩

theorem PReg.exists_bits {b : BitVec 3} (h : (PReg.ofBits b).isSome = true) :
    ∃ p : PReg, p.bits = b := by
  obtain ⟨p, hp⟩ := Option.isSome_iff_exists.1 h
  exact ⟨p, PReg.bits_of_ofBits_eq_some hp⟩

theorem mkAddiR_encoded (r : Reg) (i : Imm) (w : Width) :
    (mkAddiR r i w).wf = true ∧ encodeUnit (mkAddiR r i w) = encodeUnit (.addiR r i w) := by
  unfold mkAddiR
  split
  case h_3 hjmp hljmp =>
    refine ⟨?_, rfl⟩
    unfold Instr.wf
    split <;> simp_all
  all_goals exact ⟨rfl, rfl⟩

/-- The codes of the special group: 1 is reserved, the others have a row each, and those from 4 on
are `wid` (R82). -/
theorem special_cases {r : BitVec 3} (h : r ≠ 1#3) :
    r = 0#3 ∨ r = 2#3 ∨ r = 3#3 ∨ ∃ s d : Width, 1#1 ++ s.bit ++ d.bit = r := by
  have hcodes : ∀ b : BitVec 3, b = 0#3 ∨ b = 1#3 ∨ b = 2#3 ∨ b = 3#3 ∨
      1#1 ++ b.extractLsb' 1 1 ++ b.extractLsb' 0 1 = b := by decide
  obtain hr | hr | hr | hr | hr := hcodes r
  · exact .inl hr
  · exact absurd hr h
  · exact .inr (.inl hr)
  · exact .inr (.inr (.inl hr))
  · refine .inr (.inr (.inr ⟨.ofBit (r.extractLsb' 1 1), .ofBit (r.extractLsb' 0 1), ?_⟩))
    rw [Width.bit_ofBit, Width.bit_ofBit, hr]

section
variable {opc : BitVec 6} (m : MemOp) {r : BitVec 3} (w : BitVec 1) (i : Imm)

theorem encoded_special (hr : r ≠ 1#3) : (regUnit 0x00#6 r 0#2 0#1 .none).Encoded := by
  obtain rfl | rfl | rfl | ⟨s, d, rfl⟩ := special_cases hr
  exacts [⟨.nop, rfl, rfl⟩, ⟨.sintr, rfl, rfl⟩, ⟨.xfer, rfl, rfl⟩, ⟨.wid s d, rfl, rfl⟩]

theorem encoded_lpdi (hr : (PReg.ofBits r).isSome = true) (off seg : Half) :
    (regUnit 0x02#6 r 2#2 1#1 (.pointer off seg)).Encoded := by
  obtain ⟨p, rfl⟩ := PReg.exists_bits hr
  exact ⟨.lpdi p off seg, rfl, rfl⟩

theorem encoded_regImm (ho : opc ∈ regImmOpcodes) : (regUnit opc r i.wb w i.trail).Encoded := by
  obtain ⟨r, rfl⟩ := Reg.exists_bits r
  obtain ⟨w, rfl⟩ := Width.exists_bit w
  simp only [regImmOpcodes, List.mem_cons, List.not_mem_nil, or_false] at ho
  obtain rfl | rfl | rfl | rfl := ho
  exacts [⟨mkAddiR r i w, mkAddiR_encoded r i w⟩, ⟨.oriR r i w, rfl, rfl⟩,
    ⟨.andiR r i w, rfl, rfl⟩, ⟨.moviR r i w, rfl, rfl⟩]

theorem encoded_regOnly (ho : opc ∈ regOnlyOpcodes) : (regUnit opc r 0#2 0#1 .none).Encoded := by
  obtain ⟨r, rfl⟩ := Reg.exists_bits r
  simp only [regOnlyOpcodes, List.mem_cons, List.not_mem_nil, or_false] at ho
  obtain rfl | rfl | rfl := ho
  exacts [⟨.notR r, rfl, rfl⟩, ⟨.incR r, rfl, rfl⟩, ⟨.decR r, rfl, rfl⟩]

theorem encoded_regDisp (ho : opc ∈ regDispOpcodes) :
    (regUnit opc r i.wb 0#1 i.trail).Encoded := by
  obtain ⟨r, rfl⟩ := Reg.exists_bits r
  simp only [regDispOpcodes, List.mem_cons, List.not_mem_nil, or_false] at ho
  obtain rfl | rfl := ho
  exacts [⟨.jnzR r i, rfl, rfl⟩, ⟨.jzR r i, rfl, rfl⟩]

theorem encoded_memImm (ho : opc ∈ memImmOpcodes) :
    (memUnit opc m 0#3 i.wb w i.trail).Encoded := by
  obtain ⟨w, rfl⟩ := Width.exists_bit w
  simp only [memImmOpcodes, List.mem_cons, List.not_mem_nil, or_false] at ho
  obtain rfl | rfl | rfl | rfl := ho
  exacts [⟨.moviM m i w, rfl, rfl⟩, ⟨.addiM m i w, rfl, rfl⟩, ⟨.oriM m i w, rfl, rfl⟩,
    ⟨.andiM m i w, rfl, rfl⟩]

theorem encoded_regMem (ho : opc ∈ regMemOpcodes) : (memUnit opc m r 0#2 w .none).Encoded := by
  obtain ⟨r, rfl⟩ := Reg.exists_bits r
  obtain ⟨w, rfl⟩ := Width.exists_bit w
  simp only [regMemOpcodes, List.mem_cons, List.not_mem_nil, or_false] at ho
  obtain rfl | rfl | rfl | rfl | rfl | rfl | rfl | rfl | rfl := ho
  exacts [⟨.movRM r m w, rfl, rfl⟩, ⟨.movMR m r w, rfl, rfl⟩, ⟨.addRM r m w, rfl, rfl⟩,
    ⟨.orRM r m w, rfl, rfl⟩, ⟨.andRM r m w, rfl, rfl⟩, ⟨.notRM r m w, rfl, rfl⟩,
    ⟨.addMR m r w, rfl, rfl⟩, ⟨.orMR m r w, rfl, rfl⟩, ⟨.andMR m r w, rfl, rfl⟩]

theorem encoded_ptrMem (ho : opc ∈ ptrMemOpcodes) (hr : (PReg.ofBits r).isSome = true) :
    (memUnit opc m r 0#2 1#1 .none).Encoded := by
  obtain ⟨p, rfl⟩ := PReg.exists_bits hr
  simp only [ptrMemOpcodes, List.mem_cons, List.not_mem_nil, or_false] at ho
  obtain rfl | rfl | rfl := ho
  exacts [⟨.lpd p m, rfl, rfl⟩, ⟨.movpPM p m, rfl, rfl⟩, ⟨.movpMP m p, rfl, rfl⟩]

theorem encoded_memOnly (ho : opc ∈ memOnlyOpcodes) :
    (memUnit opc m 0#3 0#2 w .none).Encoded := by
  obtain ⟨w, rfl⟩ := Width.exists_bit w
  simp only [memOnlyOpcodes, List.mem_cons, List.not_mem_nil, or_false] at ho
  obtain rfl | rfl | rfl | rfl | rfl := ho
  exacts [⟨.movMMLoad m w, rfl, rfl⟩, ⟨.movMMStore m w, rfl, rfl⟩, ⟨.notM m w, rfl, rfl⟩,
    ⟨.incM m w, rfl, rfl⟩, ⟨.decM m w, rfl, rfl⟩]

theorem encoded_memDisp (ho : opc ∈ memDispOpcodes) :
    (memUnit opc m 0#3 i.wb 0#1 i.trail).Encoded := by
  simp only [memDispOpcodes, List.mem_cons, List.not_mem_nil, or_false] at ho
  obtain rfl | rfl := ho
  exacts [⟨.jmce m i, rfl, rfl⟩, ⟨.jmcne m i, rfl, rfl⟩]

theorem encoded_bitDisp (ho : opc ∈ bitDispOpcodes) :
    (memUnit opc m r i.wb 0#1 i.trail).Encoded := by
  simp only [bitDispOpcodes, List.mem_cons, List.not_mem_nil, or_false] at ho
  obtain rfl | rfl := ho
  exacts [⟨.jnbt m r i, rfl, rfl⟩, ⟨.jbt m r i, rfl, rfl⟩]

theorem encoded_memDispW (ho : opc ∈ memDispWOpcodes) :
    (memUnit opc m 0#3 i.wb w i.trail).Encoded := by
  obtain ⟨w, rfl⟩ := Width.exists_bit w
  simp only [memDispWOpcodes, List.mem_cons, List.not_mem_nil, or_false] at ho
  obtain rfl | rfl := ho
  exacts [⟨.jnzM m i w, rfl, rfl⟩, ⟨.jzM m i w, rfl, rfl⟩]

theorem encoded_bitMem (ho : opc ∈ bitMemOpcodes) :
    (memUnit opc m r 0#2 0#1 .none).Encoded := by
  simp only [bitMemOpcodes, List.mem_cons, List.not_mem_nil, or_false] at ho
  obtain rfl | rfl := ho
  exacts [⟨.setb m r, rfl, rfl⟩, ⟨.clr m r, rfl, rfl⟩]

end

/-- The words of `lpdi` are in none of the shared lists. -/
theorem ne_lpdi {opc : BitVec 6} {l : List (BitVec 6)} (ho : opc ∈ l) (hl : 0x02#6 ∉ l) :
    opc ≠ 0x02#6 :=
  fun h => hl (h ▸ ho)

/-- A unit that holds what its word calls for, and whose word is legal, is an instruction's: opcode
by opcode, the fields that the descriptor fixes are those of the encoding, and the others are read as
operands (R72, R81, R82). -/
theorem RawUnit.Shaped.encoded {u : RawUnit} (hu : u.Shaped) (hl : (Fields.ofWord u.word).Legal) :
    u.Encoded := by
  have hassigned : descriptor (Fields.ofWord u.word).opc ≠ none := by
    obtain ⟨d, hd, _⟩ := hl
    simp [hd]
  obtain hspecial | hlpdi | hhlt | htsl | hcall | hregImm | hregOnly | hregDisp | hmemImm |
    hregMem | hptrMem | hmemOnly | hmemDisp | hbitDisp | hmemDispW | hbitMem :=
    assigned_cases hassigned
  · obtain ⟨hmm, hwb, haa, hw, hr⟩ := (legal_special_iff hspecial).1 hl
    rw [hu.eq_regUnit hmm haa, hspecial, hwb, hw, hu.trail_of_zero hwb]
    exact encoded_special hr
  · obtain ⟨hmm, hr, hwb, haa, hw⟩ := (legal_lpdi_iff hlpdi).1 hl
    obtain ⟨off, seg, ht⟩ := hu.trail_of_lpdi hwb hlpdi
    rw [hu.eq_regUnit hmm haa, hlpdi, hwb, hw, ht]
    exact encoded_lpdi hr off seg
  · obtain ⟨hmm, hr, hwb, haa, hw⟩ := (legal_hlt_iff hhlt).1 hl
    rw [hu.eq_regUnit hmm haa, hhlt, hr, hwb, hw, hu.trail_of_zero hwb]
    exact ⟨.hlt, rfl, rfl⟩
  · obtain ⟨hr, hwb, hw⟩ := (legal_tsl_iff htsl).1 hl
    obtain ⟨i, d, ht⟩ := hu.trail_of_three hwb
    rw [hu.eq_memUnit, htsl, hr, hwb, hw, ht]
    exact ⟨.tsl _ i d, rfl, rfl⟩
  · obtain ⟨hwb, hr, hw⟩ := (legal_call_iff hcall).1 hl
    obtain ⟨d, hd, ht⟩ := hu.exists_imm hwb (by rw [hcall]; decide)
    rw [hu.eq_memUnit, hcall, hr, hd, hw, ht]
    exact ⟨.call _ d, rfl, rfl⟩
  · obtain ⟨hmm, hwb, haa⟩ := (legal_regImm_iff hregImm).1 hl
    obtain ⟨i, hi, ht⟩ := hu.exists_imm hwb (ne_lpdi hregImm (by decide))
    rw [hu.eq_regUnit hmm haa, hi, ht]
    exact encoded_regImm _ i hregImm
  · obtain ⟨hmm, hwb, haa, hw⟩ := (legal_regOnly_iff hregOnly).1 hl
    rw [hu.eq_regUnit hmm haa, hwb, hw, hu.trail_of_zero hwb]
    exact encoded_regOnly hregOnly
  · obtain ⟨hmm, hwb, haa, hw⟩ := (legal_regDisp_iff hregDisp).1 hl
    obtain ⟨i, hi, ht⟩ := hu.exists_imm hwb (ne_lpdi hregDisp (by decide))
    rw [hu.eq_regUnit hmm haa, hi, hw, ht]
    exact encoded_regDisp i hregDisp
  · obtain ⟨hwb, hr⟩ := (legal_memImm_iff hmemImm).1 hl
    obtain ⟨i, hi, ht⟩ := hu.exists_imm hwb (ne_lpdi hmemImm (by decide))
    rw [hu.eq_memUnit, hr, hi, ht]
    exact encoded_memImm _ _ i hmemImm
  · have hwb := (legal_regMem_iff hregMem).1 hl
    rw [hu.eq_memUnit, hwb, hu.trail_of_zero hwb]
    exact encoded_regMem _ _ hregMem
  · obtain ⟨hr, hwb, hw⟩ := (legal_ptrMem_iff hptrMem).1 hl
    rw [hu.eq_memUnit, hwb, hw, hu.trail_of_zero hwb]
    exact encoded_ptrMem _ hptrMem hr
  · obtain ⟨hr, hwb⟩ := (legal_memOnly_iff hmemOnly).1 hl
    rw [hu.eq_memUnit, hr, hwb, hu.trail_of_zero hwb]
    exact encoded_memOnly _ _ hmemOnly
  · obtain ⟨hwb, hr, hw⟩ := (legal_memDisp_iff hmemDisp).1 hl
    obtain ⟨i, hi, ht⟩ := hu.exists_imm hwb (ne_lpdi hmemDisp (by decide))
    rw [hu.eq_memUnit, hr, hi, hw, ht]
    exact encoded_memDisp _ i hmemDisp
  · obtain ⟨hwb, hw⟩ := (legal_bitDisp_iff hbitDisp).1 hl
    obtain ⟨i, hi, ht⟩ := hu.exists_imm hwb (ne_lpdi hbitDisp (by decide))
    rw [hu.eq_memUnit, hi, hw, ht]
    exact encoded_bitDisp _ i hbitDisp
  · obtain ⟨hwb, hr⟩ := (legal_memDispW_iff hmemDispW).1 hl
    obtain ⟨i, hi, ht⟩ := hu.exists_imm hwb (ne_lpdi hmemDispW (by decide))
    rw [hu.eq_memUnit, hr, hi, ht]
    exact encoded_memDispW _ _ i hmemDispW
  · obtain ⟨hwb, hw⟩ := (legal_bitMem_iff hbitMem).1 hl
    rw [hu.eq_memUnit, hwb, hw, hu.trail_of_zero hwb]
    exact encoded_bitMem _ hbitMem

/-- The units that pass validation are the units of the instructions that the obligation allows. -/
theorem RawUnit.Shaped.exists_encodeUnit {u : RawUnit} {obl : Bool} (hu : u.Shaped)
    (hv : validate obl (Fields.ofWord u.word) = none) :
    ∃ i : Instr, i.wf = true ∧ encodeUnit i = u ∧ Machine.isHalf i = obl := by
  obtain ⟨hobl, hl⟩ := validate_eq_none_iff.1 hv
  obtain ⟨i, hwf, rfl⟩ := hu.encoded hl
  rw [encodeUnit_fields] at hobl
  exact ⟨i, hwf, rfl, (isHalf_eq i).trans hobl.symm⟩

theorem validate_of_decodeUnit {obl : Bool} {u : RawUnit} {i : Instr}
    (h : decodeUnit obl u = .ok i) : validate obl (Fields.ofWord u.word) = none := by
  unfold decodeUnit at h
  dsimp only at h
  split at h
  · cases h
  · assumption

/-- Whatever unit is decoded is the unit of what it decodes to. -/
theorem RawUnit.Shaped.of_decodeUnit {u : RawUnit} {obl : Bool} {i : Instr} (hu : u.Shaped)
    (h : decodeUnit obl u = .ok i) :
    i.wf = true ∧ encodeUnit i = u ∧ Machine.isHalf i = obl := by
  obtain ⟨j, hwf, rfl, rfl⟩ := hu.exists_encodeUnit (validate_of_decodeUnit h)
  obtain rfl : j = i := by simpa [decodeUnit_encodeUnit hwf] using h
  exact ⟨hwf, rfl, rfl⟩

/-! ### The required bits of a word, field by field -/

theorem Fields.ofWord_and (x y : Half) : ofWord (x &&& y) =
    ⟨(ofWord x).opc &&& (ofWord y).opc, (ofWord x).mm &&& (ofWord y).mm,
      (ofWord x).rrr &&& (ofWord y).rrr, (ofWord x).wb &&& (ofWord y).wb,
      (ofWord x).aa &&& (ofWord y).aa, (ofWord x).w &&& (ofWord y).w⟩ := by
  simp only [ofWord, BitVec.extractLsb'_and]

/-- Some fields of a word beside its opcode; the others 0. -/
def Fields.keep (f : Fields) (mm rrr wb aa w : Bool) : Fields :=
  ⟨f.opc, if mm then f.mm else 0#2, if rrr then f.rrr else 0#3, if wb then f.wb else 0#2,
    if aa then f.aa else 0#2, if w then f.w else 0#1⟩

/-- The mask of a row of the opcode table, from the fields that the row fixes. -/
def rowMask (mm rrr wb aa w : Bool) : Half :=
  (Fields.keep ⟨0x3F#6, 3#2, 7#3, 3#2, 3#2, 1#1⟩ mm rrr wb aa w).toWord

theorem Fields.toWord_and_rowMask (f : Fields) (mm rrr wb aa w : Bool) :
    f.toWord &&& rowMask mm rrr wb aa w = (f.keep mm rrr wb aa w).toWord := by
  have hopc : f.opc &&& 0x3F#6 = f.opc := BitVec.and_allOnes
  have hmm : f.mm &&& 3#2 = f.mm := BitVec.and_allOnes
  have hrrr : f.rrr &&& 7#3 = f.rrr := BitVec.and_allOnes
  have hwb : f.wb &&& 3#2 = f.wb := BitVec.and_allOnes
  have haa : f.aa &&& 3#2 = f.aa := BitVec.and_allOnes
  have hw : f.w &&& 1#1 = f.w := BitVec.and_allOnes
  rw [← toWord_ofWord (f.toWord &&& _), ofWord_and, ofWord_toWord, rowMask, ofWord_toWord]
  congr 1
  simp only [keep, hopc]
  congr 1
  · cases mm <;> simp [hmm]
  · cases rrr <;> simp [hrrr]
  · cases wb <;> simp [hwb]
  · cases aa <;> simp [haa]
  · cases w <;> simp [hw]

/-- A word has the required bits of a row when the fields that the row fixes are the row's. -/
theorem Fields.toWord_and_eq {f : Fields} {mask row : Half} (mm rrr wb aa w : Bool)
    (hmask : rowMask mm rrr wb aa w = mask := by decide)
    (hrow : f.keep mm rrr wb aa w = ofWord row := by
      simp [Fields.keep, encReg, encMem, Fields.ofWord]) :
    f.toWord &&& mask = row := by
  rw [← hmask, toWord_and_rowMask, hrow, toWord_ofWord]

/-- The word of every instruction has the required bits of its row: the arguments say which fields
beside the opcode each row fixes (R81, R82, R102). -/
theorem encodeFields_matches (i : Instr) :
    (encodeFields i).toWord &&& (Machine.tableRow i).1 = (Machine.tableRow i).2 := by
  cases i <;> simp only [encodeFields, Machine.tableRow]
  case nop | sintr | xfer | hlt | jmp | ljmp => decide
  case wid s d => cases s <;> cases d <;> decide
  case addiR | oriR | andiR | moviR => exact Fields.toWord_and_eq true false false true false
  case jnzR | jzR => exact Fields.toWord_and_eq true false false true true
  case lpdi | notR | incR | decR => exact Fields.toWord_and_eq true false true true true
  case movRM | movMR | addRM | orRM | andRM | notRM | addMR | orMR | andMR =>
    exact Fields.toWord_and_eq false false true false false
  case lpd | movpPM | movpMP | setb | clr => exact Fields.toWord_and_eq false false true false true
  case movMMLoad | movMMStore | notM | incM | decM =>
    exact Fields.toWord_and_eq false true true false false
  case tsl => exact Fields.toWord_and_eq false true true false true
  case call | jmce | jmcne => exact Fields.toWord_and_eq false true false false true
  case jnbt | jbt => exact Fields.toWord_and_eq false false false false true
  case moviM | addiM | oriM | andiM | jnzM | jzM =>
    exact Fields.toWord_and_eq false true false false false

/-! ### Rejected words, reason by reason -/

section
variable {d : Descriptor} {f : Fields}

/-- V2, V3 and V4, each where no earlier check fails (R85, R86, R87, R89). -/
theorem Descriptor.firstViolation_selector_iff :
    d.firstViolation f = some .selectorWithoutMode ↔ d.aa = false ∧ f.mm ≠ 0#2 := by
  unfold Descriptor.firstViolation
  split_ifs <;> simp_all

theorem Descriptor.firstViolation_register_iff :
    d.firstViolation f = some .illegalRegister ↔
      (d.aa = false → f.mm = 0#2) ∧ d.ppp = true ∧ PReg.ofBits f.rrr = none := by
  unfold Descriptor.firstViolation
  split_ifs <;> simp_all

theorem Descriptor.firstViolation_width_iff :
    d.firstViolation f = some .illegalWidth ↔
      (d.aa = false → f.mm = 0#2) ∧ (d.ppp = true → PReg.ofBits f.rrr ≠ none) ∧
        (d.wb = true ∨ d.disp = true) ∧ (f.wb = 0#2 ∨ f.wb = 3#2) := by
  unfold Descriptor.firstViolation
  split_ifs <;> simp_all

/-- A descriptor gives the reasons of V2 to V5 only. -/
theorem Descriptor.firstViolation_ne :
    d.firstViolation f ≠ some .unknownOpcode ∧ d.firstViolation f ≠ some .storeHalfAtTop ∧
      d.firstViolation f ≠ some .storeHalfMissing := by
  unfold Descriptor.firstViolation
  split_ifs <;> decide

end

theorem PReg.ofBits_eq_none_iff : ∀ {b : BitVec 3},
    PReg.ofBits b = none ↔ b ∈ [3#3, 5#3, 6#3, 7#3] := by decide

theorem descriptor_eq_none_iff : ∀ {opc : BitVec 6}, descriptor opc = none ↔
    opc ∈ [0x01#6, 0x03#6, 0x04#6, 0x05#6, 0x06#6, 0x07#6, 0x0D#6, 0x14#6, 0x15#6, 0x16#6,
      0x17#6, 0x18#6, 0x19#6, 0x1A#6, 0x1B#6, 0x1C#6, 0x1D#6, 0x1E#6, 0x1F#6, 0x3C#6, 0x3F#6] := by
  decide

theorem descriptor_withoutMode_iff : ∀ {opc : BitVec 6},
    (∃ d, descriptor opc = some d ∧ d.aa = false) ↔
      opc ∈ [0x00#6, 0x02#6, 0x08#6, 0x09#6, 0x0A#6, 0x0B#6, 0x0C#6, 0x0E#6, 0x0F#6, 0x10#6,
        0x11#6, 0x12#6] := by decide

theorem descriptor_register_iff : ∀ {opc : BitVec 6} {mm : BitVec 2},
    (∃ d, descriptor opc = some d ∧ (d.aa = false → mm = 0#2) ∧ d.ppp = true) ↔
      opc ∈ [0x22#6, 0x23#6, 0x26#6] ∨ opc = 0x02#6 ∧ mm = 0#2 := by decide

theorem descriptor_width_iff : ∀ {opc : BitVec 6} {mm : BitVec 2},
    (∃ d, descriptor opc = some d ∧ (d.aa = false → mm = 0#2) ∧ (d.wb = true ∨ d.disp = true)) ↔
      opc ∈ [0x13#6, 0x27#6, 0x2C#6, 0x2D#6, 0x2E#6, 0x2F#6, 0x30#6, 0x31#6, 0x32#6, 0x38#6,
          0x39#6] ∨
        opc ∈ [0x08#6, 0x09#6, 0x0A#6, 0x0C#6, 0x10#6, 0x11#6] ∧ mm = 0#2 := by decide

/-- V3 takes no part in V4: no opcode has the flag `PPP` and one of `WB` and `DISP`. -/
theorem descriptor_ppp_of_width : ∀ {opc : BitVec 6} {d : Descriptor}, descriptor opc = some d →
    d.wb = true ∨ d.disp = true → d.ppp = false := by decide

section
variable {obl : Bool} {f : Fields}

theorem validate_storeHalfMissing_iff :
    validate obl f = some .storeHalfMissing ↔ obl = true ∧ f.opc ≠ 0x33#6 := by
  unfold validate
  cases obl <;> by_cases h : f.opc = 0x33#6 <;> cases descriptor f.opc <;>
    simp [h, Descriptor.firstViolation_ne]

theorem validate_storeHalfAtTop_iff :
    validate obl f = some .storeHalfAtTop ↔ obl = false ∧ f.opc = 0x33#6 := by
  unfold validate
  cases obl <;> by_cases h : f.opc = 0x33#6 <;> cases descriptor f.opc <;>
    simp [h, Descriptor.firstViolation_ne]

/-- The opcode of the store half is assigned, so reason 1 is given at top level only. -/
theorem validate_unknownOpcode_iff :
    validate obl f = some .unknownOpcode ↔ obl = false ∧ descriptor f.opc = none := by
  have hhalf : descriptor 0x33#6 = some .memOnly := rfl
  unfold validate
  cases obl <;> by_cases h : f.opc = 0x33#6 <;> cases hd : descriptor f.opc <;>
    simp_all [Descriptor.firstViolation_ne]

/-- V2 to V5 are asked where the store obligation fits the opcode (R89): a reason that they give under
a condition `p`, which no store half meets, is given at top level only. -/
theorem validate_violation_iff {r : Reason} {p : Prop} (h1 : r ≠ .unknownOpcode)
    (h6 : r ≠ .storeHalfAtTop) (h7 : r ≠ .storeHalfMissing) (hhalf : p → f.opc ≠ 0x33#6)
    (hp : (∃ d, descriptor f.opc = some d ∧ d.firstViolation f = some r) ↔ p) :
    validate obl f = some r ↔ obl = false ∧ p := by
  have hfits : validate obl f = some r ↔ obl = (f.opc == 0x33#6) ∧ p := by
    rw [← hp]
    unfold validate
    cases obl <;> by_cases h : f.opc = 0x33#6 <;> cases descriptor f.opc <;>
      simp [h, h1.symm, h6.symm, h7.symm]
  rw [hfits]
  refine and_congr_left fun h => ?_
  rw [beq_eq_false_iff_ne.2 (hhalf h)]

theorem validate_selector_iff : validate obl f = some .selectorWithoutMode ↔
    obl = false ∧ f.mm ≠ 0#2 ∧
      f.opc ∈ [0x00#6, 0x02#6, 0x08#6, 0x09#6, 0x0A#6, 0x0B#6, 0x0C#6, 0x0E#6, 0x0F#6, 0x10#6,
        0x11#6, 0x12#6] := by
  refine validate_violation_iff (by decide) (by decide) (by decide) ?_ ?_
  · rintro ⟨-, h⟩ e
    simp [e] at h
  · rw [← descriptor_withoutMode_iff]
    simp only [Descriptor.firstViolation_selector_iff]
    constructor
    · rintro ⟨d, hd, haa, hmm⟩
      exact ⟨hmm, d, hd, haa⟩
    · rintro ⟨hmm, d, hd, haa⟩
      exact ⟨d, hd, haa, hmm⟩

theorem validate_register_iff : validate obl f = some .illegalRegister ↔
    obl = false ∧ (f.opc ∈ [0x22#6, 0x23#6, 0x26#6] ∨ f.opc = 0x02#6 ∧ f.mm = 0#2) ∧
      f.rrr ∈ [3#3, 5#3, 6#3, 7#3] := by
  refine validate_violation_iff (by decide) (by decide) (by decide) ?_ ?_
  · rintro ⟨h, -⟩ e
    simp [e] at h
  · rw [← descriptor_register_iff, ← PReg.ofBits_eq_none_iff]
    simp only [Descriptor.firstViolation_register_iff]
    constructor
    · rintro ⟨d, hd, hmm, hppp, hr⟩
      exact ⟨⟨d, hd, hmm, hppp⟩, hr⟩
    · rintro ⟨⟨d, hd, hmm, hppp⟩, hr⟩
      exact ⟨d, hd, hmm, hppp, hr⟩

theorem validate_width_iff : validate obl f = some .illegalWidth ↔
    obl = false ∧
      (f.opc ∈ [0x13#6, 0x27#6, 0x2C#6, 0x2D#6, 0x2E#6, 0x2F#6, 0x30#6, 0x31#6, 0x32#6, 0x38#6,
          0x39#6] ∨
        f.opc ∈ [0x08#6, 0x09#6, 0x0A#6, 0x0C#6, 0x10#6, 0x11#6] ∧ f.mm = 0#2) ∧
      (f.wb = 0#2 ∨ f.wb = 3#2) := by
  refine validate_violation_iff (by decide) (by decide) (by decide) ?_ ?_
  · rintro ⟨h, -⟩ e
    simp [e] at h
  · rw [← descriptor_width_iff]
    simp only [Descriptor.firstViolation_width_iff]
    constructor
    · rintro ⟨d, hd, hmm, -, hwidth, hwb⟩
      exact ⟨⟨d, hd, hmm, hwidth⟩, hwb⟩
    · rintro ⟨⟨d, hd, hmm, hwidth⟩, hwb⟩
      have hppp := descriptor_ppp_of_width hd hwidth
      exact ⟨d, hd, hmm, by simp [hppp], hwidth, hwb⟩

end

end Sys2Proof

namespace Sys2Proof.Machine

/-! ### The bytes that a fetch takes -/

theorem bytesAt_append (s : State) (sp : Space) (n m : Nat) : ∀ a : Addr,
    bytesAt s sp a (n + m) = bytesAt s sp a n ++ bytesAt s sp (a + BitVec.ofNat 20 n) m := by
  induction n with
  | zero => simp [bytesAt]
  | succ n ih =>
    intro a
    rw [Nat.succ_add, bytesAt_succ, bytesAt_succ, ih, List.cons_append, BitVec.add_assoc,
      Nat.add_comm n 1, BitVec.ofNat_add]

/-- On a host that plays RAM, `bs` are the bytes that stand at `tp`. -/
def StandAtTp (bs : List Byte) (s : State) : Prop :=
  PlainHost s → bytesAt s .mem (s.reg .tp) bs.length = bs

theorem StandAtTp.nil (s : State) : StandAtTp [] s := fun _ => rfl

/-- What is fetched after a fetch stands behind what was fetched first. -/
theorem StandAtTp.append {bs cs : List Byte} {s t : State} (h : StandAtTp bs s)
    (k : StandAtTp cs t) (hf : Fetches bs.length s t) : StandAtTp (bs ++ cs) s := by
  intro hp
  have hc := k (hf.plain hp)
  rw [bytesAt_congr hf.sameBytes, hf.tp] at hc
  rw [List.length_append, bytesAt_append, h hp, hc]

theorem fetch8_stands (s : State) : StandAtTp [(fetch8 s).1] s := by
  intro hp
  simp [bytesAt, fetch8_plain hp]

theorem fetch16_stands (s : State) : StandAtTp [loByte (fetch16 s).1, hiByte (fetch16 s).1] s := by
  intro hp
  rw [fetch16_plain hp, halfAt, loByte_append, hiByte_append]
  simp [bytesAt, List.range_succ]

theorem fetchOff_stands (f : Fields) (s : State) :
    StandAtTp (if f.aa = 1#2 then [(fetchOff f s).1] else []) s := by
  unfold fetchOff
  split
  · exact fetch8_stands s
  · exact StandAtTp.nil s

theorem fetchTrail_kind (k : TrailKind) (s : State) : (fetchTrail k s).1.kind = k := by
  cases k <;> rfl

theorem fetchTrail_stands (k : TrailKind) (s : State) : StandAtTp (fetchTrail k s).1.bytes s := by
  cases k with
  | none => exact StandAtTp.nil s
  | byte => exact fetch8_stands s
  | word => exact fetch16_stands s
  | pointer => exact (fetch16_stands s).append (fetch16_stands _) (fetch16_fetches s)
  | pair => exact (fetch8_stands s).append (fetch8_stands _) (fetch8_fetches s)

theorem fetchUnit_shaped (s : State) : (fetchUnit s).1.Shaped where
  off h := congrArg Prod.fst (if_neg h : fetchOff _ _ = (0#8, _))
  trail := fetchTrail_kind _ _

theorem fetchUnit_stands (s : State) : StandAtTp (fetchUnit s).1.bytes s := by
  have hoff := fetchOff_fetches (Fields.ofWord (fetch16 s).1) (fetch16 s).2
  have hlen : (if (Fields.ofWord (fetch16 s).1).aa = 1#2 then
      [(fetchOff (Fields.ofWord (fetch16 s).1) (fetch16 s).2).1] else []).length =
      if (Fields.ofWord (fetch16 s).1).aa = 1#2 then 1 else 0 := by split <;> rfl
  exact (fetch16_stands s).append
    ((fetchOff_stands _ _).append (fetchTrail_stands _ _) (hlen ▸ hoff)) (fetch16_fetches s)

/-- On a host that plays RAM the unit fetched is the one that stands at `tp` (R121, R122). -/
theorem parseUnit_at_tp {s : State} (hp : PlainHost s) :
    ∃ rest, parseUnit (bytesAt s .mem (s.reg .tp) 7) = some ((fetchUnit s).1, rest) := by
  have hshaped := fetchUnit_shaped s
  have hle := Fields.length_le (Fields.ofWord (fetchUnit s).1.word)
  rw [← hshaped.bytes_length] at hle
  obtain ⟨k, hk⟩ := Nat.exists_eq_add_of_le hle
  have hsplit := bytesAt_append s .mem (fetchUnit s).1.bytes.length k (s.reg .tp)
  rw [← hk, fetchUnit_stands s hp] at hsplit
  exact ⟨_, parseUnit_eq_some_iff.2 ⟨hshaped, hsplit.symm⟩⟩

/-! ### The load half of `mov M,M` -/

theorem keeps_withObligation {rs ts : List RegName} {s t : State} (h : Keeps rs ts s t)
    (o : Option Half) : Keeps rs ts { s with obligation := o } { t with obligation := o } where
  cur := h.cur
  obligation := rfl
  dma := h.dma
  other c hc := by simpa using h.other c hc
  regs := h.regs
  tags := h.tags
  wsrc := h.wsrc
  wdst := h.wdst
  xp := h.xp
  status := h.status
  params := h.params
  schedule := h.schedule
  ext0 := h.ext0
  ext1 := h.ext1

/-- The state in which the load half fetches the second unit: the operand is read, and the value read
is owed (R154). -/
def loadedHalf (m : MemOp) (w : Width) (s : State) : State :=
  { operandRead w m s with obligation := some (operandOf w m s) }

theorem loadedHalf_keeps (m : MemOp) (w : Width) (s : State) :
    Keeps (bumped m) [] { s with obligation := (loadedHalf m w s).obligation }
      (loadedHalf m w s) :=
  keeps_withObligation (keeps_of_reads (memRead_reads w _ _ _) (Keeps.refl [] [] _)) _

theorem loadedHalf_sameBytes (m : MemOp) (w : Width) (s : State) :
    SameBytes s (loadedHalf m w s) :=
  ((sameBytes_of_env (eaState_env m w s)).trans (memRead_reads w _ _ _).sameBytes).trans
    fun _ _ => State.obligation_byteAt _ _ _ _

theorem loadedHalf_tp (m : MemOp) (w : Width) (s : State) :
    (loadedHalf m w s).reg .tp = s.reg .tp :=
  operandRead_reg (w := w) (m := m) (by decide)

theorem loadedHalf_plain {m : MemOp} {w : Width} {s : State} (h : PlainHost s) :
    PlainHost (loadedHalf m w s) :=
  (memRead_reads w _ _ _).plain (plain_eaState h)

theorem exec_movMMLoad (m : MemOp) (w : Width) (s : State) :
    exec (.movMMLoad m w) s =
      runStoreHalf (fetchUnit (loadedHalf m w s)).1 (fetchUnit (loadedHalf m w s)).2 := rfl

theorem runStoreHalf_of_rejected {u : RawUnit} {r : Reason} (h : decodeUnit true u = .error r)
    (s : State) : runStoreHalf u s = rejectWord true r u s := by
  unfold runStoreHalf
  rw [h]

/-! ### Bits of results -/

/-- An operation on one register, bit by bit, and what it leaves unchanged (R170). -/
theorem updateReg_bits {g : Addr → Addr} {r : RegName} {s : State} {f : Nat → Bool}
    (h : ∀ k, k < 20 → (g (s.reg r)).getLsbD k = f k) :
    HoldsBits r f (updateReg g r s) ∧ Keeps [r] [] s (updateReg g r s) ∧
      (updateReg g r s).env = s.env ∧ SameBytes s (updateReg g r s) := by
  obtain ⟨hkeeps, henv⟩ := updateReg_frame g r s
  exact ⟨holdsBits_of_reg (updateReg_reg g r s) h, hkeeps, henv, sameBytes_of_env henv⟩

/-- An operation on a memory operand in place, bit by bit, and what it leaves unchanged (R170(d)). -/
theorem updateMem_bits {g : Half → Half} {m : MemOp} {w : Width} {s : State} {f : Nat → Bool}
    (h : ∀ k, k < 16 → (g (operandOf w m s)).getLsbD k = f k) :
    StoresOnly [] (widthBytes w) m w s (updateMem g m w s) ∧
      (Canonical s → StoredBits w (eaSpace m s) (eaAddr m s) f (updateMem g m w s)) := by
  have hwidth : 8 * widthBytes w ≤ 16 := by cases w <;> decide
  exact ⟨updateMem_frame g m w s, fun hc => storedBits_of (operandRead_canonical hc)
    (updateMem_eq g m w s) fun k hk => h k (by omega)⟩

theorem memWrite8_eq_memWrite (sp : Space) (a : Addr) (b : Byte) (s : State) :
    memWrite8 sp a b s = memWrite .byte sp a (b.setWidth 16) s := by
  simp [memWrite]

/-- An operation on the addressed byte in place, bit by bit, and what it leaves unchanged (R200). -/
theorem updateByte_bits {g : Byte → Byte} {m : MemOp} {s : State} {f : Nat → Bool}
    (h : ∀ k, k < 8 → (g (operandByte m s)).getLsbD k = f k) :
    StoresOnly [] 1 m .byte s (updateByte g m s) ∧
      (Canonical s → StoredBits .byte (eaSpace m s) (eaAddr m s) f (updateByte g m s)) := by
  refine ⟨updateByte_frame g m s, fun hc => storedBits_of (operandRead_canonical hc)
    ((updateByte_eq g m s).trans (memWrite8_eq_memWrite _ _ _ _)) fun k hk => ?_⟩
  have hk8 : k < 8 := hk
  have hk16 : k < 16 := by omega
  simp only [BitVec.getLsbD_setWidth, hk16, decide_true, Bool.true_and, h k hk8]

/-- The mask of a bit has that bit alone (R200). -/
theorem getLsbD_bitMask : ∀ (b : BitVec 3) (k : Nat), k < 8 →
    (bitMask b).getLsbD k = (k == b.toNat) := by decide

end Sys2Proof.Machine

namespace Sys2Proof.Certificates

open Sys2Proof.Machine

/-- Settles O1: the bytes of a unit are parsed into the unit, and the unit of an instruction is
decoded to the instruction. -/
theorem encodedInstructionsDecode : Obligations.EncodedInstructionsDecode := by
  intro i rest hwf
  have hparse : parseUnit (encode i ++ rest) = some (encodeUnit i, rest) :=
    parseUnit_eq_some_iff.2 ⟨encodeUnit_shaped i, rfl⟩
  simp only [decode, hparse, decodeUnit_encodeUnit hwf]

/-- Settles O2: a unit that is decoded is the unit of an instruction, whose own decoding answers that
instruction. -/
theorem decodedBytesAreTheEncoding : Obligations.DecodedBytesAreTheEncoding := by
  intro obl bs rest i h
  unfold decode at h
  split at h
  next => cases h
  next u tail hparse =>
    obtain ⟨hu, hbytes⟩ := parseUnit_eq_some_iff.1 hparse
    split at h
    next j hdec =>
      cases h
      obtain ⟨hwf, rfl, hobl⟩ := hu.of_decodeUnit hdec
      exact ⟨hbytes, hwf, hobl⟩
    next => cases h

/-- Settles O5: a unit that passes validation is the unit of an instruction. -/
theorem decoderFollowsTheValidator : Obligations.DecoderFollowsTheValidator := by
  intro obl bs
  split
  next hparse => simp only [decode, hparse]
  next u rest hparse =>
    split
    next r hv => simp only [decode, hparse, decodeUnit, hv]
    next hv =>
      obtain ⟨i, hwf, rfl, rfl⟩ := (parseUnit_eq_some_iff.1 hparse).1.exists_encodeUnit hv
      exact ⟨i, by simp only [decode, hparse, decodeUnit_encodeUnit hwf]⟩

/-- Settles O3: the table's rows, the fields read back, and the legal words. -/
theorem encodedWordsMatchTheTable : Obligations.EncodedWordsMatchTheTable :=
  fun i => ⟨encodeFields_matches i, Fields.ofWord_toWord _, validate_encodeFields i⟩

/-- Settles O4: the checks in their order, and the opcodes whose descriptors have the flags. -/
theorem rejectionReasonsInOrder : Obligations.RejectionReasonsInOrder := by
  intro obl f
  refine ⟨validate_storeHalfMissing_iff, validate_storeHalfAtTop_iff, ?_, validate_selector_iff,
    validate_register_iff, validate_width_iff⟩
  rw [validate_unknownOpcode_iff, descriptor_eq_none_iff]

/-- Settles O36: the fetch is reads of memory space that add up to the unit's length. -/
theorem fetchReadsOneUnit : Obligations.FetchReadsOneUnit := by
  intro s f len
  have hf : Fetches len s f.2 := fetchUnit_fetches s
  refine ⟨hf.keeps, hf.tp, hf.sameBytes, ?_, fun hp => ⟨hf.plain hp, parseUnit_at_tp hp⟩⟩
  obtain ⟨ans, es, hst, hreads, hbytes, -⟩ := hf
  exact ⟨es, by rw [hst]; rfl, hreads, hbytes⟩

/-- Settles O28: the load half reads its operand and fetches the unit that stands at `tp`, and the
rejection of that unit is a stop. -/
theorem missingStoreHalfStops : Obligations.MissingStoreHalfStops := by
  intro m w unit rest r s hp hval hparse hdec
  have hread : ReadsOnly (eaState m w s) (operandRead w m s) := memRead_reads w _ _ _
  have hkeeps := loadedHalf_keeps m w s
  have hfetch := fetchUnit_fetches (loadedHalf m w s)
  have hunit : (fetchUnit (loadedHalf m w s)).1 = unit := by
    obtain ⟨rest', hfetched⟩ := parseUnit_at_tp (loadedHalf_plain hp (m := m) (w := w))
    rw [bytesAt_congr (loadedHalf_sameBytes m w s), loadedHalf_tp, hparse] at hfetched
    cases hfetched
    rfl
  rw [hunit] at hfetch
  have hparams : (fetchUnit (loadedHalf m w s)).2.env.params.validate = true := by
    rw [hfetch.keeps.params, hkeeps.params]
    exact hval
  refine ⟨(fetchUnit (loadedHalf m w s)).2, _, ?_, ?_, ?_, ?_, ?_, raise_stops _ _⟩
  · rw [exec_movMMLoad, hunit, runStoreHalf_of_rejected hdec, rejectWord, if_pos hparams]
  · rw [hfetch.keeps.obligation]
    exact hkeeps.trans hfetch.keeps (by simp [or_comm]) (by simp)
  · rw [hfetch.keeps.regs .ix (by simp)]
    exact hread.reg .ix
  · rw [hfetch.tp, loadedHalf_tp]
  · exact (loadedHalf_sameBytes m w s).trans hfetch.sameBytes

/-- Settles O15: each rewrites one register, and the immediate is sign-extended to its width. -/
theorem registerLogic : Obligations.RegisterLogic := by
  intro r i w s
  refine ⟨⟨_, rfl, updateReg_bits fun k hk => ?_⟩, ⟨_, rfl, updateReg_bits fun k hk => ?_⟩,
    ⟨_, rfl, updateReg_bits fun k hk => ?_⟩⟩
  · rw [BitVec.getLsbD_or, getLsbD_immValue i k hk]
  · rw [BitVec.getLsbD_and, getLsbD_immValue i k hk]
  · rw [BitVec.getLsbD_not, decide_eq_true hk, Bool.true_and]

/-- Settles O24: each rewrites the operand in place. -/
theorem memoryLogic : Obligations.MemoryLogic := by
  intro m i w s x
  refine ⟨⟨_, rfl, updateMem_bits fun k hk => ?_⟩, ⟨_, rfl, updateMem_bits fun k hk => ?_⟩,
    ⟨_, rfl, updateMem_bits fun k hk => ?_⟩⟩
  · rw [BitVec.getLsbD_or, getLsbD_immHalf i k hk]
  · rw [BitVec.getLsbD_and, getLsbD_immHalf i k hk]
  · rw [BitVec.getLsbD_not, decide_eq_true hk, Bool.true_and]

/-- Settles O26: each rewrites the byte in place, with the mask of one bit. -/
theorem bitManipulation : Obligations.BitManipulation := by
  intro m b s x
  refine ⟨⟨_, rfl, updateByte_bits fun k hk => ?_⟩, ⟨_, rfl, updateByte_bits fun k hk => ?_⟩⟩
  · rw [BitVec.getLsbD_or, getLsbD_bitMask b k hk]
  · rw [BitVec.getLsbD_and, BitVec.getLsbD_not, getLsbD_bitMask b k hk, decide_eq_true hk,
      Bool.true_and, bne]

/-- Settles O29: the obligation holds the value that is stored, and without one there is nothing to
store. -/
theorem storeHalf : Obligations.StoreHalf := by
  intro m w s
  constructor
  · intro v hv
    refine ⟨storeCarried m w v s, by simp only [exec, execMovMMStore, hv],
      storeCarried_frame m w v s, fun hc => ?_⟩
    have haddr : Canonical (eaState m w { s with obligation := none }) := canonical_eaState hc
    exact storedInt_of haddr rfl rfl
  · intro hnone
    exact ⟨_, by simp only [exec, execMovMMStore, hnone], raise_stops _ s⟩

/-- Settles O34: both are the jump on a byte, with one bit as its test. -/
theorem bitTestJumps : Obligations.BitTestJumps := by
  intro m b d s tp bit
  refine ⟨⟨_, rfl, jumpOnByte_tp _ m d s, jumpOnByte_frame _ m d s⟩,
    ⟨_, rfl, ?_, jumpOnByte_frame _ m d s⟩⟩
  simpa only [bitOf, Bool.not_eq_true', ← Bool.not_eq_true, ite_not] using
    jumpOnByte_tp (fun x _ => !bitOf x b) m d s

end Sys2Proof.Certificates

/-! ## Operands, and the instruction a step runs

Effective addresses, registers and memory operands, `mov M,M`, what a step does with the unit it
fetches, and what a DMA run leaves alone: the lemmas here, then the statements they settle. -/

namespace Sys2Proof.Machine

/-! ### Effective addresses -/

/-- A masked sum is the sum modulo the size of the space (R129 to R133). -/
theorem mask_add_toNat (sp : Space) (a b : Addr) :
    (mask sp (a + b)).toNat = (a.toNat + b.toNat) % spaceSize sp := by
  have hs : spaceSize sp ∣ 2 ^ 20 := by cases sp <;> decide
  rw [mask_toNat, BitVec.toNat_add, Nat.mod_mod_of_dvd _ hs]

theorem State.reg_ix_toNat (s : State) : (s.reg .ix).toNat = s.me.ix.toNat :=
  BitVec.toNat_setWidth_of_le (by decide)

/-! ### Signed values modulo their width -/

theorem toNat_emod_toInt16 (v : Half) : (v.toNat : Int) % 2 ^ 16 = v.toInt % 2 ^ 16 := by
  have := v.isLt
  rw [BitVec.toInt_eq_toNat_cond]
  split <;> omega

theorem lowHalf_toNat (v : Addr) : (lowHalf v).toNat = v.toNat % 2 ^ 16 :=
  BitVec.toNat_setWidth 16 v

theorem getLsbD_lowHalf (v : Addr) {k : Nat} (h : k < 16) :
    (lowHalf v).getLsbD k = v.getLsbD k := by
  simp [lowHalf, h]

/-- One more and one less, modulo 2^16. -/
theorem inc_emod16 (x : Half) : ((x + 1#16).toNat : Int) % 2 ^ 16 = (x.toNat + 1) % 2 ^ 16 :=
  add_emod16 x 1#16

theorem dec_emod16 (x : Half) : ((x - 1#16).toNat : Int) % 2 ^ 16 = (x.toNat - 1) % 2 ^ 16 := by
  rw [BitVec.sub_eq_add_neg]
  exact add_emod16 x (-1#16)

/-- The sum with the low bits of a register, modulo 2^16 (R135(c)). -/
theorem add_lowHalf_emod16 (x : Half) (y : Addr) :
    ((x + lowHalf y).toNat : Int) % 2 ^ 16 = (x.toNat + y.toNat) % 2 ^ 16 := by
  rw [BitVec.toNat_add, lowHalf_toNat]
  omega

/-! ### Stores at an operand -/

/-- Reading an operand is reads alone, once its address is computed (R134). -/
theorem operandRead_reads (w : Width) (m : MemOp) (s : State) :
    ReadsOnly (eaState m w s) (operandRead w m s) :=
  memRead_reads w _ _ _

section
variable {m : MemOp} {w : Width} {s u : State} {v : Half}

/-- A store at an operand, after its address is computed and perhaps the operand read, touches the
operand's bytes only. -/
theorem store_storesOnly (hu : ReadsOnly (eaState m w s) u) (v : Half) :
    StoresOnly [] (widthBytes w) m w s (memWrite w (eaSpace m s) (eaAddr m s) v u) :=
  storesOnly_of_store hu (keeps_memWrite w _ _ _ _) (sameBytesBut_memWrite w _ _ _ _)

/-- The same store, of a value that is congruent to an integer result (R135(d)). -/
theorem store_storedInt (hu : ReadsOnly (eaState m w s) u) {n : Int}
    (hv : (v.toNat : Int) % 2 ^ 16 = n % 2 ^ 16) :
    StoresOnly [] (widthBytes w) m w s (memWrite w (eaSpace m s) (eaAddr m s) v u) ∧
      (Canonical s → StoredInt w (eaSpace m s) (eaAddr m s) n
        (memWrite w (eaSpace m s) (eaAddr m s) v u)) :=
  ⟨store_storesOnly hu v, fun hc => storedInt_of (canonical_of_reads hu hc) rfl hv⟩

/-- The same store, of a value given bit by bit. -/
theorem store_storedBits (hu : ReadsOnly (eaState m w s) u) {f : Nat → Bool}
    (hv : ∀ k, k < 16 → v.getLsbD k = f k) :
    StoresOnly [] (widthBytes w) m w s (memWrite w (eaSpace m s) (eaAddr m s) v u) ∧
      (Canonical s → StoredBits w (eaSpace m s) (eaAddr m s) f
        (memWrite w (eaSpace m s) (eaAddr m s) v u)) := by
  have hwidth : 8 * widthBytes w ≤ 16 := by cases w <;> decide
  exact ⟨store_storesOnly hu v, fun hc => storedBits_of (canonical_of_reads hu hc) rfl
    fun k hk => hv k (by omega)⟩

end

/-! ### The unit that stands at `tp` -/

/-- What stands at the head of some bytes of memory. -/
theorem bytesAt_of_append {s : State} {sp : Space} {a : Addr} {n : Nat} {bs cs : List Byte}
    (h : bs ++ cs = bytesAt s sp a n) : bytesAt s sp a bs.length = bs := by
  have hn : n = bs.length + cs.length := by
    have hlen := congrArg List.length h
    simpa [bytesAt] using hlen.symm
  rw [hn, bytesAt_append] at h
  exact (List.append_inj_left h (by simp [bytesAt])).symm

/-- On a host that plays RAM a unit whose bytes stand at `tp` is the one fetched (R121). -/
theorem fetchUnit_of_bytesAt {s : State} (hp : PlainHost s) {u : RawUnit} (hu : u.Shaped)
    (h : bytesAt s .mem (s.reg .tp) u.bytes.length = u.bytes) : (fetchUnit s).1 = u := by
  have hle := Fields.length_le (Fields.ofWord u.word)
  rw [← hu.bytes_length] at hle
  obtain ⟨k, hk⟩ := Nat.exists_eq_add_of_le hle
  have hstands : parseUnit (bytesAt s .mem (s.reg .tp) 7) = some (u, _) :=
    parseUnit_eq_some_iff.2 ⟨hu, by rw [hk, bytesAt_append, h]⟩
  obtain ⟨rest, hparse⟩ := parseUnit_at_tp hp
  rw [hparse] at hstands
  cases hstands
  rfl

/-! ### Both halves of `mov M,M` -/

theorem halfAt_congr {s t : State} (h : SameBytes s t) (sp : Space) (a : Addr) :
    halfAt t sp a = halfAt s sp a := by
  rw [halfAt, h, h, halfAt]

/-- On a host that plays RAM the operand read is what stands at its address. -/
theorem operandOf_plain {s : State} (h : PlainHost s) (w : Width) (m : MemOp) :
    operandOf w m s = storedAt w (eaSpace m s) (eaAddr m s) s := by
  have hp : PlainHost (eaState m w s) := plain_eaState h
  have hb : SameBytes s (eaState m w s) := sameBytes_of_env (eaState_env m w s)
  cases w with
  | byte => exact congrArg (BitVec.setWidth 16) ((memRead8_plain hp _ _).trans (hb _ _))
  | word => exact (memRead16_plain hp _ _).trans (halfAt_congr hb _ _)

/-- Computing an address does not touch the store obligation. -/
theorem eaState_withObligation (m : MemOp) (w : Width) (s : State) (o : Option Half) :
    { eaState m w s with obligation := o } = eaState m w { s with obligation := o } := by
  obtain ⟨b, mode⟩ := m
  cases mode <;> rfl

/-- Computing an address does not depend on what the host has answered and seen. -/
theorem eaState_bus (m : MemOp) (w : Width) (s : State) (ans : List (Option Half))
    (es : List Event) : eaState m w (s.bus ans es) = (eaState m w s).bus ans es := by
  obtain ⟨b, mode⟩ := m
  cases mode
  case indexInc => exact (State.setReg_bus s .ix _ ans es).symm
  all_goals rfl

/-- What a store at an operand leaves unchanged, told from before some accesses to the host. -/
theorem StoresOnly.of_bus {rs : List RegName} {n : Nat} {m : MemOp} {w : Width} {s t : State}
    {ans : List (Option Half)} {es : List Event} (h : StoresOnly rs n m w (s.bus ans es) t) :
    StoresOnly rs n m w s t := by
  obtain ⟨hkeeps, hix, hbytes⟩ := h
  rw [eaState_bus] at hix
  exact ⟨(keeps_bus s ans es).trans hkeeps (by simp) (by simp), hix,
    hbytes.after fun _ _ => State.bus_byteAt _ _ _ _ _⟩

/-- Once the second unit is fetched and the obligation met, the load half has made its
post-increment, and `tp` has moved past both units (R154, R299). -/
theorem loadedHalf_fetched {m : MemOp} {w : Width} {s t : State} {k : Nat}
    (h : Fetches k (loadedHalf m w s) t) : ∃ ans es, { t with obligation := none } =
      ((eaState m w { s with obligation := none }).setReg .tp
        (s.reg .tp + BitVec.ofNat 20 k)).bus ans es := by
  obtain ⟨ans, es, rfl, -⟩ := h
  obtain ⟨ans', es', hread, -⟩ := operandRead_reads w m s
  have hea : eaState m w { s with obligation := none } =
      { eaState m w s with obligation := none } := (eaState_withObligation m w s none).symm
  refine ⟨ans, es ++ (es' ++ (eaState m w s).env.events), ?_⟩
  rw [loadedHalf_tp, loadedHalf, hread, hea]
  rfl

theorem runStoreHalf_of_decoded {u : RawUnit} {m : MemOp} {w : Width} {v : Half} {s : State}
    (h : decodeUnit true u = .ok (.movMMStore m w)) (hv : s.obligation = some v) :
    runStoreHalf u s = .next (storeCarried m w v s) := by
  simp only [runStoreHalf, h, hv]

/-! ### What a step does with the unit it fetches -/

theorem execOne_of_decoded {s : State} {i : Instr}
    (h : decodeUnit s.obligation.isSome (fetchUnit s).1 = .ok i) : execOne s =
      if s.env.params.execute then exec i (fetchUnit s).2 else .next (fetchUnit s).2 := by
  simp only [execOne, h]

theorem execOne_of_rejected {s : State} {r : Reason}
    (h : decodeUnit s.obligation.isSome (fetchUnit s).1 = .error r) : execOne s =
      if s.env.params.validate || s.env.params.execute then
        rejectWord s.obligation.isSome r (fetchUnit s).1 (fetchUnit s).2
      else .next (fetchUnit s).2 := by
  simp only [execOne, h]

/-- With validation and execution both off a word is only fetched (R125). -/
theorem execOne_both_off {s : State} (hval : s.env.params.validate = false)
    (hexec : s.env.params.execute = false) : execOne s = .next (fetchUnit s).2 := by
  cases h : decodeUnit s.obligation.isSome (fetchUnit s).1 with
  | error r => simp [execOne_of_rejected h, hval, hexec]
  | ok i => simp [execOne_of_decoded h, hexec]

section
variable {c : ChanId} {rest : List HostAction} {s t : State}

/-- A step of a running channel whose instruction has a next state goes on to the run that `xp` had
armed before it (R120). -/
theorem step_of_execOne_next (hstep : StepsNext c rest s) (hrun : (s.chan c).status = .running)
    (h : execOne (entered c rest s) = .next t) :
    step s = .next (afterInstr ((s.chan c).xp && s.env.params.execute) t) := by
  simp only [step_of_stepsNext hstep, stepChannel, entered_me, hrun, if_true, h, entered_params]

theorem step_of_execOne_refused {r : Refusal} (hstep : StepsNext c rest s)
    (hrun : (s.chan c).status = .running) (h : execOne (entered c rest s) = .refused r) :
    step s = .refused r := by
  simp only [step_of_stepsNext hstep, stepChannel, entered_me, hrun, if_true, h]

/-- No run follows a stop (R120, R262). -/
theorem afterInstr_raise (armed : Bool) (x : Stop) (s : State) :
    afterInstr armed (raise x s) = raise x s := by
  have hstatus : (raise x s).me.status ≠ .running := by
    rw [(raise_stops x s).1]
    cases x <;> simp [Stop.status]
  simp [afterInstr, hstatus]

/-- A step whose instruction stops the channel is that stop. -/
theorem step_of_execOne_raise {x : Stop} (hstep : StepsNext c rest s)
    (hrun : (s.chan c).status = .running) (h : execOne (entered c rest s) = .next (raise x t)) :
    step s = .next (raise x t) := by
  rw [step_of_execOne_next hstep hrun h, afterInstr_raise]

/-- With execution off no run follows (R125). -/
theorem step_of_execOne_unexecuted (hstep : StepsNext c rest s)
    (hrun : (s.chan c).status = .running) (hexec : s.env.params.execute = false)
    (h : execOne (entered c rest s) = .next t) : step s = .next t := by
  rw [step_of_execOne_next hstep hrun h, hexec, Bool.and_false]
  rfl

end

/-! ### Rejected words -/

/-- The words whose opcode has no execution rule (R137). -/
theorem noHandler_iff (o : Option Half) (f : Fields) : noHandler o.isSome f = true ↔
    descriptor f.opc = none ∨ f.opc = 0x25#6 ∨ f.opc = 0x33#6 ∧ o = none := by
  simp [noHandler, and_comm, or_assoc]

section
variable {obl : Bool} {r : Reason} {u : RawUnit} {s : State}

theorem rejectWord_validated (h : s.env.params.validate = true) :
    rejectWord obl r u s = .next (raise (.failed (.invalidEncoding r)) s) :=
  if_pos h

theorem rejectWord_noHandler (h : s.env.params.validate = false)
    (hn : noHandler obl (Fields.ofWord u.word) = true) :
    rejectWord obl r u s = .next (raise (.failed .unknownOpcode) s) := by
  simp [rejectWord, h, hn]

theorem rejectWord_refused (h : s.env.params.validate = false)
    (hn : noHandler obl (Fields.ofWord u.word) ≠ true) :
    rejectWord obl r u s = .refused (.unvalidatedWord r) := by
  simp [rejectWord, h, hn]

end

/-! ### What a run leaves alone -/

/-- What a run is made of: checks, counted units and an end or a cut. A relation that each of them
meets and that composes holds over the run (R235). -/
theorem dmaLoop_induct {R : State → State → Prop} (trans : ∀ s t u, R s t → R t u → R s u)
    (cut : ∀ latch s, R s { s with dma := .suspended latch })
    (check : ∀ latch s, R s (dmaCheck latch s).2) (unit : ∀ s, R s (countUnit s).st)
    (finish : ∀ sk s, R s (terminate sk s)) (n : Nat) :
    ∀ latch s, R s (dmaLoop n latch s) := by
  induction n with
  | zero => exact cut
  | succ n ih =>
    intro latch s
    cases hts : ccTs s.me.cc with
    | true =>
      rw [dmaLoop_single _ _ hts]
      exact trans _ _ _ (unit s) (finish _ _)
    | false =>
      cases hc : (dmaCheck latch s).1 with
      | some sk =>
        rw [dmaLoop_stop _ hts hc]
        exact trans _ _ _ (check latch s) (finish _ _)
      | none =>
        rw [dmaLoop_go _ hts hc]
        exact trans _ _ _ (check latch s) (trans _ _ _ (unit _) (ih _ _))

/-- The registers that a run may write (R231, R250). -/
def runRegs : List RegName := [.ga, .gb, .bc, .tp]

/-- Of the executing channel the tags, the width mode and every register that no run writes are as
before. -/
structure KeepsControl (s t : State) : Prop where
  regs : ∀ r, r ∉ runRegs → t.reg r = s.reg r
  tags : t.me.tags = s.me.tags
  wsrc : t.me.wsrc = s.me.wsrc
  wdst : t.me.wdst = s.me.wdst

theorem KeepsControl.trans {s t u : State} (h : KeepsControl s t) (k : KeepsControl t u) :
    KeepsControl s u :=
  ⟨fun r hr => (k.regs r hr).trans (h.regs r hr), k.tags.trans h.tags, k.wsrc.trans h.wsrc,
    k.wdst.trans h.wdst⟩

theorem KeepsControl.of_me {s t : State} (h : t.me = s.me) : KeepsControl s t :=
  ⟨fun r _ => by rw [State.reg, h, State.reg], by rw [h], by rw [h], by rw [h]⟩

theorem KeepsControl.of_keeps {rs : List RegName} {s t : State} (h : Keeps rs [] s t)
    (hrs : rs ⊆ runRegs) : KeepsControl s t :=
  ⟨fun r hr => h.regs r fun hm => hr (hrs hm), h.allTags, h.wsrc, h.wdst⟩

theorem terminate_keepsControl (sk : Addr) (s : State) : KeepsControl s (terminate sk s) := by
  have hended : KeepsControl s (ended s) :=
    ⟨fun r _ => State.reg_setXp _ r false, by simp [ended], by simp [ended], by simp [ended]⟩
  exact hended.trans (KeepsControl.of_keeps (terminate_frame sk s) (by decide))

theorem raise_keepsControl (x : Stop) (s : State) : KeepsControl s (raise x s) := by
  obtain ⟨hme, -⟩ := raise_stops x s
  exact ⟨fun r _ => by rw [State.reg, hme, Channel.read_with_status, State.reg], by rw [hme],
    by rw [hme], by rw [hme]⟩

theorem dmaLoop_keepsControl (n : Nat) (latch : Option Bool) (s : State) :
    KeepsControl s (dmaLoop n latch s) :=
  dmaLoop_induct (fun _ _ _ h k => h.trans k) (fun _ _ => KeepsControl.of_me rfl)
    (fun latch s => KeepsControl.of_me (dmaCheck_me latch s))
    (fun s => KeepsControl.of_keeps (countUnit_frame s) (by decide)) terminate_keepsControl
    n latch s

theorem dmaRun_keepsControl (s : State) : KeepsControl s (dmaRun s) := by
  unfold dmaRun
  split
  · exact raise_keepsControl _ s
  · exact dmaLoop_keepsControl _ _ s

end Sys2Proof.Machine

namespace Sys2Proof.Certificates

open Sys2Proof.Machine

/-- Settles O11: the sums are taken modulo the size of the space, and mode 3 writes `ix`. -/
theorem effectiveAddresses : Obligations.EffectiveAddresses := by
  intro b off w s base size
  have hindex : (mask (s.tag (baseName b)) (s.reg (baseName b) + s.reg .ix)).toNat =
      (base + s.me.ix.toNat) % size := by
    rw [mask_add_toNat, State.reg_ix_toNat]
  have hoffset : (mask (s.tag (baseName b)) (s.reg (baseName b) + off.setWidth 20)).toNat =
      (base + off.toNat) % size := by
    rw [mask_add_toNat, BitVec.toNat_setWidth_of_le (by decide)]
  have hbump : ((s.reg .ix + widthSize w).toNat : Int) % 2 ^ 20 =
      (s.me.ix.toNat + widthBytes w) % 2 ^ 20 := by
    have hsize : (widthSize w).toInt = widthBytes w := by cases w <;> rfl
    rw [add_emod, State.reg_ix_toNat, hsize]
  exact ⟨fun _ => rfl, mask_toNat _ _, hoffset, hindex, hindex, rfl, rfl, rfl,
    holdsInt_of_reg (State.reg_setReg_same _ _ _) hbump, keeps_setReg s .ix _, rfl⟩

/-- Settles O17: the operand is read, then one register and its tag are loaded. -/
theorem loadRegister : Obligations.LoadRegister := by
  intro r m w s
  refine ⟨loadReg (rrrName r) (sextW w (operandOf w m s)) (eaSpace m s) (operandRead w m s), rfl,
    holdsInt_of_reg (loadReg_reg _ _ _ _) ?_, loadReg_tag _ _ _ _,
    loadReg_loadsOnly (operandRead_reads w m s) _ _⟩
  rw [toNat_emod_toInt, sextW_toInt]

/-- Settles O20: each writes one register, from its value after the post-increment and the
sign-extended operand. -/
theorem registerWithMemoryOperand : Obligations.RegisterWithMemoryOperand := by
  intro r m w s old x
  refine ⟨⟨_, rfl, holdsInt_of_reg (updateRegMem_reg _ _ m w s) ?_,
      (updateRegMem_frame _ _ m w s).2⟩,
    ⟨_, rfl, holdsBits_of_reg (updateRegMem_reg _ _ m w s) fun k hk => ?_,
      (updateRegMem_frame _ _ m w s).2⟩,
    ⟨_, rfl, holdsBits_of_reg (updateRegMem_reg _ _ m w s) fun k hk => ?_,
      (updateRegMem_frame _ _ m w s).2⟩,
    ⟨_, rfl, holdsBits_of_reg (updateRegMem_reg _ _ m w s) fun k hk => ?_,
      (updateRegMem_frame _ _ m w s).2⟩⟩
  · rw [add_emod, sextW_toInt]
  · rw [BitVec.getLsbD_or, getLsbD_sextW w x k hk]
  · rw [BitVec.getLsbD_and, getLsbD_sextW w x k hk]
  · rw [BitVec.getLsbD_not, getLsbD_sextW w x k hk, decide_eq_true hk, Bool.true_and]

/-- Settles O21: each is one store at the operand. -/
theorem plainStores : Obligations.PlainStores := by
  intro m r i w s
  have haddr : ReadsOnly (eaState m w s) (eaState m w s) := ReadsOnly.refl _
  refine ⟨⟨_, rfl, store_storedInt haddr (v := lowHalf ((eaState m w s).reg (rrrName r))) ?_⟩,
    ⟨_, rfl, store_storedInt haddr ?_⟩⟩
  · rw [lowHalf_toNat, Int.natCast_mod]
    exact Int.emod_emod_of_dvd _ (dvd_refl _)
  · rw [toNat_emod_toInt16, immHalf_toInt]

/-- Settles O23: each reads the operand and stores the result in its place. -/
theorem memoryArithmetic : Obligations.MemoryArithmetic := by
  intro m i w s x
  have hread := operandRead_reads w m s
  refine ⟨⟨_, rfl, store_storedInt hread (v := operandOf w m s + immHalf i) ?_⟩,
    ⟨_, rfl, store_storedInt hread (inc_emod16 _)⟩,
    ⟨_, rfl, store_storedInt hread (dec_emod16 _)⟩⟩
  rw [add_emod16, immHalf_toInt]

/-- Settles O25: each reads the operand and stores the result in its place, with the low bits of the
register. -/
theorem memoryWithRegister : Obligations.MemoryWithRegister := by
  intro m r w s x y
  have hread := operandRead_reads w m s
  refine ⟨⟨_, rfl, store_storedInt hread (add_lowHalf_emod16 x y)⟩,
    ⟨_, rfl, store_storedBits hread (v := x ||| lowHalf y) fun k hk => ?_⟩,
    ⟨_, rfl, store_storedBits hread (v := x &&& lowHalf y) fun k hk => ?_⟩⟩
  · rw [BitVec.getLsbD_or, getLsbD_lowHalf _ hk]
  · rw [BitVec.getLsbD_and, getLsbD_lowHalf _ hk]

/-- Settles O27: the unit fetched after the load half is the store half that stands there, and it
stores the value read, which on a host that plays RAM is the value that stands at the source. -/
theorem memoryToMemoryMove : Obligations.MemoryToMemoryMove := by
  intro m n w x s hc hp hstands u
  have hunit : (fetchUnit (loadedHalf m w s)).1 = encodeUnit (.movMMStore n x) := by
    refine fetchUnit_of_bytesAt (loadedHalf_plain hp) (encodeUnit_shaped _) ?_
    rw [bytesAt_congr (loadedHalf_sameBytes m w s), loadedHalf_tp]
    exact hstands
  have hfetch := fetchUnit_fetches (loadedHalf m w s)
  have hobl : (fetchUnit (loadedHalf m w s)).2.obligation = some (operandOf w m s) :=
    hfetch.keeps.obligation
  have hcan : Canonical (fetchUnit (loadedHalf m w s)).2 :=
    hfetch.canonical (operandRead_canonical hc)
  rw [hunit, ← (encodeUnit_shaped _).bytes_length] at hfetch
  obtain ⟨ans, es, hmet⟩ := loadedHalf_fetched hfetch
  refine ⟨storeCarried n x (operandOf w m s) (fetchUnit (loadedHalf m w s)).2, ?_, ?_, ?_⟩
  · rw [exec_movMMLoad, hunit]
    exact runStoreHalf_of_decoded (decodeUnit_encodeUnit (i := .movMMStore n x) rfl) hobl
  · have hstore := storeCarried_frame n x (operandOf w m s) (fetchUnit (loadedHalf m w s)).2
    rw [hmet] at hstore
    exact hstore.of_bus
  · have hcan' : Canonical (eaState n x (u.bus ans es)) := canonical_eaState (hmet ▸ hcan)
    rw [← operandOf_plain hp, storeCarried, hmet]
    exact storedInt_of hcan' rfl rfl

/-- Settles O38: the step is the fetch and then what `rejectWord` makes of the word, unless both
switches are off. -/
theorem rejectedWords : Obligations.RejectedWords := by
  intro c rest s hstep hrun f opc
  have hparams : f.2.env.params = s.env.params := fetchUnit_params _
  refine ⟨fun r hdec => ⟨fun hval => ?_, fun hval hexec => ?_⟩, fun i hdec hexec => ?_,
    fun hval hexec => ?_⟩
  · refine ⟨_, step_of_execOne_raise hstep hrun ?_, raise_stops _ f.2⟩
    rw [execOne_of_rejected hdec, entered_params, hval, Bool.true_or, if_pos rfl]
    exact rejectWord_validated (hparams ▸ hval)
  · have hval' : f.2.env.params.validate = false := hparams ▸ hval
    have hreject : execOne (entered c rest s) = rejectWord s.obligation.isSome r f.1 f.2 := by
      rw [execOne_of_rejected hdec, entered_params, hexec, Bool.or_true, if_pos rfl]
      rfl
    have hnone := noHandler_iff s.obligation (Fields.ofWord f.1.word)
    constructor
    · intro hop
      exact ⟨_, step_of_execOne_raise hstep hrun
        (hreject.trans (rejectWord_noHandler hval' (hnone.2 hop))), raise_stops _ f.2⟩
    · rintro ⟨hassigned, htsl, hhalf⟩
      refine step_of_execOne_refused hstep hrun (hreject.trans (rejectWord_refused hval' ?_))
      rw [Ne, hnone]
      rintro (h | h | ⟨h, ho⟩)
      · exact hassigned h
      · exact htsl h
      · exact hhalf h ho
  · refine step_of_execOne_unexecuted hstep hrun hexec ?_
    rw [execOne_of_decoded hdec, entered_params, hexec, if_neg Bool.false_ne_true]
  · exact step_of_execOne_unexecuted hstep hrun hexec (execOne_both_off hval hexec)

/-- Settles O49: a run writes nothing but `runRegs` of what is named here, and its channel alone. -/
theorem runLeavesTheControlState : Obligations.RunLeavesTheControlState := by
  intro s t
  obtain ⟨hregs, htags, hsrc, hdst⟩ := dmaRun_keepsControl s
  have hframe := dmaRun_channelFrame s
  exact ⟨hregs, htags, hsrc, hdst, hframe.cur, hframe.other⟩

/-- Settles O37: the unit fetched is the one the bytes at `tp` begin with, and it is decoded to the
same instruction. -/
theorem stepRunsTheDecodedInstruction : Obligations.StepRunsTheDecodedInstruction := by
  intro c rest i more s hstep hrun hp hexec hdec s1 u
  have htp : s1.reg .tp = (s.chan c).tp := by rw [State.reg, entered_me]; rfl
  obtain ⟨hbytes, hwf, hhalf⟩ := decodedBytesAreTheEncoding _ _ _ _ hdec
  have hunit : (fetchUnit s1).1 = encodeUnit i := by
    refine fetchUnit_of_bytesAt (s := s1) hp (encodeUnit_shaped i) ?_
    rw [bytesAt_congr (entered_sameBytes c rest s), htp]
    exact bytesAt_of_append hbytes
  have hfetch := fetchUnit_fetches s1
  rw [hunit, ← (encodeUnit_shaped i).bytes_length] at hfetch
  have hone : execOne s1 = exec i u := by
    have hdecoded : decodeUnit s1.obligation.isSome (fetchUnit s1).1 = .ok i := by
      rw [hunit, entered_obligation, ← hhalf, decodeUnit_encodeUnit hwf]
    rw [execOne_of_decoded hdecoded, entered_params, if_pos hexec]
  refine ⟨hfetch.keeps, (entered_sameBytes c rest s).trans hfetch.sameBytes, hfetch.plain hp,
    htp ▸ hfetch.tp, ?_⟩
  cases h : exec i u with
  | next t =>
    rw [step_of_execOne_next hstep hrun (hone.trans h)]
    simp [afterInstr, hexec]
  | fault r => cases r
  | refused r => exact step_of_execOne_refused hstep hrun (hone.trans h)

end Sys2Proof.Certificates

/-! ## The special group

What `sintr`, `xfer` and `wid` write, and words written out from the spec: the lemmas here, then the
statements they settle. -/

namespace Sys2Proof.Machine

/-- Arming a transfer writes the flag of the executing channel and nothing else (R142). -/
theorem setXp_frame (b : Bool) (s : State) :
    (s.setXp b).me = { s.me with xp := b } ∧ (s.setXp b).env = s.env ∧
      (s.setXp b).cur = s.cur ∧ (s.setXp b).obligation = s.obligation ∧
      (s.setXp b).dma = s.dma ∧ ∀ c, c ≠ s.cur → (s.setXp b).chan c = s.chan c :=
  ⟨s.setXp_me b, rfl, rfl, rfl, rfl, fun _ => s.chan_setXp_other b⟩

/-- Setting the width mode writes the two widths of the executing channel and nothing else (R143). -/
theorem setWid_frame (src dst : Width) (s : State) :
    (s.setWid src dst).me = { s.me with wsrc := src, wdst := dst } ∧
      (s.setWid src dst).env = s.env ∧ (s.setWid src dst).cur = s.cur ∧
      (s.setWid src dst).obligation = s.obligation ∧ (s.setWid src dst).dma = s.dma ∧
      ∀ c, c ≠ s.cur → (s.setWid src dst).chan c = s.chan c :=
  ⟨s.setWid_me src dst, rfl, rfl, rfl, rfl, fun _ => s.chan_setWid_other src dst⟩

/-- With a sink for it the host sees one event, without one nothing (R141). -/
theorem execSintr_eq (s : State) :
    execSintr s = .next { s with env := { s.env with
      events := if s.env.params.sintrSink = true then .sintr s.cur :: s.env.events
        else s.env.events } } := by
  unfold execSintr
  split
  · rfl
  · rfl

/-- At top level, bytes that begin with an instruction's encoding are decoded to the instruction. -/
theorem decode_of_encoding {i : Instr} {bs rest : List Byte} (hwf : i.wf = true)
    (htop : isHalf i = false) (hbytes : encode i ++ rest = bs) :
    decode false bs = .ok (i, rest) := by
  rw [← htop, ← hbytes]
  exact Certificates.encodedInstructionsDecode i rest hwf

end Sys2Proof.Machine

namespace Sys2Proof.Certificates

open Sys2Proof.Machine

/-- Settles O12: `nop` and `sintr` write no channel, `xfer` and `wid` the executing one alone. -/
theorem specialGroupEffects : Obligations.SpecialGroupEffects :=
  fun src dst s =>
    ⟨rfl, execSintr_eq s, ⟨_, rfl, setXp_frame true s⟩, ⟨_, rfl, setWid_frame src dst s⟩⟩

/-- Settles O13: each is one stop, taken before any operand access (R264). -/
theorem haltAndTslStopTheChannel : Obligations.HaltAndTslStopTheChannel :=
  fun _ _ _ s => ⟨⟨_, rfl, raise_stops .normalHalt s⟩,
    ⟨_, rfl, raise_stops (.failed .unknownOpcode) s⟩⟩

/-- Settles O6: each word is the encoding of the instruction that the spec gives it, and what is
encoded is decoded back. -/
theorem sampleWordsDecode : Obligations.SampleWordsDecode := by
  refine ⟨?nop, ?wid, ?lpdi, ?addi, ?load, ?loadHalf, ?setb, ?call, ?jmp, ?hlt⟩
  all_goals exact decode_of_encoding rfl rfl rfl

end Sys2Proof.Certificates

/-! ## Stored pointers read back

The three bytes of a stored pointer and the value and the tag that they give: the lemmas here, then
the statement they settle. -/

namespace Sys2Proof.Machine

/-- The value of the stored pointer that stands at an address (R158). -/
def pointerValueAt (s : State) (sp : Space) (a : Addr) : Addr :=
  pointerValue (halfAt s sp a) (s.byteAt sp (a + 2#20))

/-- The tag of the stored pointer that stands at an address (R158). -/
def pointerTagAt (s : State) (sp : Space) (a : Addr) : Space :=
  pointerTag (s.byteAt sp (a + 2#20))

/-- The value at an address as a number, byte by byte. -/
theorem pointerValueAt_toNat (s : State) (sp : Space) (a : Addr) :
    (pointerValueAt s sp a).toNat = (s.byteAt sp (a + 2#20)).toNat / 16 * 65536 +
      (s.byteAt sp (a + 1#20)).toNat * 256 + (s.byteAt sp a).toNat := by
  rw [pointerValueAt, pointerValue_toNat, halfAt, toNat_append_eq]
  omega

/-- The bit of a tag in the third byte of a stored pointer (R22(b)). -/
theorem tagBit_pointerTagAt (s : State) (sp : Space) (a : Addr) :
    (if pointerTagAt s sp a = .io then 8 else 0) =
      (s.byteAt sp (a + 2#20)).toNat / 8 % 2 * 8 := by
  rw [pointerTagAt, pointerTag_eq]
  rcases Nat.mod_two_eq_zero_or_one ((s.byteAt sp (a + 2#20)).toNat / 8) with h | h <;> simp [h]

/-- What a location holds is a stored pointer exactly if the low three bits of its third byte are
zero: the 3-byte form has no other freedom (R22(b)). -/
theorem storedPointer_at_iff (s : State) (sp : Space) (a : Addr) :
    StoredPointer sp a (pointerValueAt s sp a) (pointerTagAt s sp a) s ↔
      (s.byteAt sp (a + 2#20)).toNat % 8 = 0 := by
  have h0 := (s.byteAt sp a).isLt
  have h1 := (s.byteAt sp (a + 1#20)).isLt
  rw [StoredPointer, pointerValueAt_toNat, tagBit_pointerTagAt]
  omega

/-- A stored pointer gives its value back (R160). -/
theorem StoredPointer.value {sp sq : Space} {a v : Addr} {t : State}
    (h : StoredPointer sp a v sq t) : pointerValueAt t sp a = v := by
  obtain ⟨h0, h1, h2⟩ := h
  apply BitVec.eq_of_toNat_eq
  rw [pointerValueAt_toNat, h0, h1, h2]
  split <;> omega

/-- A stored pointer gives its tag back (R160). -/
theorem StoredPointer.tag {sp sq : Space} {a v : Addr} {t : State}
    (h : StoredPointer sp a v sq t) : pointerTagAt t sp a = sq := by
  obtain ⟨-, -, h2⟩ := h
  rw [pointerTagAt, pointerTag_eq, h2]
  cases sq
  · exact if_neg (by simp only [reduceCtorEq, if_false]; omega)
  · exact if_pos (by simp only [if_true]; omega)

/-- The value and the tag of a stored pointer determine its three bytes. -/
theorem StoredPointer.bytes_eq {sp sp' sq : Space} {a a' v : Addr} {s t : State}
    (h : StoredPointer sp a v sq s) (h' : StoredPointer sp' a' v sq t) :
    ∀ k, k < 3 →
      t.byteAt sp' (a' + BitVec.ofNat 20 k) = s.byteAt sp (a + BitVec.ofNat 20 k) := by
  obtain ⟨h0, h1, h2⟩ := h
  obtain ⟨h0', h1', h2'⟩ := h'
  intro k hk
  apply BitVec.eq_of_toNat_eq
  match k, hk with
  | 0, _ => rw [BitVec.add_zero, BitVec.add_zero, h0, h0']
  | 1, _ => exact h1'.trans h1.symm
  | 2, _ => exact h2'.trans h2.symm

/-- On a host that plays RAM a pointer load gives what stands at the address (R47, R158). -/
theorem loadPointer_plain {s : State} (h : PlainHost s) (sp : Space) (a : Addr) :
    (loadPointer sp a s).1 = (pointerValueAt s sp a, pointerTagAt s sp a) := by
  have hread := memRead16_reads sp a s
  simp only [loadPointer, memRead16_plain h, memRead8_plain (hread.plain h), hread.byteAt,
    pointerValueAt, pointerTagAt]

/-- Storing a pointer leaves a plain host plain. -/
theorem PlainHost.storePointer {s : State} (h : PlainHost s) (sp : Space) (a v : Addr)
    (sq : Space) : PlainHost (storePointer sp a v sq s) := by
  have hword : PlainHost (memWrite16 sp a (v.extractLsb' 0 16) s) := h.memWrite .word sp a _
  obtain ⟨es, e, -⟩ := memWrite8_eq sp (a + 2#20) (pointerTail v sq)
    (memWrite16 sp a (v.extractLsb' 0 16) s)
  rw [Machine.storePointer, e]
  exact hword

/-- On a host that plays RAM `movp P,M` loads the value and the tag that stand at `M` (R158). -/
theorem exec_movpPM_plain {p : PReg} {m : MemOp} {s t : State} (hp : PlainHost s)
    (h : exec (.movpPM p m) s = .next t) :
    t.reg (pppName p) = pointerValueAt s (eaSpace m s) (eaAddr m s) ∧
      t.tag (pppName p) = pointerTagAt s (eaSpace m s) (eaAddr m s) := by
  have hbytes : SameBytes s (eaState m .word s) := sameBytes_of_env (eaState_env m .word s)
  have hload : (loadPointer (eaSpace m s) (eaAddr m s) (eaState m .word s)).1 =
      (pointerValueAt s (eaSpace m s) (eaAddr m s), pointerTagAt s (eaSpace m s) (eaAddr m s)) := by
    rw [loadPointer_plain (plain_eaState hp), pointerValueAt, pointerTagAt, halfAt_congr hbytes,
      hbytes, pointerValueAt, pointerTagAt]
  cases h
  rw [loadReg_reg_pppName, loadReg_tag, ea_sp, ea_addr, ea_st, hload]
  exact ⟨rfl, rfl⟩

/-- `movp M,P` leaves the value and the tag of `P` at `M` in the 3-byte form (R159). -/
theorem exec_movpMP_storedPointer {p : PReg} {m : MemOp} {s t : State} (hc : Canonical s)
    (h : exec (.movpMP m p) s = .next t) :
    StoredPointer (eaSpace m s) (eaAddr m s) (s.reg (pppName p)) (s.tag (pppName p)) t := by
  obtain ⟨t', ht', -, hstored⟩ := Certificates.storePointer m p s
  cases h.symm.trans ht'
  exact hstored hc

/-- `movp M,P` leaves a plain host plain. -/
theorem exec_movpMP_plain {p : PReg} {m : MemOp} {s t : State} (hp : PlainHost s)
    (h : exec (.movpMP m p) s = .next t) : PlainHost t := by
  cases h
  exact (plain_eaState hp).storePointer _ _ _ _

end Sys2Proof.Machine

namespace Sys2Proof.Certificates

open Sys2Proof.Machine

/-- Settles O10: the 3-byte form and the pair of value and tag determine each other, once the low
three bits of the third byte are zero. -/
theorem storedPointerRoundTrip : Obligations.StoredPointerRoundTrip := by
  intro p q m n s t u hc hp
  constructor
  · intro hstore hspace haddr hload
    have hstored := exec_movpMP_storedPointer hc hstore
    obtain ⟨hreg, htag⟩ := exec_movpPM_plain (exec_movpMP_plain hp hstore) hload
    rw [hspace, haddr] at hreg htag
    exact ⟨hreg.trans hstored.value, htag.trans hstored.tag⟩
  · intro hload hstore hzero
    obtain ⟨hreg, htag⟩ := exec_movpPM_plain hp hload
    have hstored := exec_movpMP_storedPointer ((exec_ran _ hload).canonical hc) hstore
    rw [hreg, htag] at hstored
    exact ((storedPointer_at_iff s _ _).2 hzero).bytes_eq hstored

end Sys2Proof.Certificates

/-! ## Register arithmetic

Sums and differences on one register at its full width: the lemmas here, then the statement they
settle. -/

namespace Sys2Proof.Machine

/-- One more and one less, modulo 2^20. -/
theorem inc_emod (x : Addr) : ((x + 1#20).toNat : Int) % 2 ^ 20 = (x.toNat + 1) % 2 ^ 20 :=
  add_emod x 1#20

theorem dec_emod (x : Addr) : ((x - 1#20).toNat : Int) % 2 ^ 20 = (x.toNat - 1) % 2 ^ 20 := by
  rw [BitVec.sub_eq_add_neg]
  exact add_emod x (-1#20)

/-- An operation on one register, as an integer result modulo the register's width, and what it
leaves unchanged (R170). -/
theorem updateReg_holdsInt {g : Addr → Addr} {r : RegName} {s : State} {n : Int}
    (h : ((g (s.reg r)).toNat : Int) % 2 ^ 20 = n % 2 ^ 20) :
    HoldsInt r n (updateReg g r s) ∧ Keeps [r] [] s (updateReg g r s) ∧
      (updateReg g r s).env = s.env ∧ SameBytes s (updateReg g r s) := by
  obtain ⟨hkeeps, henv⟩ := updateReg_frame g r s
  exact ⟨holdsInt_of_reg (updateReg_reg g r s) h, hkeeps, henv, sameBytes_of_env henv⟩

end Sys2Proof.Machine

namespace Sys2Proof.Certificates

open Sys2Proof.Machine

/-- Settles O14: each rewrites one register with a sum or a difference modulo 2^20, and the register
keeps it modulo its own width. -/
theorem registerArithmetic : Obligations.RegisterArithmetic := by
  intro r i w s
  refine ⟨⟨_, rfl, updateReg_holdsInt ?_⟩, ⟨_, rfl, updateReg_holdsInt (inc_emod _)⟩,
    ⟨_, rfl, updateReg_holdsInt (dec_emod _)⟩⟩
  rw [add_emod, immValue_toInt]

end Sys2Proof.Certificates

/-! ## Control transfer

Jumps taken by a register or by a memory operand, and the instructions that leave the channel's
status alone: the lemmas here, then the statements they settle. -/

namespace Sys2Proof.Machine

/-! ### Jumps on a memory operand -/

/-- A jump on the operand at `M` adds the displacement to `tp` exactly if the test holds (R205). -/
theorem jumpOnMem_tp (test : Half → Bool) (m : MemOp) (w : Width) (d : Imm) (s : State) :
    HoldsInt .tp (if test (operandOf w m s) = true then (s.reg .tp).toNat + immInt d
      else (s.reg .tp).toNat) (jumpOnMem test m w d s) := by
  rw [jumpOnMem_eq, ← operandRead_reg (w := w) (m := m) (by decide)]
  exact jumpIf_tp _ d _

/-! ### The instructions that can stop the channel -/

/-- The instructions whose meaning has a stop: `hlt`, `tsl` (R217) and the halves of `mov M,M`, the
first by the unit it fetches (R90, R154), the second by an obligation it lacks (R155). -/
def mayStop : Instr → Bool
  | .hlt | .tsl _ _ _ | .movMMLoad _ _ | .movMMStore _ _ => true
  | _ => false

theorem stop_of_mayStop {i : Instr} (h : mayStop i = true) :
    i = .hlt ∨ (∃ m j d, i = .tsl m j d) ∨ (∃ m w, i = .movMMLoad m w) ∨
      (∃ m w, i = .movMMStore m w) := by
  cases i
  case hlt => exact .inl rfl
  case tsl m j d => exact .inr (.inl ⟨m, j, d, rfl⟩)
  case movMMLoad m w => exact .inr (.inr (.inl ⟨m, w, rfl⟩))
  case movMMStore m w => exact .inr (.inr (.inr ⟨m, w, rfl⟩))
  all_goals exact absurd h Bool.false_ne_true

/-- Every other instruction leaves the status of the channel alone: what it does beside the special
group is reads, stores and register writes, and none of these touches the status. -/
theorem exec_status {i : Instr} {s t : State} (h : exec i s = .next t)
    (hi : mayStop i = false) : t.me.status = s.me.status := by
  cases i <;> simp only [exec] at h
  case hlt | tsl | movMMLoad | movMMStore => cases hi
  case nop => cases h; rfl
  case sintr => cases h; split <;> rfl
  case xfer => cases h; rw [State.setXp_me]
  case wid => cases h; rw [State.setWid_me]
  case lpdi | moviR => cases h; exact (loadReg_frame _ _ _ s).1.status
  case movRM => cases h; exact (loadReg_loadsOnly (memRead_reads _ _ _ _) _ _).1.status
  case lpd => cases h; exact (loadReg_loadsOnly (memRead32_reads _ _ _) _ _).1.status
  case movpPM => cases h; exact (loadReg_loadsOnly (loadPointer_reads _ _ _) _ _).1.status
  case addiR | oriR | andiR | notR | incR | decR =>
    cases h
    exact (updateReg_frame _ _ s).1.status
  case addRM | orRM | andRM | notRM => cases h; exact (updateRegMem_frame _ _ _ _ s).1.status
  case moviM | movMR => cases h; exact (store_storesOnly (ReadsOnly.refl _) _).1.status
  case movpMP => cases h; exact (storePointer_storesOnly _ _ _ s).1.status
  case addiM | oriM | andiM | notM | incM | decM =>
    cases h
    exact (updateMem_frame _ _ _ s).1.status
  case addMR | orMR | andMR => cases h; exact (updateMemReg_frame _ _ _ _ s).1.status
  case setb | clr => cases h; exact (updateByte_frame _ _ s).1.status
  case jmp | ljmp | jzR | jnzR => cases h; exact (jumpIf_frame _ _ s).1.status
  case jzM | jnzM => cases h; exact (jumpOnMem_frame _ _ _ _ s).1.status
  case jmce | jmcne | jbt | jnbt => cases h; exact (jumpOnByte_frame _ _ _ s).1.status
  case call => cases h; exact ((storePointer_storesOnly _ _ _ s).jumpIf _ _).1.status

end Sys2Proof.Machine

namespace Sys2Proof.Certificates

open Sys2Proof.Machine

/-- Settles O30: both are a jump that is always taken. -/
theorem unconditionalJumps : Obligations.UnconditionalJumps :=
  fun d e s => ⟨⟨_, rfl, jumpIf_tp true (.byte d) s, jumpIf_frame true _ s⟩,
    ⟨_, rfl, jumpIf_tp true (.word e) s, jumpIf_frame true _ s⟩⟩

/-- Settles O31: both are a jump, with the register's test taken before `tp` is written. -/
theorem jumpsOnRegisters : Obligations.JumpsOnRegisters := by
  intro r d s tp
  refine ⟨⟨_, rfl, ?_, jumpIf_frame _ _ s⟩, ⟨_, rfl, ?_, jumpIf_frame _ _ s⟩⟩
  · simpa only [beq_iff_eq] using jumpIf_tp (s.reg (rrrName r) == 0#20) d s
  · simpa only [bne_iff_ne, ne_eq, ite_not] using jumpIf_tp (s.reg (rrrName r) != 0#20) d s

/-- Settles O32: both are the jump on a memory operand, whose frame is that of the read. -/
theorem jumpsOnMemory : Obligations.JumpsOnMemory := by
  intro m d w s tp
  refine ⟨⟨_, rfl, ?_, jumpOnMem_frame _ m w d s⟩, ⟨_, rfl, ?_, jumpOnMem_frame _ m w d s⟩⟩
  · simpa only [beq_iff_eq] using jumpOnMem_tp (fun x => x == 0#16) m w d s
  · simpa only [bne_iff_ne, ne_eq, ite_not] using jumpOnMem_tp (fun x => x != 0#16) m w d s

/-- Settles O58: an instruction without a stop leaves a running channel running. -/
theorem onlyStopsStopTheChannel : Obligations.OnlyStopsStopTheChannel := by
  intro i s t h hrun hstop
  refine stop_of_mayStop (Bool.eq_true_of_not_eq_false fun hi => hstop ?_)
  rw [exec_status h hi, hrun]

end Sys2Proof.Certificates

/-! ## The DMA engine

The termination checks, how a run ends, what one unit copies and what a byte-count run moves: the
lemmas here, then the statements they settle. -/

namespace Sys2Proof.Machine

/-! ### Termination checks -/

theorem ccTx_eq_zero_iff (cc : Half) : ccTx cc = 0#2 ↔ fieldTx cc = 0 := by
  rw [← ccTx_toNat, BitVec.toNat_eq, BitVec.toNat_zero]

theorem ccTbc_eq_zero_iff (cc : Half) : ccTbc cc = 0#2 ↔ fieldTbc cc = 0 := by
  rw [← ccTbc_toNat, BitVec.toNat_eq, BitVec.toNat_zero]

theorem ccTmc_eq_zero_iff (cc : Half) : ccTmc cc = 0#2 ↔ fieldTmc cc = 0 := by
  rw [← ccTmc_toNat, BitVec.toNat_eq, BitVec.toNat_zero]

theorem skip_ccTx {cc : Half} (h : fieldTx cc ≠ 0) : skip (ccTx cc) = skipOf (fieldTx cc) := by
  rw [← ccTx_toNat] at h ⊢
  exact skip_eq_skipOf h

theorem skip_ccTbc {cc : Half} (h : fieldTbc cc ≠ 0) : skip (ccTbc cc) = skipOf (fieldTbc cc) := by
  rw [← ccTbc_toNat] at h ⊢
  exact skip_eq_skipOf h

theorem skip_ccTmc {cc : Half} (h : fieldTmc cc ≠ 0) : skip (ccTmc cc) = skipOf (fieldTmc cc) := by
  rw [← ccTmc_toNat] at h ⊢
  exact skip_eq_skipOf h

/-- The latch has the sense that `TMCN` asks for; before the first unit there is none (R240). -/
abbrev LatchAgrees (cc : Half) (latch : Option Bool) : Prop :=
  cc.getLsbD 2 = false ∧ latch = some true ∨ cc.getLsbD 2 = true ∧ latch = some false

theorem maskedStop_iff (cc : Half) (latch : Option Bool) :
    maskedStop cc latch = true ↔ fieldTmc cc ≠ 0 ∧ LatchAgrees cc latch := by
  cases latch with
  | none => simp [maskedStop, LatchAgrees]
  | some b =>
    have hsense : (b ^^ ccTmcn cc) = true ↔ LatchAgrees cc (some b) := by
      unfold ccTmcn LatchAgrees
      cases b <;> simp
    rw [maskedStop, Bool.and_eq_true, bne_iff_ne, ne_eq, ccTmc_eq_zero_iff, hsense]

/-- The byte count fires where it is enabled and has reached 0, whatever the latch is (R239). -/
theorem innerCheck_of_count {s : State} (htbc : fieldTbc s.me.cc ≠ 0) (hbc : s.me.bc = 0#16)
    (latch : Option Bool) : innerCheck latch s = some (skipOf (fieldTbc s.me.cc)) := by
  have hne : ccTbc s.me.cc ≠ 0#2 := fun h => htbc ((ccTbc_eq_zero_iff _).1 h)
  rw [innerCheck, if_pos (by simp [hne, hbc]), skip_ccTbc htbc]

/-- Where the byte count does not fire, the masked compare decides (R240). -/
theorem innerCheck_of_no_count {s : State} (h : ¬ (fieldTbc s.me.cc ≠ 0 ∧ s.me.bc = 0#16))
    (latch : Option Bool) : innerCheck latch s =
      if maskedStop s.me.cc latch then some (skipOf (fieldTmc s.me.cc)) else none := by
  rw [innerCheck, if_neg (by simpa [ccTbc_eq_zero_iff] using h)]
  split
  · next hstop => rw [skip_ccTmc ((maskedStop_iff _ _).1 hstop).1]
  · rfl

/-- Where the external class is enabled, `EXT` is sampled: it fires where `EXT` is false, and
otherwise the other two decide (R238, R272). -/
theorem dmaCheck_of_tx {s : State} (h : fieldTx s.me.cc ≠ 0) (latch : Option Bool) :
    dmaCheck latch s = (if (sampleExt s).1 then innerCheck latch s
      else some (skipOf (fieldTx s.me.cc)), (sampleExt s).2) := by
  have hne : ccTx s.me.cc ≠ 0#2 := fun e => h ((ccTx_eq_zero_iff _).1 e)
  rw [dmaCheck, if_pos (bne_iff_ne.2 hne), skip_ccTx h]
  dsimp only
  split <;> rfl

/-- A check that lets a unit pass has found the count above 0, where the byte count is enabled. -/
theorem bc_ne_zero_of_dmaCheck {s : State} {latch : Option Bool} (htbc : fieldTbc s.me.cc ≠ 0)
    (h : (dmaCheck latch s).1 = none) : s.me.bc ≠ 0#16 := by
  intro hbc
  have hcount := innerCheck_of_count htbc hbc latch
  by_cases htx : fieldTx s.me.cc = 0
  · simp [dmaCheck_of_no_tx htx, hcount] at h
  · rw [dmaCheck_of_tx htx, hcount] at h
    dsimp only at h
    split at h <;> cases h

/-- With the byte count alone enabled, a check fires exactly where the count is 0, and samples
nothing (R239, R272). -/
theorem dmaCheck_of_count_alone {s : State} (htx : fieldTx s.me.cc = 0)
    (htmc : fieldTmc s.me.cc = 0) (htbc : fieldTbc s.me.cc ≠ 0) (latch : Option Bool) :
    dmaCheck latch s =
      (if s.me.bc = 0#16 then some (skipOf (fieldTbc s.me.cc)) else none, s) := by
  rw [dmaCheck_of_no_tx htx]
  split
  · next hbc => rw [innerCheck_of_count htbc hbc]
  · next hbc =>
    have hstop : ¬ maskedStop s.me.cc latch = true := fun h => ((maskedStop_iff _ _).1 h).1 htmc
    rw [innerCheck_of_no_count fun h => hbc h.2, if_neg hstop]

/-! ### How a run ends -/

/-- Without translate mode a run is the loop (R235, R236). -/
theorem dmaRun_eq_dmaLoop {s : State} (h : s.me.cc.getLsbD 13 = false) :
    dmaRun s = dmaLoop Config.dmaFuel none s := by
  rw [dmaRun, show ccTr s.me.cc = false from h, if_neg Bool.false_ne_true]

theorem dmaFuel_succ : Config.dmaFuel = 65535 + 1 := rfl

theorem ended_reg (s : State) (r : RegName) : (ended s).reg r = s.reg r :=
  State.reg_setXp _ r false

/-- The end of a run leaves every register but `tp` alone (R250). -/
theorem terminate_reg_other (sk : Addr) (s : State) {r : RegName} (h : r ≠ .tp) :
    (terminate sk s).reg r = s.reg r :=
  ((terminate_frame sk s).regs r (by simpa using h)).trans (ended_reg s r)

/-- A run that ends with skip 0 leaves `tp` alone too (R241). -/
theorem terminate_zero (s : State) : terminate 0#20 s = ended s := by
  have htp : (ended s).setReg .tp ((ended s).reg .tp + 0#20) = ended s := by
    rw [BitVec.add_zero]
    exact (ended s).setMe_me
  exact htp

theorem ended_chan_other (s : State) {c : ChanId} (h : c ≠ s.cur) :
    (ended s).chan c = s.chan c := by
  rw [← terminate_zero]
  exact terminate_chan_other _ s h

/-- Ending a run before a change and after it keeps what the change leaves alone. -/
theorem Keeps.ended {rs ts : List RegName} {s t : State} (h : Keeps rs ts s t) :
    Keeps rs ts (ended s) (ended t) where
  cur := h.cur
  obligation := h.obligation
  dma := rfl
  other c hc := by
    rw [ended_chan_other s hc, ended_chan_other t (by rw [h.cur]; exact hc), h.other c hc]
  regs r hr := by rw [ended_reg, ended_reg, h.regs r hr]
  tags r hr := by simpa [Machine.ended] using h.tags r hr
  wsrc := by simpa [Machine.ended] using h.wsrc
  wdst := by simpa [Machine.ended] using h.wdst
  xp := by simp [Machine.ended]
  status := by simpa [Machine.ended] using h.status
  params := h.params
  schedule := h.schedule
  ext0 := h.ext0
  ext1 := h.ext1

/-- A run that has ended is not gone on with. -/
theorem continueRun_of_idle {t : State} (h : t.dma = .idle) (n : Nat) : continueRun n t = t := by
  rw [continueRun, h]

/-- A unit moves no more bytes than the count says (R247). -/
theorem unitBytes_le_bc {s : State} (h : s.me.bc ≠ 0#16) : unitBytes s ≤ s.me.bc.toNat := by
  have h0 : s.me.bc.toNat ≠ 0 := fun e => h (BitVec.eq_of_toNat_eq e)
  unfold unitBytes
  split
  · omega
  · next hn =>
    have h1 : s.me.bc.toNat ≠ 1 := fun e => hn (.inl (BitVec.eq_of_toNat_eq e))
    omega

/-- Where the count is not 0 it falls by the bytes moved, without wrapping (R248). -/
theorem countUnit_bc_toNat {s : State} (h : s.me.bc ≠ 0#16) :
    (countUnit s).st.me.bc.toNat + unitBytes s = s.me.bc.toNat := by
  have hle := unitBytes_le_bc h
  have hlt := s.me.bc.isLt
  rw [countUnit_bc, BitVec.toNat_sub, BitVec.toNat_ofNat]
  omega

/-- The loop in rounds: an invariant that checks and counted units keep holds at the check that ends
a byte-count run, and with fuel for more units than there are bytes to move the run gets there
(R252). -/
theorem dmaLoop_ends {I : State → Prop} {cc : Half} (hts : ccTs cc = false)
    (htbc : fieldTbc cc ≠ 0) (hcc : ∀ u, I u → u.me.cc = cc)
    (hcheck : ∀ latch u, I u → I (dmaCheck latch u).2)
    (hunit : ∀ u, I u → u.me.bc ≠ 0#16 → I (countUnit u).st) (n : Nat) :
    ∀ (latch : Option Bool) {s : State}, I s → s.me.bc.toNat < n →
      ∃ l u sk, I u ∧ (dmaCheck l u).1 = some sk ∧
        dmaLoop n latch s = terminate sk (dmaCheck l u).2 := by
  induction n with
  | zero => exact fun _ _ _ hlt => absurd hlt (Nat.not_lt_zero _)
  | succ n ih =>
    intro latch s hs hlt
    have hcs : s.me.cc = cc := hcc s hs
    have hts' : ccTs s.me.cc = false := by rw [hcs, hts]
    cases hc : (dmaCheck latch s).1 with
    | some sk => exact ⟨latch, s, sk, hs, hc, dmaLoop_stop n hts' hc⟩
    | none =>
      have hbc : (dmaCheck latch s).2.me.bc ≠ 0#16 := by
        rw [dmaCheck_me]
        exact bc_ne_zero_of_dmaCheck (by rw [hcs]; exact htbc) hc
      have hfall := countUnit_bc_toNat hbc
      have hpos := unitBytes_le (dmaCheck latch s).2
      rw [dmaCheck_me] at hfall
      rw [dmaLoop_go n hts' hc]
      exact ih _ (hunit _ (hcheck latch s hs) hbc) (by omega)

/-! ### Where a unit reads and writes -/

/-- The space and the address that the next access of the engine reads (R232, R233). -/
def srcSpace (s : State) : Space := s.tag (dmaSrc s)
def srcAddr (s : State) : Addr := s.reg (dmaSrc s)

/-- The space and the address that the next access of the engine writes (R232, R233). -/
def dstSpace (s : State) : Space := s.tag (dmaDst s)
def dstAddr (s : State) : Addr := s.reg (dmaDst s)

section
variable {n m : Nat} {s t : State}

theorem Moves.cc (h : Moves n m s t) : t.me.cc = s.me.cc := h.keeps.cc (by simp)

theorem Moves.srcSpace (h : Moves n m s t) : srcSpace t = srcSpace s := by
  rw [Machine.srcSpace, dmaSrc_congr h.cc, h.keeps.tags _ (by simp), Machine.srcSpace]

theorem Moves.dstSpace (h : Moves n m s t) : dstSpace t = dstSpace s := by
  rw [Machine.dstSpace, dmaDst_congr h.cc, h.keeps.tags _ (by simp), Machine.dstSpace]

theorem Moves.srcAddr (h : Moves n m s t) :
    srcAddr t = steppedBy (ccSinc s.me.cc) (srcAddr s) n := by
  rw [Machine.srcAddr, dmaSrc_congr h.cc, h.src, Machine.srcAddr]

theorem Moves.dstAddr (h : Moves n m s t) :
    dstAddr t = steppedBy (ccDinc s.me.cc) (dstAddr s) m := by
  rw [Machine.dstAddr, dmaDst_congr h.cc, h.dst, Machine.dstAddr]

end

@[simp] theorem steppedBy_zero (b : Bool) (v : Addr) : steppedBy b v 0 = v := by
  simp [steppedBy]

/-! ### The bytes that an access reads and writes -/

/-- The two bytes of a 16-bit value that stands in memory. -/
theorem byteAt_of_halfAt {t : State} {sp : Space} {a : Addr} {v : Half} (h : halfAt t sp a = v) :
    t.byteAt sp a = loByte v ∧ t.byteAt sp (a + 1#20) = hiByte v := by
  rw [← h, halfAt]
  exact ⟨(loByte_append _ _).symm, (hiByte_append _ _).symm⟩

theorem loByte_eq_setWidth (v : Half) : loByte v = v.setWidth 8 := by
  apply BitVec.eq_of_toNat_eq
  simp [loByte]

theorem readSrc_byte {s : State} (hp : PlainHost s) :
    (readSrc .byte s).1 = (s.byteAt (srcSpace s) (srcAddr s)).setWidth 16 :=
  congrArg (BitVec.setWidth 16) (memRead8_plain hp _ _)

theorem readSrc_word {s : State} (hp : PlainHost s) :
    (readSrc .word s).1 = halfAt s (srcSpace s) (srcAddr s) :=
  memRead16_plain hp _ _

theorem readSrc_sameBytes (w : Width) (s : State) : SameBytes s (readSrc w s).2 :=
  (memRead_reads w _ _ s).sameBytes.trans (sameBytes_of_env (advance_env _ _ _ _))

theorem PlainHost.readSrc {s : State} (hp : PlainHost s) (w : Width) :
    PlainHost (readSrc w s).2 := by
  have hread := (memRead_reads w (s.tag (dmaSrc s)) (s.reg (dmaSrc s)) s).plain hp
  rwa [PlainHost, ← advance_env (ccSinc s.me.cc) (dmaSrc s) (widthSize w)] at hread

theorem PlainHost.writeDst {s : State} (hp : PlainHost s) (w : Width) (x : Half) :
    PlainHost (writeDst w x s) := by
  have hwrite := hp.memWrite w (s.tag (dmaDst s)) (s.reg (dmaDst s)) x
  rwa [PlainHost, ← advance_env (ccDinc s.me.cc) (dmaDst s) (widthSize w)] at hwrite

/-- Advancing the pointer after a store touches no byte. -/
theorem writeDst_sameBytes (w : Width) (x : Half) (s : State) :
    SameBytes (memWrite w (dstSpace s) (dstAddr s) x s) (writeDst w x s) :=
  sameBytes_of_env (advance_env _ _ _ _)

theorem writeDst_byte {s : State} (hc : Canonical s) (x : Half) :
    (writeDst .byte x s).byteAt (dstSpace s) (dstAddr s) = x.setWidth 8 := by
  rw [writeDst_sameBytes]
  exact byteAt_memWrite8 hc _ _ _

theorem writeDst_word {s : State} (hc : Canonical s) (x : Half) :
    halfAt (writeDst .word x s) (dstSpace s) (dstAddr s) = x := by
  rw [halfAt_congr (writeDst_sameBytes .word x s)]
  exact halfAt_memWrite16 hc _ _ _

theorem sameBytesBut_writeDst (w : Width) (x : Half) (s : State) :
    SameBytesBut (dstSpace s) (dstAddr s) (widthBytes w) s (writeDst w x s) :=
  (sameBytesBut_memWrite w _ _ x s).before (writeDst_sameBytes w x s)

/-! ### What a unit copies -/

/-- A unit of `k` bytes has copied `old 0`, `old 1` to the destination, and touched no other byte. If
the destination stands still it holds the last of them (R242 to R247). -/
structure UnitCopies (k : Nat) (old : Nat → Byte) (still : Prop) (s : State) (u : Moved) : Prop where
  bytes : u.bytes.toNat = k
  frame : SameBytesBut (dstSpace s) (dstAddr s) k s u.st
  low : loByte u.value = old 0
  spread : ¬ still → ∀ j, j < k → u.st.byteAt (dstSpace s) (dstAddr s + BitVec.ofNat 20 j) = old j
  last : still → u.st.byteAt (dstSpace s) (dstAddr s) = old (k - 1)

section
variable {s : State} {old : Nat → Byte} {still : Prop}

/-- A unit of two bytes ends with a 16-bit store of the value it has moved. -/
theorem UnitCopies.of_word {u : State} {x : Half} (hc : Canonical u) (hb : SameBytes s u)
    (hsp : dstSpace u = dstSpace s) (ha : dstAddr u = dstAddr s) (h0 : old 0 = loByte x)
    (h1 : old 1 = hiByte x) (hstill : ¬ still) :
    UnitCopies 2 old still s ⟨x, 2#16, writeDst .word x u⟩ := by
  have hword := writeDst_word hc x
  have hframe := sameBytesBut_writeDst .word x u
  rw [hsp, ha] at hword hframe
  obtain ⟨hlo, hhi⟩ := byteAt_of_halfAt hword
  refine ⟨rfl, hframe.after hb, h0.symm, fun _ j hj => ?_, fun h => absurd h hstill⟩
  obtain rfl | rfl : j = 0 ∨ j = 1 := by omega
  · rw [BitVec.add_zero, hlo, h0]
  · rw [hhi, h1]

theorem unit8to8_copies (hc : Canonical s) (hp : PlainHost s)
    (h0 : old 0 = s.byteAt (srcSpace s) (srcAddr s)) :
    UnitCopies 1 old still s (unit8to8 s) := by
  have hm := readSrc_moves .byte s
  have hbyte := writeDst_byte (readSrc_canonical .byte hc) (readSrc .byte s).1
  have hframe := sameBytesBut_writeDst .byte (readSrc .byte s).1 (readSrc .byte s).2
  rw [hm.dstSpace, hm.dstAddr, steppedBy_zero] at hbyte hframe
  have hread : (readSrc .byte s).1.setWidth 8 = old 0 := by
    rw [readSrc_byte hp, h0]
    simp
  have hold : (unit8to8 s).st.byteAt (dstSpace s) (dstAddr s) = old 0 := hbyte.trans hread
  refine ⟨rfl, hframe.after (readSrc_sameBytes .byte s), ?_, fun _ j hj => ?_, fun _ => hold⟩
  · rw [← hread]
    exact loByte_eq_setWidth _
  · obtain rfl : j = 0 := by omega
    rw [BitVec.add_zero, hold]

theorem unit8to16_copies (hc : Canonical s) (hp : PlainHost s)
    (h0 : old 0 = s.byteAt (srcSpace s) (srcAddr s))
    (h1 : old 1 = s.byteAt (srcSpace s) (steppedBy (ccSinc s.me.cc) (srcAddr s) 1))
    (hstill : ¬ still) : UnitCopies 2 old still s (unit8to16 s) := by
  have hm := readSrc_moves .byte s
  have hm2 := hm.trans (readSrc_moves .byte _)
  have hb := readSrc_sameBytes .byte s
  have hlo := readSrc_byte hp
  have hhi := readSrc_byte (hp.readSrc .byte)
  rw [hm.srcSpace, hm.srcAddr, hb] at hhi
  refine UnitCopies.of_word (readSrc_canonical _ (readSrc_canonical _ hc))
    (hb.trans (readSrc_sameBytes .byte _)) hm2.dstSpace (hm2.dstAddr.trans (steppedBy_zero _ _))
    ?_ ?_ hstill
  · rw [loByte_append, hlo, h0]
    simp
  · rw [hiByte_append, hhi, h1]
    simp [widthBytes]

theorem unit16to16_copies (hc : Canonical s) (hp : PlainHost s)
    (h0 : old 0 = s.byteAt (srcSpace s) (srcAddr s))
    (h1 : old 1 = s.byteAt (srcSpace s) (srcAddr s + 1#20))
    (hstill : ¬ still) : UnitCopies 2 old still s (unit16to16 s) := by
  have hm := readSrc_moves .word s
  obtain ⟨hlo, hhi⟩ := byteAt_of_halfAt (readSrc_word hp).symm
  exact UnitCopies.of_word (readSrc_canonical _ hc) (readSrc_sameBytes .word s) hm.dstSpace
    (hm.dstAddr.trans (steppedBy_zero _ _)) (h0.trans hlo) (h1.trans hhi) hstill

end

theorem SameBytesBut.mono {sp : Space} {a : Addr} {n m : Nat} {s t : State} (h : m ≤ n)
    (hs : SameBytesBut sp a m s t) : SameBytesBut sp a n s t :=
  fun sq b hb => hs sq b fun ⟨e, k, hk, hmask⟩ => hb ⟨e, k, by omega, hmask⟩

/-- Two bytes stored one after the other: the second beside the first, or over it where the pointer
stands still. -/
theorem writeDst_bytes {u : State} (hc : Canonical u) (lo hi : Byte) :
    let t := writeDst .byte (hi.setWidth 16) (writeDst .byte (lo.setWidth 16) u)
    SameBytesBut (dstSpace u) (dstAddr u) 2 u t ∧
      t.byteAt (dstSpace u) (steppedBy (ccDinc u.me.cc) (dstAddr u) 1) = hi ∧
      (ccDinc u.me.cc = true → t.byteAt (dstSpace u) (dstAddr u) = lo) := by
  have hm := writeDst_moves .byte (lo.setWidth 16) u
  have hcut : ∀ b : Byte, (b.setWidth 16).setWidth 8 = b := fun b => by simp
  have hlo := writeDst_byte hc (lo.setWidth 16)
  have hhi := writeDst_byte (writeDst_canonical .byte (lo.setWidth 16) hc) (hi.setWidth 16)
  have hframe := sameBytesBut_writeDst .byte (lo.setWidth 16) u
  have hframe2 := sameBytesBut_writeDst .byte (hi.setWidth 16) (writeDst .byte (lo.setWidth 16) u)
  rw [hcut] at hlo hhi
  rw [hm.dstSpace, hm.dstAddr] at hhi hframe2
  refine ⟨(hframe.mono (by decide)).trans ?_, hhi, fun hinc => ?_⟩
  · cases hinc : ccDinc u.me.cc with
    | false =>
      rw [hinc] at hframe2
      exact hframe2.mono (by decide)
    | true =>
      rw [hinc] at hframe2
      exact SameBytesBut.widen (k := 1) (m := 1) (by omega) hframe2
  · rw [hinc] at hframe2
    refine (hframe2 _ _ ?_).trans hlo
    rintro ⟨-, k, hk, hmask⟩
    obtain rfl : k = 0 := by simpa [widthBytes] using hk
    rw [BitVec.add_zero] at hmask
    exact mask_succ_ne _ _ hmask.symm

section
variable {s : State} {old : Nat → Byte} {still : Prop}

/-- The low byte is stored first, and the high byte after it (R245). -/
theorem unit16to8_copies (hc : Canonical s) (hp : PlainHost s)
    (h0 : old 0 = s.byteAt (srcSpace s) (srcAddr s))
    (h1 : old 1 = s.byteAt (srcSpace s) (srcAddr s + 1#20))
    (hstill : still ↔ ccDinc s.me.cc = false) : UnitCopies 2 old still s (unit16to8 s) := by
  have hm := readSrc_moves .word s
  have hb := readSrc_sameBytes .word s
  obtain ⟨hlo, hhi⟩ := byteAt_of_halfAt (readSrc_word hp).symm
  obtain ⟨hframe, hsecond, hfirst⟩ := writeDst_bytes (readSrc_canonical .word hc)
    (loByte (readSrc .word s).1) (hiByte (readSrc .word s).1)
  rw [hm.dstSpace, hm.dstAddr, steppedBy_zero] at hframe hsecond hfirst
  rw [hm.cc] at hsecond hfirst
  refine ⟨rfl, hframe.after hb, (h0.trans hlo).symm, fun h j hj => ?_, fun h => ?_⟩
  · have hinc : ccDinc s.me.cc = true := by simpa [hstill] using h
    rw [hinc] at hsecond
    obtain rfl | rfl : j = 0 ∨ j = 1 := by omega
    · rw [BitVec.add_zero]
      exact (hfirst hinc).trans (h0.trans hlo).symm
    · exact hsecond.trans (h1.trans hhi).symm
  · rw [hstill.1 h] at hsecond
    exact hsecond.trans (h1.trans hhi).symm

end

/-- The source byte that a unit reads as its byte `j`: an 8-bit source that stands still gives one
byte again and again (R243, R244). -/
def sourceByte (s : State) (j : Nat) : Byte :=
  s.byteAt (srcSpace s) (srcAddr s +
    BitVec.ofNat 20 (if s.me.wsrc = .byte ∧ ccSinc s.me.cc = false then 0 else j))

/-- Every unit copies the bytes that it reads (R242 to R247). -/
theorem moveUnit_copies {s : State} (hc : Canonical s) (hp : PlainHost s) :
    UnitCopies (unitBytes s) (sourceByte s) (s.me.wdst = .byte ∧ ccDinc s.me.cc = false) s
      (moveUnit s) := by
  have h0 : sourceByte s 0 = s.byteAt (srcSpace s) (srcAddr s) := by simp [sourceByte]
  unfold moveUnit unitBytes
  by_cases hbc : s.me.bc = 1#16
  · rw [if_pos hbc, if_pos (.inl hbc)]
    exact unit8to8_copies hc hp h0
  · rw [if_neg hbc]
    have hword : s.me.wsrc = .word →
        sourceByte s 1 = s.byteAt (srcSpace s) (srcAddr s + 1#20) := fun h => by
      simp [sourceByte, h]
    cases hsrc : s.me.wsrc <;> cases hdst : s.me.wdst <;> simp only [hbc]
    · exact unit8to8_copies hc hp h0
    · refine unit8to16_copies hc hp h0 ?_ (by simp)
      cases hinc : ccSinc s.me.cc <;> simp [sourceByte, hsrc, hinc, steppedBy]
    · exact unit16to8_copies hc hp h0 (hword hsrc) (by simp)
    · exact unit16to16_copies hc hp h0 (hword hsrc) (by simp)

/-! ### What a byte-count run moves -/

theorem KeepsControl.cc {s t : State} (h : KeepsControl s t) : t.me.cc = s.me.cc := by
  have hreg := congrArg (BitVec.setWidth 16) (h.regs .cc (by decide))
  simpa [State.reg, Channel.read] using hreg

theorem KeepsControl.srcSpace {s t : State} (h : KeepsControl s t) : srcSpace t = srcSpace s := by
  rw [Machine.srcSpace, dmaSrc_congr h.cc, State.tag, h.tags]
  rfl

theorem KeepsControl.dstSpace {s t : State} (h : KeepsControl s t) : dstSpace t = dstSpace s := by
  rw [Machine.dstSpace, dmaDst_congr h.cc, State.tag, h.tags]
  rfl

theorem srcAddr_congr {s t : State} (hcc : t.me.cc = s.me.cc)
    (h : ∀ r ∈ [RegName.ga, .gb], t.reg r = s.reg r) : srcAddr t = srcAddr s := by
  rw [srcAddr, dmaSrc_congr hcc, h _ (dmaSrc_mem s), srcAddr]

theorem dstAddr_congr {s t : State} (hcc : t.me.cc = s.me.cc)
    (h : ∀ r ∈ [RegName.ga, .gb], t.reg r = s.reg r) : dstAddr t = dstAddr s := by
  rw [dstAddr, dmaDst_congr hcc, h _ (dmaDst_mem s), dstAddr]

/-- Part of a run has moved `n` bytes: the count has fallen by `n` without wrapping, the pointers have
moved if they are enabled to, and that many bytes have been read and written. -/
structure Transferred (n : Nat) (s t : State) : Prop where
  control : KeepsControl s t
  count : t.me.bc.toNat + n = s.me.bc.toNat
  src : srcAddr t = steppedBy (ccSinc s.me.cc) (srcAddr s) n
  dst : dstAddr t = steppedBy (ccDinc s.me.cc) (dstAddr s) n
  log : ∃ es, t.env.events = es ++ s.env.events ∧ bytesRead es = n ∧ bytesWritten es = n

theorem Transferred.refl (s : State) : Transferred 0 s s :=
  ⟨KeepsControl.of_me rfl, rfl, (steppedBy_zero _ _).symm, (steppedBy_zero _ _).symm, [], rfl, rfl,
    rfl⟩

theorem Transferred.trans {n m : Nat} {s t u : State} (h : Transferred n s t)
    (k : Transferred m t u) : Transferred (n + m) s u where
  control := h.control.trans k.control
  count := by rw [← h.count, ← k.count]; omega
  src := by rw [k.src, h.src, h.control.cc, steppedBy_steppedBy]
  dst := by rw [k.dst, h.dst, h.control.cc, steppedBy_steppedBy]
  log := by
    obtain ⟨es, hes, hr, hw⟩ := h.log
    obtain ⟨fs, hfs, kr, kw⟩ := k.log
    refine ⟨fs ++ es, by rw [hfs, hes, List.append_assoc], ?_, ?_⟩
    · rw [bytesRead_append, hr, kr, Nat.add_comm]
    · rw [bytesWritten_append, hw, kw, Nat.add_comm]

theorem dmaCheck_transferred (latch : Option Bool) (s : State) :
    Transferred 0 s (dmaCheck latch s).2 := by
  have hme := dmaCheck_me latch s
  obtain ⟨-, -, -, -, -, -, -, -, -, -, hlog⟩ := dmaCheck_core latch s
  have hreg : ∀ r, (dmaCheck latch s).2.reg r = s.reg r := fun r => by
    rw [State.reg, hme, State.reg]
  refine ⟨KeepsControl.of_me hme, by rw [hme, Nat.add_zero], ?_, ?_, hlog⟩
  · rw [steppedBy_zero, srcAddr_congr (by rw [hme]) fun r _ => hreg r]
  · rw [steppedBy_zero, dstAddr_congr (by rw [hme]) fun r _ => hreg r]

theorem countUnit_transferred {s : State} (h : s.me.bc ≠ 0#16) :
    Transferred (unitBytes s) s (countUnit s).st := by
  have hk := countUnit_frame s
  have hcc := hk.cc (by simp)
  obtain ⟨hsrc, hdst⟩ := countUnit_pointers s
  refine ⟨KeepsControl.of_keeps hk (by decide), countUnit_bc_toNat h, ?_, ?_,
    (moveUnit_moves s).1.log⟩
  · rw [srcAddr, dmaSrc_congr hcc, hsrc, srcAddr]
  · rw [dstAddr, dmaDst_congr hcc, hdst, dstAddr]

theorem terminate_transferred (sk : Addr) (s : State) : Transferred 0 s (terminate sk s) := by
  have hme := terminate_me sk s
  have hreg : ∀ r ∈ [RegName.ga, .gb], (terminate sk s).reg r = s.reg r := fun r hr =>
    terminate_reg_other sk s (by rintro rfl; simp at hr)
  refine ⟨terminate_keepsControl sk s, by rw [hme, Nat.add_zero], ?_, ?_, [], rfl, rfl, rfl⟩
  · rw [steppedBy_zero, srcAddr_congr (by rw [hme]) hreg]
  · rw [steppedBy_zero, dstAddr_congr (by rw [hme]) hreg]

/-- Both pointers, whichever is the source. -/
theorem Transferred.pointers {n : Nat} {s t : State} (h : Transferred n s t)
    (hs : ccSinc s.me.cc = true) (hd : ccDinc s.me.cc = true) :
    t.reg .ga = s.reg .ga + BitVec.ofNat 20 n ∧ t.reg .gb = s.reg .gb + BitVec.ofNat 20 n := by
  have hsrc := h.src
  have hdst := h.dst
  simp only [srcAddr, dstAddr, dmaSrc_congr h.control.cc, dmaDst_congr h.control.cc, hs, hd,
    steppedBy, if_true] at hsrc hdst
  unfold dmaSrc at hsrc
  unfold dmaDst at hdst
  split at hsrc
  · next hS => exact ⟨by simpa [hS] using hdst, hsrc⟩
  · next hS => exact ⟨hsrc, by simpa [hS] using hdst⟩

/-- The loop leaves the status alone, however it ends or is cut. -/
theorem dmaLoop_status (n : Nat) (latch : Option Bool) (s : State) :
    (dmaLoop n latch s).me.status = s.me.status :=
  dmaLoop_induct (R := fun s t => t.me.status = s.me.status) (fun _ _ _ h k => k.trans h)
    (fun _ _ => rfl) (fun latch s => by rw [dmaCheck_me]) (fun s => (countUnit_frame s).status)
    (fun sk s => by rw [terminate_me]) n latch s

/-- A byte-count run ends within the step at a check, and an invariant holds there (R252). -/
theorem dmaRun_ends {I : State → Prop} {s : State} (htr : s.me.cc.getLsbD 13 = false)
    (hts : s.me.cc.getLsbD 7 = false) (htbc : fieldTbc s.me.cc ≠ 0) (hI : I s)
    (hcc : ∀ u, I u → u.me.cc = s.me.cc) (hcheck : ∀ latch u, I u → I (dmaCheck latch u).2)
    (hunit : ∀ u, I u → u.me.bc ≠ 0#16 → I (countUnit u).st) :
    ∃ l u sk, I u ∧ (dmaCheck l u).1 = some sk ∧ dmaRun s = terminate sk (dmaCheck l u).2 := by
  rw [dmaRun_eq_dmaLoop htr]
  exact dmaLoop_ends hts htbc hcc hcheck hunit _ none hI s.me.bc.isLt

/-- Part of a run that has not ended: some bytes are moved, and `tp` has no skip yet. -/
def UnderWay (s t : State) : Prop := (∃ n, Transferred n s t) ∧ t.reg .tp = s.reg .tp

theorem UnderWay.check {s t : State} (h : UnderWay s t) (latch : Option Bool) :
    UnderWay s (dmaCheck latch t).2 := by
  obtain ⟨⟨n, hn⟩, htp⟩ := h
  refine ⟨⟨_, hn.trans (dmaCheck_transferred latch t)⟩, ?_⟩
  rw [State.reg, dmaCheck_me]
  exact htp

theorem UnderWay.unit {s t : State} (h : UnderWay s t) (hbc : t.me.bc ≠ 0#16) :
    UnderWay s (countUnit t).st := by
  obtain ⟨⟨n, hn⟩, htp⟩ := h
  exact ⟨⟨_, hn.trans (countUnit_transferred hbc)⟩,
    ((countUnit_frame t).regs .tp (by simp)).trans htp⟩

/-! ### Block copies -/

/-- Addresses fewer than 2^16 apart are masked to different ones, in either space (R41). -/
theorem mask_add_inj {sp : Space} {a : Addr} {i j : Nat} (hi : i < 2 ^ 16) (hj : j < 2 ^ 16)
    (h : mask sp (a + BitVec.ofNat 20 i) = mask sp (a + BitVec.ofNat 20 j)) : i = j := by
  have hnat := congrArg BitVec.toNat h
  have ha := a.isLt
  simp only [mask_toNat, BitVec.toNat_add, BitVec.toNat_ofNat] at hnat
  cases sp <;> simp only [spaceSize] at hnat <;> omega

/-- No masked address of the `n` source bytes is one of the `n` destination bytes (R257). -/
abbrev RangesApart (n : Nat) (s : State) : Prop :=
  ∀ j k, j < n → k < n → ¬ (srcSpace s = dstSpace s ∧
    mask (srcSpace s) (srcAddr s + BitVec.ofNat 20 j) =
      mask (srcSpace s) (dstAddr s + BitVec.ofNat 20 k))

/-- A source byte outside of what has been written. -/
theorem RangesApart.not_inRange {n m j : Nat} {s : State} (h : RangesApart n s) (hm : m ≤ n)
    (hj : j < n) :
    ¬ InRange (dstSpace s) (dstAddr s) m (srcSpace s) (srcAddr s + BitVec.ofNat 20 j) := by
  rintro ⟨hsp, k, hk, hmask⟩
  exact h j k hj (by omega) ⟨hsp, by rw [hsp]; exact hmask⟩

/-- Part of a byte-count run has copied the first `m` bytes of the source range to the destination
range, and has touched no other byte. -/
structure Copied (m : Nat) (s t : State) : Prop where
  moved : Transferred m s t
  canonical : Canonical t
  plain : PlainHost t
  frame : SameBytesBut (dstSpace s) (dstAddr s) m s t
  copied : ∀ j, j < m → t.byteAt (dstSpace s) (dstAddr s + BitVec.ofNat 20 j) =
    s.byteAt (srcSpace s) (srcAddr s + BitVec.ofNat 20 j)

theorem Copied.refl {s : State} (hc : Canonical s) (hp : PlainHost s) : Copied 0 s s :=
  ⟨Transferred.refl s, hc, hp, fun _ _ _ => rfl, fun _ hj => absurd hj (Nat.not_lt_zero _)⟩

theorem moveUnit_plain {s : State} (h : PlainHost s) : PlainHost (moveUnit s).st := by
  have h8 : PlainHost (unit8to8 s).st := (h.readSrc .byte).writeDst _ _
  unfold moveUnit
  split
  · exact h8
  · split
    · exact h8
    · exact ((h.readSrc .byte).readSrc .byte).writeDst _ _
    · exact ((h.readSrc .word).writeDst _ _).writeDst _ _
    · exact (h.readSrc .word).writeDst _ _

/-- With both increments on a counted unit copies its bytes one to one (R242 to R248). -/
theorem countUnit_copies {s : State} (hc : Canonical s) (hp : PlainHost s)
    (hs : ccSinc s.me.cc = true) (hd : ccDinc s.me.cc = true) :
    SameBytesBut (dstSpace s) (dstAddr s) (unitBytes s) s (countUnit s).st ∧
      ∀ j, j < unitBytes s →
        (countUnit s).st.byteAt (dstSpace s) (dstAddr s + BitVec.ofNat 20 j) =
          s.byteAt (srcSpace s) (srcAddr s + BitVec.ofNat 20 j) := by
  have hcopies := moveUnit_copies hc hp
  have hcount : SameBytes (moveUnit s).st (countUnit s).st := sameBytes_of_env (countUnit_env s)
  refine ⟨hcopies.frame.before hcount, fun j hj => ?_⟩
  rw [hcount, hcopies.spread (by simp [hd]) j hj]
  simp [sourceByte, hs]

/-- One more unit of a copy between ranges that are apart. -/
theorem Copied.unit {m : Nat} {s t : State} (h : Copied m s t) (hs : ccSinc s.me.cc = true)
    (hd : ccDinc s.me.cc = true) (hapart : RangesApart s.me.bc.toNat s) (hbc : t.me.bc ≠ 0#16) :
    Copied (m + unitBytes t) s (countUnit t).st := by
  have hctl := h.moved.control
  have hsrc := h.moved.src
  have hdst := h.moved.dst
  have hle := unitBytes_le_bc hbc
  have hcount := h.moved.count
  have hlt := s.me.bc.isLt
  obtain ⟨hframe, hnew⟩ := countUnit_copies h.canonical h.plain (by rw [hctl.cc, hs])
    (by rw [hctl.cc, hd])
  rw [hs] at hsrc
  rw [hd] at hdst
  simp only [steppedBy, if_true] at hsrc hdst
  rw [hctl.dstSpace, hdst] at hframe
  rw [hctl.dstSpace, hctl.srcSpace, hdst, hsrc] at hnew
  refine ⟨h.moved.trans (countUnit_transferred hbc), countUnit_canonical h.canonical,
    moveUnit_plain h.plain,
    (h.frame.mono (by omega)).trans (SameBytesBut.widen (Nat.le_refl _) hframe), fun j hj => ?_⟩
  by_cases hjm : j < m
  · rw [hframe, h.copied j hjm]
    rintro ⟨-, i, hi, hmask⟩
    rw [BitVec.add_assoc, ← BitVec.ofNat_add] at hmask
    have := mask_add_inj (by omega) (by omega) hmask
    omega
  · obtain ⟨i, rfl⟩ := Nat.exists_eq_add_of_le (Nat.le_of_not_lt hjm)
    have hi := hnew i (by omega)
    rw [BitVec.add_assoc, BitVec.add_assoc, ← BitVec.ofNat_add] at hi
    rw [hi, h.frame _ _ (hapart.not_inRange (by omega) (by omega))]

end Sys2Proof.Machine

namespace Sys2Proof.Certificates

open Sys2Proof.Machine

/-- Settles O40: the run is one stop (R236). -/
theorem translateModeIsUnsupported : Obligations.TranslateModeIsUnsupported := by
  intro s htr
  rw [dmaRun, if_pos (show ccTr s.me.cc = true from htr)]
  exact raise_stops _ s

/-- Settles O41: the external class decides where it is enabled and `EXT` is false, and otherwise the
inner checks do, on the channel as it was. -/
theorem terminationChecks : Obligations.TerminationChecks := by
  intro latch s cc ext c
  have hinner : innerCheck latch s =
      if fieldTbc cc ≠ 0 ∧ s.me.bc = 0#16 then some (skipOf (fieldTbc cc))
      else if fieldTmc cc ≠ 0 ∧ LatchAgrees cc latch then some (skipOf (fieldTmc cc)) else none := by
    by_cases hcount : fieldTbc cc ≠ 0 ∧ s.me.bc = 0#16
    · rw [if_pos hcount, innerCheck_of_count hcount.1 hcount.2]
    · rw [if_neg hcount, innerCheck_of_no_count hcount]
      simp only [maskedStop_iff]
      rfl
  by_cases htx : fieldTx cc = 0
  · have hc : c = (innerCheck latch s, s) := dmaCheck_of_no_tx htx latch
    refine ⟨?_, fun _ => by rw [hc], fun h => absurd htx h⟩
    rw [hc, if_neg fun h => h.1 htx]
    exact hinner
  · have hc : c = (if ext then innerCheck latch s else some (skipOf (fieldTx cc)),
        (sampleExt s).2) := dmaCheck_of_tx htx latch
    refine ⟨?_, fun h => absurd h htx, fun _ => by rw [hc]; rfl⟩
    rw [hc]
    cases hext : ext with
    | false => simp [htx]
    | true => exact hinner.trans (if_neg fun h => Bool.noConfusion h.2).symm

/-- Settles O42: the run is the check that fires, which changes nothing of the core, and the end. -/
theorem runCanEndBeforeTheFirstUnit : Obligations.RunCanEndBeforeTheFirstUnit := by
  intro sk s htr hts hfire t
  have ht : t = terminate sk (dmaCheck none s).2 := by
    show dmaRun s = _
    rw [dmaRun_eq_dmaLoop htr, dmaFuel_succ]
    exact dmaLoop_stop _ hts hfire
  obtain ⟨-, -, -, -, -, hmem, hio, -, -, -, hlog⟩ := dmaCheck_core none s
  rw [ht]
  refine ⟨by rw [terminate_me, dmaCheck_me], terminate_dma _ _, fun c hc => ?_,
    fun sp a => State.byteAt_congr sp hmem hio a, hlog⟩
  have hcheck := dmaCheck_channelFrame none s
  rw [terminate_chan_other sk _ (by rw [hcheck.cur]; exact hc), hcheck.other c hc]

/-- Settles O43: the run is one counted unit and the end with skip 0 (R241). -/
theorem singleTransfer : Obligations.SingleTransfer := by
  intro s htr hts t k src dst
  have ht : t = ended (countUnit s).st := by
    rw [← terminate_zero]
    show dmaRun s = _
    rw [dmaRun_eq_dmaLoop htr, dmaFuel_succ]
    exact dmaLoop_single _ none hts
  obtain ⟨hsrc, hdst⟩ := countUnit_pointers s
  rw [ht]
  refine ⟨(countUnit_frame s).ended, ?_, ?_, ?_, (moveUnit_moves s).1.log⟩
  · rw [← countUnit_bc]
    simp [ended]
  · rw [ended_reg]
    exact hsrc
  · rw [ended_reg]
    exact hdst

/-- Settles O48, round by round: a cut in the first round is gone on with there, and a run that ends
is not gone on with. -/
theorem cutRunsGoOn : Obligations.CutRunsGoOn := by
  intro n k
  induction n with
  | zero =>
    intro latch s hidle
    have hs : ({ s with dma := .idle } : State) = s := by rw [← hidle]
    rw [Nat.zero_add]
    exact congrArg (dmaLoop k latch) hs
  | succ n ih =>
    intro latch s hidle
    rw [Nat.add_right_comm]
    cases hts : ccTs s.me.cc with
    | true =>
      rw [dmaLoop_single n latch hts, dmaLoop_single (n + k) latch hts]
      exact continueRun_of_idle rfl k
    | false =>
      cases hc : (dmaCheck latch s).1 with
      | some sk =>
        rw [dmaLoop_stop n hts hc, dmaLoop_stop (n + k) hts hc]
        exact continueRun_of_idle rfl k
      | none =>
        obtain ⟨-, -, -, -, hdma, -⟩ := dmaCheck_core latch s
        rw [dmaLoop_go n hts hc, dmaLoop_go (n + k) hts hc]
        exact ih _ _ ((countUnit_frame _).dma.trans (hdma.trans hidle))

/-- Settles O44: one unit in each width mode, the narrowed one among the first (R247). -/
theorem unitCopiesItsBytes : Obligations.UnitCopiesItsBytes := by
  intro s hc hp
  obtain ⟨hbytes, hframe, hlow, hspread, hlast⟩ := moveUnit_copies hc hp
  exact ⟨hbytes, hframe, hlow, hspread, hlast⟩

/-- Settles O45: the run ends at a check, having moved the bytes by which the count has fallen. -/
theorem byteCountRun : Obligations.ByteCountRun := by
  intro s hidle htr hts hsinc hdinc htbc hbc t n
  obtain ⟨l, u, sk, ⟨⟨k, hk⟩, htp⟩, hfire, hend⟩ := dmaRun_ends (I := UnderWay s) htr hts htbc
    ⟨⟨0, Transferred.refl s⟩, rfl⟩ (fun _ ⟨⟨_, h⟩, _⟩ => h.control.cc)
    (fun latch _ h => h.check latch) (fun _ h => h.unit)
  have ht : t = terminate sk (dmaCheck l u).2 := hend
  have hmoved : Transferred k s t := by
    rw [ht]
    exact (hk.trans (dmaCheck_transferred l u)).trans (terminate_transferred sk _)
  have hstatus : t.me.status = s.me.status := by
    show (dmaRun s).me.status = _
    rw [dmaRun_eq_dmaLoop htr, dmaLoop_status]
  have hcc := hk.control.cc
  refine ⟨by rw [ht, terminate_dma], by rw [ht, terminate_me], ?_, ?_⟩
  · intro htx htmc
    rw [dmaCheck_of_count_alone (by rw [hcc, htx]) (by rw [hcc, htmc]) (by rw [hcc]; exact htbc)]
      at hfire ht
    split at hfire
    · next hzero =>
      cases hfire
      rw [ht]
      refine ⟨by rw [terminate_me, hzero], ?_⟩
      rw [State.reg, terminate_me, hcc, ← htp]
      rfl
    · cases hfire
  · intro hzero
    have hn : k = n := by
      have hcount := hmoved.count
      rwa [hzero, BitVec.toNat_zero, Nat.zero_add] at hcount
    rw [← hn]
    obtain ⟨hga, hgb⟩ := hmoved.pointers hsinc hdinc
    obtain ⟨hregs, htags, hsrc, hdst⟩ := hmoved.control
    exact ⟨hga, hgb, hregs, htags, hsrc, hdst, hstatus, (dmaRun_channelFrame s).other, hmoved.log⟩

/-- Settles O46: unit by unit, a longer part of the range is copied; at the end the count is 0. -/
theorem blockCopy : Obligations.BlockCopy := by
  intro s hc hp hidle htr hts hsinc hdinc htx htmc htbc n src dst hapart t
  have hcheck : ∀ latch u, (∃ m, Copied m s u) → dmaCheck latch u =
      (if u.me.bc = 0#16 then some (skipOf (fieldTbc u.me.cc)) else none, u) := by
    rintro latch u ⟨m, hm⟩
    have hcc := hm.moved.control.cc
    exact dmaCheck_of_count_alone (by rw [hcc, htx]) (by rw [hcc, htmc]) (by rw [hcc]; exact htbc) _
  obtain ⟨l, u, sk, ⟨m, hm⟩, hfire, hend⟩ := dmaRun_ends (I := fun u => ∃ m, Copied m s u) htr hts
    htbc ⟨0, Copied.refl hc hp⟩ (fun _ ⟨_, h⟩ => h.moved.control.cc)
    (fun latch u h => by rw [hcheck latch u h]; exact h)
    (fun _ ⟨_, h⟩ hbc => ⟨_, h.unit hsinc hdinc hapart hbc⟩)
  rw [hcheck l u ⟨m, hm⟩] at hfire hend
  have ht : t = terminate sk u := hend
  split at hfire
  · next hzero =>
    have hn : m = n := by
      have hcount := hm.moved.count
      rwa [hzero, BitVec.toNat_zero, Nat.zero_add] at hcount
    have hb : SameBytes u t := by
      rw [ht]
      exact sameBytes_of_env (terminate_env _ _)
    rw [← hn]
    refine ⟨?_, hm.frame.before hb, fun j hj => (hb _ _).trans (hm.copied j hj)⟩
    rw [ht, terminate_me, hzero]
  · cases hfire

end Sys2Proof.Certificates

/-! ## Host actions

What a reset, a resume, a store and a driven pin change: the lemmas here, then the statement they
settle. -/

namespace Sys2Proof.Machine

section
variable (s : State) (c d : ChanId) (p : ExtPin) (e : Env)

/-- What the host does on its own side is nothing to a channel. -/
@[simp] theorem State.chan_env : ({ s with env := e } : State).chan c = s.chan c := by cases c <;> rfl

@[simp] theorem State.pin_setPin_same : (s.setPin c p).pin c = p := by cases c <;> rfl

theorem State.pin_setPin_other {c d : ChanId} (h : d ≠ c) : (s.setPin c p).pin d = s.pin d := by
  cases c
  · cases d
    · exact absurd rfl h
    · rfl
  · cases d
    · rfl
    · exact absurd rfl h

/-- Taking an action off the schedule leaves the pins alone. -/
@[simp] theorem State.pin_schedule (rest : List HostAction) :
    ({ s with env := { s.env with schedule := rest } } : State).pin c = s.pin c := by
  cases c <;> rfl

/-- A reset gives both channels their reset values (R290). -/
theorem resetCore_chan : (resetCore s).chan d = State.reset.chan d := by cases d <;> rfl

end

/-- A resume sets a faulted status running (R268). -/
@[simp] theorem resumeStatus_faulted (f : Failure) : resumeStatus (.faulted f) = .running := rfl

/-- A resume leaves every other status alone (R268). -/
theorem resumeStatus_of_not_faulted {x : Status} (h : ∀ f, x ≠ .faulted f) :
    resumeStatus x = x := by
  cases x with
  | faulted f => exact absurd rfl (h f)
  | idle | running | halted => rfl

end Sys2Proof.Machine

namespace Sys2Proof.Certificates

open Sys2Proof.Machine

/-- Settles O51: each action is one operation on the state, and a resume is for its channel alone. -/
theorem hostActions : Obligations.HostActions := by
  intro c sp a b level rest s
  refine ⟨fun hact => ⟨_, step_of_actsNext hact, fun d => resetCore_chan _ d, rfl, rfl, rfl⟩,
    fun hact => ⟨_, step_of_actsNext hact, ?resumed, fun d hd => ?otherChannel, rfl⟩,
    fun hact => ⟨_, step_of_actsNext hact, rfl, rfl, ?stored, rfl, ?readBack⟩,
    fun hact => ⟨_, step_of_actsNext hact, rfl, rfl, ?bytes, ?driven, fun d hd => ?otherPin⟩⟩
  case resumed =>
    rw [State.chan_setChan_same, State.chan_env]
    split
    · next f hst => rw [hst, resumeStatus_faulted]
    · next hst => rw [resumeStatus_of_not_faulted hst]
  case otherChannel => exact hostAct_chan_of_spares (a := .resume c) (rest := rest) rfl hd
  case stored =>
    exact SameBytesBut.after (fun sq x => State.byteAt_congr sq rfl rfl x)
      (sameBytesBut_setByte _ sp a b Nat.one_pos)
  case readBack => exact fun hc => State.byteAt_setByte_same _ sp b hc rfl
  case bytes => exact fun sq x => State.byteAt_congr sq rfl rfl x
  case driven => rw [State.pin_setPin_same, State.pin_schedule]
  case otherPin => rw [State.pin_setPin_other _ _ hd, State.pin_schedule]

end Sys2Proof.Certificates
